-- ==== Sys2Proof/Word.lean ====
section
/-! DEFINITION. The two sizes of data the spec knows: a 64-bit register value (`XLEN`, 00_scope.md rule R6)
and one byte of a stream (20_memory.md rule R42). Every other quantity of the spec is an exact mathematical
integer (rules R8, R9) and is a `Nat` or an `Int` here. -/

namespace Sys2Proof

/-- A 64-bit register value, a `U64` of rule R8, and the unit of the port `RND`. -/
abbrev Word := BitVec 64

/-- One byte, the unit of the stream ports `SIN`, `KIN`, `SOUT` (rule R42). -/
abbrev Byte := BitVec 8

end Sys2Proof
end

