-- ==== Sys2Proof/Config.lean ====
section
/-! DEFINITION. What an implementation fixes (00_scope.md rule R6): the parameters the spec leaves open, with the
defaults it gives. A machine's parameters are the field `cfg` of its state, which no step writes, so a statement
about every state is a statement about every choice of parameters (notes/assumptions/5.md). -/

namespace Sys2Proof

/-- The four per-protocol transforms of the codec, the values 0 to 3 of the command word's `T` (rule R60). -/
inductive Transform where
  | rsa
  | elg
  | tp
  | otp
  deriving DecidableEq, Repr

/-- The three transforms of the block mode; the one-time pad is not a block transform (42_codec_framing.md rule
R107). -/
inductive BlockTransform where
  | rsa
  | elg
  | tp
  deriving DecidableEq, Repr

/-- A block transform among the four transforms. -/
def BlockTransform.transform : BlockTransform → Transform
  | .rsa => .rsa
  | .elg => .elg
  | .tp => .tp

/-- A format tag: four bytes, in the order they stand in the header (30_encoding.md rule R68). -/
structure Tag where
  b0 : Byte
  b1 : Byte
  b2 : Byte
  b3 : Byte
  deriving DecidableEq, Repr

/-- The bytes of a tag, first byte first. -/
def Tag.bytes (t : Tag) : List Byte := [t.b0, t.b1, t.b2, t.b3]

/-- The open parameters of rule R6 that a rule of the spec depends on. `BUS_MAP` is not among them: no rule
depends on it (20_memory.md rule R41). -/
structure Params where
  /-- `NSP`, the number of entries of the small-prime table (41_primality.md rule R89). -/
  nsp : Nat
  /-- `DET_WITNESSES`, in order (41_primality.md rule R93). -/
  detWitnesses : List Nat
  /-- `TAG_RSA` (30_encoding.md rule R68). -/
  tagRsa : Tag
  /-- `TAG_ELG`. -/
  tagElg : Tag
  /-- `TAG_TP`. -/
  tagTp : Tag
  /-- `TAG_OTP`. -/
  tagOtp : Tag
  deriving DecidableEq, Repr

/-- The defaults of rule R6: `NSP = 170`, the first twelve primes, and the tags `RSA1`, `ELG1`, `SHM1`, `OTP1`. -/
def Params.standard : Params where
  nsp := 170
  detWitnesses := [2, 3, 5, 7, 11, 13, 17, 19, 23, 29, 31, 37]
  tagRsa := ⟨0x52#8, 0x53#8, 0x41#8, 0x31#8⟩
  tagElg := ⟨0x45#8, 0x4C#8, 0x47#8, 0x31#8⟩
  tagTp := ⟨0x53#8, 0x48#8, 0x4D#8, 0x31#8⟩
  tagOtp := ⟨0x4F#8, 0x54#8, 0x50#8, 0x31#8⟩

/-- `TAG[T]`, the format tag of a transform (rule R68). -/
def Params.tag (p : Params) : Transform → Tag
  | .rsa => p.tagRsa
  | .elg => p.tagElg
  | .tp => p.tagTp
  | .otp => p.tagOtp

end Sys2Proof
end

