-- ==== Sys2Proof/Syntax.lean ====
section
/-! DEFINITION. The twelve commands of 30_encoding.md rule R61, one constructor per row of the opcode table. -/

namespace Sys2Proof

/-- The engine's commands. The two free fields of the command word, `S` of `MODEXP` and `V` of `EGCD`, are the only
operands a command word carries (rules R60, R64); everything else comes from the operand registers. -/
inductive Instr where
  /-- `MODEXP` (rule R73); `signed` is the field `S`: the base register is read as `sint64`. -/
  | modexp (signed : Bool)
  /-- `EGCD` (rule R77); `legacy` is the field `V`: the legacy preconditions of rule R76. -/
  | egcd (legacy : Bool)
  /-- `MODINV` (rule R80). -/
  | modinv
  /-- `PRIMETEST` (rule R94). -/
  | primetest
  /-- `ENCODE.RSA` (rule R105). -/
  | encodeRsa
  /-- `ENCODE.ELG` (rule R105). -/
  | encodeElg
  /-- `ENCODE.TP` (rule R105). -/
  | encodeTp
  /-- `ENCODE.OTP` (rule R108). -/
  | encodeOtp
  /-- `DECODE.RSA` (rule R106). -/
  | decodeRsa
  /-- `DECODE.ELG` (rule R106). -/
  | decodeElg
  /-- `DECODE.TP` (rule R106). -/
  | decodeTp
  /-- `DECODE.OTP` (rule R109). -/
  | decodeOtp
  deriving DecidableEq, Repr

end Sys2Proof
end

