-- ==== Sys2Proof/Decode.lean ====
section
/-! DEFINITION. The command word (30_encoding.md rules R60 to R63): its fields, the total decoder that rejects by
name, the encoder written from the same table, and the reading of an opcode-table word. -/

namespace Sys2Proof

/-- Why a word is no command: the four kinds of illegal word that rule R63 lists. All of them complete with the one
error `IllegalCommand`. -/
inductive Reject where
  /-- One of bits 63:14 is set. -/
  | reservedBits
  /-- `OPC` names no operation. -/
  | noSuchOperation
  /-- A reserved transform, `T` in 4 to 15, on `ENCODE` or `DECODE`. -/
  | reservedTransform
  /-- A modifier (`T`, `S` or `V`) set on an operation that does not use it. -/
  | strayModifier
  deriving DecidableEq, Repr

/-- Field `OPC`, bits 7:0 (rule R60). -/
def fieldOpc (w : Word) : BitVec 8 := w.extractLsb' 0 8

/-- Field `T`, bits 11:8. -/
def fieldT (w : Word) : BitVec 4 := w.extractLsb' 8 4

/-- Field `S`, bit 12. -/
def fieldS (w : Word) : Bool := w.getLsbD 12

/-- Field `V`, bit 13. -/
def fieldV (w : Word) : Bool := w.getLsbD 13

/-- The reserved field, bits 63:14. -/
def fieldReserved (w : Word) : BitVec 50 := w.extractLsb' 14 50

/-- The transform a codec word selects (rule R60); 4 to 15 are reserved. -/
def transformOf (t : BitVec 4) : Option Transform :=
  if t = 0#4 then some .rsa
  else if t = 1#4 then some .elg
  else if t = 2#4 then some .tp
  else if t = 3#4 then some .otp
  else none

/-- The `ENCODE` command of a transform. -/
def encodeCommand : Transform → Instr
  | .rsa => .encodeRsa
  | .elg => .encodeElg
  | .tp => .encodeTp
  | .otp => .encodeOtp

/-- The `DECODE` command of a transform. -/
def decodeCommand : Transform → Instr
  | .rsa => .decodeRsa
  | .elg => .decodeElg
  | .tp => .decodeTp
  | .otp => .decodeOtp

/-- A codec word once its operation is known: no modifier but `T`, and `T` not reserved. -/
def decodeCodec (t : BitVec 4) (s v : Bool) (command : Transform → Instr) : Except Reject Instr :=
  if s || v then .error .strayModifier
  else match transformOf t with
    | some x => .ok (command x)
    | none => .error .reservedTransform

/-- `decode` of rule R62: a total function from any 64-bit value to a command or to a named reason why it is
illegal. -/
def decode (w : Word) : Except Reject Instr :=
  let t := fieldT w
  let s := fieldS w
  let v := fieldV w
  if fieldReserved w ≠ 0#50 then .error .reservedBits
  else if fieldOpc w = 0x01#8 then
    if t = 0#4 && !v then .ok (.modexp s) else .error .strayModifier
  else if fieldOpc w = 0x02#8 then
    if t = 0#4 && !s then .ok (.egcd v) else .error .strayModifier
  else if fieldOpc w = 0x03#8 then
    if t = 0#4 && !s && !v then .ok .modinv else .error .strayModifier
  else if fieldOpc w = 0x04#8 then
    if t = 0#4 && !s && !v then .ok .primetest else .error .strayModifier
  else if fieldOpc w = 0x08#8 then decodeCodec t s v encodeCommand
  else if fieldOpc w = 0x09#8 then decodeCodec t s v decodeCommand
  else .error .noSuchOperation

/-- A command word from its fields, bits 63:14 zero (rule R60). -/
def commandWord (opc : BitVec 8) (t : BitVec 4) (s v : Bool) : Word :=
  0#50 ++ BitVec.ofBool v ++ BitVec.ofBool s ++ t ++ opc

/-- The command word of a command, from the table of rule R61. -/
def encode : Instr → Word
  | .modexp s => commandWord 0x01#8 0#4 s false
  | .egcd v => commandWord 0x02#8 0#4 false v
  | .modinv => commandWord 0x03#8 0#4 false false
  | .primetest => commandWord 0x04#8 0#4 false false
  | .encodeRsa => commandWord 0x08#8 0#4 false false
  | .encodeElg => commandWord 0x08#8 1#4 false false
  | .encodeTp => commandWord 0x08#8 2#4 false false
  | .encodeOtp => commandWord 0x08#8 3#4 false false
  | .decodeRsa => commandWord 0x09#8 0#4 false false
  | .decodeElg => commandWord 0x09#8 1#4 false false
  | .decodeTp => commandWord 0x09#8 2#4 false false
  | .decodeOtp => commandWord 0x09#8 3#4 false false

/-- The 64-bit command word that an opcode-table word of `nbits` bits stands for, bits above `nbits` zero; none if it
does not fit one command word, since all commands are one word (rule R60). -/
def tableWord (nbits w : Nat) : Option Word :=
  if w % 2 ^ nbits < 2 ^ 64 then some (BitVec.ofNat 64 (w % 2 ^ nbits)) else none

/-- The command the decoder reads from an opcode-table word. -/
def decodeTableWord (nbits w : Nat) : Option Instr :=
  match tableWord nbits w with
  | some x => (decode x).toOption
  | none => none

end Sys2Proof
end

