-- ==== Sys2Proof/Machine/Numbers.lean ====
section
/-! DEFINITION. The exact arithmetic and the byte strings of 00_scope.md rules R9 and R10. `div` and `mod` of rule R9
are `/` and `%` on `Nat`, and on `Int` with a positive divisor; nothing wraps (40_kernel.md rule R75). -/

namespace Sys2Proof.Machine

/-- `bitlength(v)` of rule R9: 0 for 0, otherwise the `k` with `2^(k-1) ≤ v < 2^k`. -/
def bitlength (v : Nat) : Nat := if v = 0 then 0 else v.log2 + 1

/-- `mulmod(a, b, m)` of rule R9: the exact product, then the remainder. -/
def mulmod (a b m : Nat) : Nat := a * b % m

/-- `sint64(v)` of rule R9: the two's complement reading of a register. -/
def sint64 (v : Word) : Int := v.toInt

/-- `tc64(z)` of rule R9: the two's complement writing of an integer. -/
def tc64 (z : Int) : Word := BitVec.ofInt 64 z

/-- A natural number as a register value, reduced mod `2^64`. -/
def toWord (n : Nat) : Word := BitVec.ofNat 64 n

/-- `a mod b` of rule R9 for an integer `a` and a positive `b`: the floor remainder, never negative. -/
def floorMod (a : Int) (b : Nat) : Nat := (a % (b : Int)).toNat

/-- `ceil(a / b)` of rule R9. -/
def ceilDiv (a b : Nat) : Nat := (a + b - 1) / b

/-- `BEdec(s)` of rule R10: the first byte is the most significant. -/
def beDec (s : List Byte) : Nat := s.foldl (fun acc b => acc * 256 + b.toNat) 0

/-- `LEdec(s)` of rule R10: the first byte is the least significant. -/
def leDec : List Byte → Nat
  | [] => 0
  | b :: s => b.toNat + 256 * leDec s

/-- `LEenc(v, n)` of rule R10, `n` bytes, least significant first. -/
def leEnc (v : Nat) : Nat → List Byte
  | 0 => []
  | n + 1 => BitVec.ofNat 8 v :: leEnc (v / 256) n

/-- `BEenc(v, n)` of rule R10, `n` bytes, most significant first: the same digits as `LEenc`, reversed. -/
def beEnc (v n : Nat) : List Byte := (leEnc v n).reverse

/-- `LE8(v)` of rule R10. -/
def le8 (v : Nat) : List Byte := leEnc v 8

/-- `zeros(k)` of rule R10. -/
def zeros (k : Nat) : List Byte := List.replicate k 0#8

end Sys2Proof.Machine
end

