-- ==== Sys2Proof/Machine/State.lean ====
section
/-! DEFINITION. The state of the machine: the engine's registers and hidden context (10_state.md rules R20 to R32),
the ports as state (rules R33, R34), and the environment's pending actions, as plain data. -/

namespace Sys2Proof.Machine

/-- The thirteen causes of 60_exceptions.md rule R131. -/
inductive Cause where
  | illegalCommand
  | modulusZero
  | egcdRange
  | egcdOrder
  | notCoprime
  | keyShort
  | paramRange
  | badTag
  | modulusMismatch
  | truncated
  | badWidth
  | blockRange
  | containerShort
  deriving DecidableEq, Repr

/-- The fourteen named registers of rule R20. -/
inductive Reg where
  | ctrl
  | status
  | errcode
  | cmd
  | a
  | b
  | m
  | e1
  | e2
  | len
  | klen
  | r0
  | r1
  | r2
  deriving DecidableEq, Repr

/-- The four bits of `STATUS` (rule R24); bits 63:4 are reserved and read 0. -/
structure Status where
  /-- Bit 0, `BUSY`: a command is in progress. -/
  busy : Bool
  /-- Bit 1, `DONE`: a command has completed. -/
  done : Bool
  /-- Bit 2, `ERR`: it completed with error. -/
  err : Bool
  /-- Bit 3, `OVR`: a `CMD` write was dropped. -/
  ovr : Bool
  deriving DecidableEq, Repr

/-- The seven operand registers (rule R21), and their latched copies (rule R30). -/
structure Operands where
  a : Word
  b : Word
  m : Word
  e1 : Word
  e2 : Word
  len : Word
  klen : Word
  deriving DecidableEq, Repr

/-- The local variables of the `ENCODE` pseudocode (42_codec_framing.md rule R105) at a port operation. -/
structure EncLocals where
  /-- Plaintext bytes not yet taken as blocks. -/
  remaining : Nat
  /-- Blocks done. -/
  blocks : Nat
  deriving DecidableEq, Repr

/-- The local variables of the `DECODE` pseudocode (rules R106, R109) at a port operation. -/
structure DecLocals where
  /-- Container bytes not yet consumed. -/
  left : Nat
  /-- Plaintext bytes still owed. -/
  remaining : Nat
  /-- Blocks consumed. -/
  blocks : Nat
  /-- Plaintext bytes produced. -/
  out : Nat
  /-- The header's original length. -/
  orig : Nat
  deriving DecidableEq, Repr

/-- `ctx.pos` of rule R30: the port operation of the pseudocode a running command stands at, with its local
variables. In the positions that read a stream, `got` holds the bytes this `SinRead` has already taken; in those that
write, `pending` holds the bytes this `SoutWrite` has not yet had accepted. -/
inductive Pos where
  /-- The first line of the command's pseudocode. -/
  | start
  /-- `PRIMETEST`: at `RandRange2` with this many rounds left, this one included (rule R94). -/
  | primeDraw (rounds : Nat)
  /-- `ENCODE` in block mode: at `SinRead(w)` (rule R105). -/
  | encIn (got : List Byte) (v : EncLocals)
  /-- `ENCODE.ELG`: at `RandRange2` for the block value `m` (43_codec_transforms.md rule R117). -/
  | encDraw (m : Nat) (v : EncLocals)
  /-- `ENCODE` in block mode: at a `SoutWrite`; `v` is what holds after it. -/
  | encOut (pending : List Byte) (v : EncLocals)
  /-- `DECODE` in block mode: at the `SinRead` of the header (rule R106). -/
  | decHead (got : List Byte)
  /-- `DECODE` in block mode: at the `SinRead` of a block. -/
  | decIn (got : List Byte) (v : DecLocals)
  /-- `DECODE` in block mode: at a `SoutWrite`; `v` is what holds after it. -/
  | decOut (pending : List Byte) (v : DecLocals)
  /-- `ENCODE.OTP`: at `SinRead(1)` with this many bytes left, this one included (rule R108). -/
  | padIn (left : Nat)
  /-- `ENCODE.OTP`: at `KinRead(1)` for the plaintext byte `p`. -/
  | padKey (p : Byte) (left : Nat)
  /-- `ENCODE.OTP`: at a `SoutWrite`; `left` is what is left after it. -/
  | padOut (pending : List Byte) (left : Nat)
  /-- `DECODE.OTP`: at the `SinRead` of the header (rule R109). -/
  | unpadHead (got : List Byte)
  /-- `DECODE.OTP`: at `SinRead(1)`. -/
  | unpadIn (v : DecLocals)
  /-- `DECODE.OTP`: at `KinRead(1)` for the payload byte `c`. -/
  | unpadKey (c : Byte) (v : DecLocals)
  /-- `DECODE.OTP`: at a `SoutWrite`; `v` is what holds after it. -/
  | unpadOut (pending : List Byte) (v : DecLocals)
  deriving DecidableEq, Repr

/-- The hidden context of a running command (rule R30). -/
structure Ctx where
  /-- `ctx.cmd`, the accepted command word. -/
  cmd : Word
  /-- `ctx.A` to `ctx.KLEN`, the latched operands. -/
  ops : Operands
  /-- `ctx.pos`. -/
  pos : Pos
  deriving DecidableEq, Repr

/-- The ports as state (rules R33, R34; 20_memory.md rules R43 to R47). -/
structure Ports where
  /-- Bytes the host offers on `SIN`, not yet taken, first to be taken first. -/
  sin : List Byte
  /-- Bytes the host offers on `KIN`. -/
  kin : List Byte
  /-- Words the random source offers on `RND`. -/
  rnd : List Word
  /-- Bytes accepted on `SOUT` so far, oldest first. -/
  sout : List Byte
  /-- How many more bytes the consumer of `SOUT` stands ready to accept (notes/assumptions/7.md). -/
  room : Nat
  deriving DecidableEq, Repr

/-- One action of an agent (00_scope.md rule R15), in the order the agenda gives them. -/
inductive Event where
  /-- The host's `RegRead(i)` (rule R40); the value is appended to `readData`. -/
  | regRead (i : Nat)
  /-- The host's `RegWrite(i, v)` (rule R40). -/
  | regWrite (i : Nat) (v : Word)
  /-- A port access that is not one whole register: narrower, wider or misaligned (rule R42). -/
  | partAccess (address : Nat) (bits : Nat)
  /-- The host offers bytes on `SIN` (rule R43). -/
  | offerSin (s : List Byte)
  /-- The host offers bytes on `KIN` (rule R44). -/
  | offerKin (s : List Byte)
  /-- The host withdraws what it offered on `SIN` and no command took (70_reset_and_hazards.md rule R156). -/
  | withdrawSin
  /-- The host withdraws what it offered on `KIN` and no command took (rule R156). -/
  | withdrawKin
  /-- The consumer stands ready to accept `n` more bytes from `SOUT` (rule R45). -/
  | acceptSout (n : Nat)
  /-- The random source offers words on `RND` (rule R47). -/
  | offerRnd (ws : List Word)
  /-- The engine moves. -/
  | engine
  /-- The host repeats `RD STATUS` until `DONE = 1` (30_encoding.md rule R70, `WAIT`), the engine moving meanwhile. -/
  | waitDone
  /-- The reset input (rule R150). -/
  | reset
  deriving DecidableEq, Repr

/-- The state of the machine and of its ports. -/
structure State where
  /-- The implementation's parameters (00_scope.md rule R6), written by no step. -/
  cfg : Params
  /-- `CTRL.IE` (rule R23); bits 63:1 of `CTRL` are reserved and read 0. -/
  ctrlIE : Bool
  /-- `STATUS` (rule R24). -/
  status : Status
  /-- `ERRCODE` (rule R25): none for 0, else the cause of the last completed command. -/
  errcode : Option Cause
  /-- `CMD` (rule R26): the last command word accepted. -/
  cmd : Word
  /-- The operand registers `A` to `KLEN` (rule R21). -/
  ops : Operands
  /-- `R0` (rule R22). -/
  r0 : Word
  /-- `R1` (rule R22). -/
  r1 : Word
  /-- `R2` (rule R22). -/
  r2 : Word
  /-- `ctx` (rule R30): the running command, none when there is none. -/
  ctx : Option Ctx
  /-- The ports. -/
  ports : Ports
  /-- What the agents do next, in order; with none left, the engine moves (notes/assumptions/1.md). -/
  agenda : List Event
  /-- What the register port has answered to the host's reads, oldest first (notes/assumptions/8.md). -/
  readData : List Word
  deriving DecidableEq, Repr

/-- Why the machine stops. Neither stop is in the spec, and no run reaches either: they stand for states that break
the invariant of Safety.lean (notes/assumptions/13.md). -/
inductive Fault where
  /-- A command is to run while no command is accepted: raised by `runCommand` when `ctx` is none. Safe: the machine
  stops where the spec gives no state. -/
  | noCommand
  /-- The position in `ctx` is not one of the running command's: raised by `runCommand`. Safe, as above. -/
  | lostPosition
  deriving DecidableEq, Repr

/-- What the model gives no meaning. -/
inductive Refusal where
  /-- A command without a meaning yet: raised by no arm of `exec`. Safe. -/
  | notModelled (mnemonic : String)
  /-- An access that is not an operation of the register port, which rule R42 says a model refuses: raised by the
  event `partAccess`. Safe: the spec gives it no meaning. -/
  | notAPortOperation
  deriving DecidableEq, Repr

/-- All operand registers zero. -/
def Operands.zero : Operands := ⟨0, 0, 0, 0, 0, 0, 0⟩

/-- `STATUS = 0`. -/
def Status.zero : Status := ⟨false, false, false, false⟩

/-- Ports on which nothing is offered and nothing was accepted. -/
def Ports.empty : Ports := ⟨[], [], [], [], 0⟩

/-- The machine right after reset (rule R36): every register 0, no command, nothing offered on a port ("Start: reset"
of 95_test_vectors.md), the parameters at the defaults of rule R6. -/
def State.reset : State where
  cfg := .standard
  ctrlIE := false
  status := .zero
  errcode := none
  cmd := 0
  ops := .zero
  r0 := 0
  r1 := 0
  r2 := 0
  ctx := none
  ports := .empty
  agenda := []
  readData := []

end Sys2Proof.Machine
end

