-- ==== Sys2Proof/Machine/Kernel.lean ====
section
/-! DEFINITION. The numeric kernel (40_kernel.md rules R72 to R83): `modpow`, `egcd` and `modinv`, as the spec's
pseudocode gives them, each `while` a structural recursion with a bound that is enough (notes/assumptions/21.md). A
`raise` inside one of them is an `Except.error` and ends the command that called it (00_scope.md rule R13). -/

namespace Sys2Proof.Machine

/-- The loop of rule R74: one bit of the exponent a turn, from the least significant. -/
def powLoop (m : Nat) : Nat → Nat → Nat → Nat → Nat
  | 0, result, _, _ => result
  | turns + 1, result, b, e =>
    if e = 0 then result
    else powLoop m turns (if e % 2 = 1 then mulmod result b m else result) (mulmod b b m) (e / 2)

/-- `modpow` of rule R74 for a positive modulus: the base normalised (rule R83), then `bitlength(e)` turns. -/
def powMod (base0 : Int) (e m : Nat) : Nat := powLoop m (bitlength e) (1 % m) (floorMod base0 m) e

/-- `modpow(base0, e, m)` of rule R74, with its error. -/
def modpow (base0 : Int) (e m : Nat) : Except Cause Nat :=
  if m = 0 then .error .modulusZero else .ok (powMod base0 e m)

/-- The iteration of rule R78 on the two running triples. -/
def egcdLoop : Nat → Nat × Int × Int → Nat × Int × Int → Nat × Int × Int
  | 0, first, _ => first
  | turns + 1, (r0, s0, t0), (r1, s1, t1) =>
    if r1 = 0 then (r0, s0, t0)
    else
      let q := r0 / r1
      egcdLoop turns (r1, s1, t1) (r0 - q * r1, s0 - q * s1, t0 - q * t1)

/-- `egcd(a, b)` of rule R78: the Bezout triple `(g, x, y)`. The second remainder falls at every turn, so `b` turns
are enough. -/
def egcd (a b : Nat) : Nat × Int × Int := egcdLoop b (a, 1, 0) (b, 0, 1)

/-- `modinv(v, m)` of rule R81, with its errors in its order. -/
def modinv (v m : Nat) : Except Cause Nat :=
  if m = 0 then .error .modulusZero
  else if v = 0 then .error .egcdRange
  else if (egcd v m).1 ≠ 1 then .error .notCoprime
  else .ok (floorMod (egcd v m).2.1 m)

end Sys2Proof.Machine
end

