-- ==== Sys2Proof/Machine/Operands.lean ====
section
/-! DEFINITION. How a command reads its operands (10_state.md rule R21; 30_encoding.md rule R64): whole registers,
unsigned, but for the two `sint64` readings; and the register index space (rules R20, R27, R41). -/

namespace Sys2Proof.Machine

/-- The index of a register (rule R20). -/
def Reg.index : Reg → Nat
  | .ctrl => 0x00
  | .status => 0x01
  | .errcode => 0x02
  | .cmd => 0x03
  | .a => 0x04
  | .b => 0x05
  | .m => 0x06
  | .e1 => 0x07
  | .e2 => 0x08
  | .len => 0x09
  | .klen => 0x0A
  | .r0 => 0x0C
  | .r1 => 0x0D
  | .r2 => 0x0E

/-- The register with an index; none for the reserved indices `0x0B` and `0x0F` upward (rules R27, R41). -/
def Reg.ofIndex : Nat → Option Reg
  | 0x00 => some .ctrl
  | 0x01 => some .status
  | 0x02 => some .errcode
  | 0x03 => some .cmd
  | 0x04 => some .a
  | 0x05 => some .b
  | 0x06 => some .m
  | 0x07 => some .e1
  | 0x08 => some .e2
  | 0x09 => some .len
  | 0x0A => some .klen
  | 0x0C => some .r0
  | 0x0D => some .r1
  | 0x0E => some .r2
  | _ => none

/-- `A` as an unsigned number. -/
def Operands.uA (o : Operands) : Nat := o.a.toNat

/-- `B` as an unsigned number. -/
def Operands.uB (o : Operands) : Nat := o.b.toNat

/-- `M`, the modulus. -/
def Operands.uM (o : Operands) : Nat := o.m.toNat

/-- `E1` as an unsigned number. -/
def Operands.uE1 (o : Operands) : Nat := o.e1.toNat

/-- `E2` as an unsigned number. -/
def Operands.uE2 (o : Operands) : Nat := o.e2.toNat

/-- `LEN`, the number of bytes the command consumes from `SIN`. -/
def Operands.uLen (o : Operands) : Nat := o.len.toNat

/-- `KLEN`, the length of the key. -/
def Operands.uKlen (o : Operands) : Nat := o.klen.toNat

/-- The base of `MODEXP`: `A` unsigned when `S = 0`, `sint64(A)` when `S = 1` (40_kernel.md rule R83). -/
def Operands.base (o : Operands) (signed : Bool) : Int := if signed then sint64 o.a else (o.a.toNat : Int)

/-- `rounds` of `PRIMETEST`: `sint64(B)` (41_primality.md rule R94). -/
def Operands.rounds (o : Operands) : Int := sint64 o.b

end Sys2Proof.Machine
end

