-- ==== Sys2Proof/Machine/Codec.lean ====
section
/-! DEFINITION. The pieces of the block-framing codec: block widths (42_codec_framing.md rule R100), the headers and
blocks of the container (30_encoding.md rules R65 to R68), chunks (rules R101, R103), and the per-block transforms
(43_codec_transforms.md rules R115 to R120). -/

namespace Sys2Proof.Machine

/-- `pw` of `Widths(M)`: the plaintext block width in bytes (rule R100). -/
def plainWidth (m : Nat) : Nat := max 1 ((bitlength m - 1) / 8)

/-- `cw` of `Widths(M)`: the ciphertext block width in bytes (rule R100). -/
def cipherWidth (m : Nat) : Nat := max 1 (ceilDiv (bitlength (m - 1)) 8)

/-- `bs`, the bytes of one container block (30_encoding.md rule R67). -/
def blockSize : BlockTransform → Nat → Nat
  | .rsa, m => cipherWidth m
  | .elg, m => cipherWidth m + 8
  | .tp, m => cipherWidth m

/-- `HDR_BLOCK` of 00_scope.md rule R6. -/
def hdrBlock : Nat := 22

/-- `HDR_OTP` of rule R6. -/
def hdrOtp : Nat := 12

/-- The 22 header bytes of the block mode (rules R65, R102). -/
def blockHeader (cfg : Params) (t : BlockTransform) (m n : Nat) : List Byte :=
  (cfg.tag t.transform).bytes ++ [BitVec.ofNat 8 (plainWidth m), BitVec.ofNat 8 (cipherWidth m)] ++ le8 m ++ le8 n

/-- The 12 header bytes of the one-time pad (rule R66). -/
def padHeader (cfg : Params) (n : Nat) : List Byte := (cfg.tag .otp).bytes ++ le8 n

/-- `s[i:j]` of 00_scope.md rule R10. -/
def slice (s : List Byte) (i j : Nat) : List Byte := (s.take j).drop i

/-- The block value of a chunk of data bytes: padded with zeros to `pw` bytes, read big-endian (rule R101). -/
def chunkValue (pw : Nat) (chunk : List Byte) : Nat := beDec (chunk ++ zeros (pw - chunk.length))

/-- RSA, forward (rule R116). -/
def forwardRsa (o : Operands) (m : Nat) : Except Cause (List Byte) := do
  let e ← modpow m o.uB o.uM
  return beEnc e (cipherWidth o.uM)

/-- RSA, inverse (rule R116). -/
def inverseRsa (o : Operands) (blk : List Byte) : Except Cause Nat :=
  modpow (beDec blk) o.uB o.uM

/-- ElGamal, forward, for the `k` that `RandRange2(M)` drew (rule R117). -/
def forwardElg (o : Operands) (m k : Nat) : Except Cause (List Byte) := do
  let r ← modpow o.uA k o.uM
  let dk ← modpow o.uB k o.uM
  return le8 r ++ beEnc (mulmod (m % o.uM) dk o.uM) (cipherWidth o.uM)

/-- ElGamal, inverse (rule R118). -/
def inverseElg (o : Operands) (blk : List Byte) : Except Cause Nat := do
  let s ← modpow (leDec (slice blk 0 8)) o.uB o.uM
  let sinv ← modinv s o.uM
  return mulmod (beDec (slice blk 8 (8 + cipherWidth o.uM))) sinv o.uM

/-- Three-pass, forward: three exponentiations in this order (rule R119). -/
def forwardTp (o : Operands) (m : Nat) : Except Cause (List Byte) := do
  let x1 ← modpow m o.uB o.uM
  let x2 ← modpow x1 o.uE1 o.uM
  let e ← modpow x2 o.uE2 o.uM
  return beEnc e (cipherWidth o.uM)

/-- Three-pass, inverse: one exponentiation (rule R120). -/
def inverseTp (o : Operands) (blk : List Byte) : Except Cause Nat :=
  modpow (beDec blk) o.uB o.uM

/-- `inverse[T](blk)` (rule R115). -/
def inverse : BlockTransform → Operands → List Byte → Except Cause Nat
  | .rsa => inverseRsa
  | .elg => inverseElg
  | .tp => inverseTp

end Sys2Proof.Machine
end

