-- ==== Sys2Proof/Machine/Flags.lean ====
section
/-! DEFINITION. The only flag-like state, `STATUS` and `ERRCODE` (10_state.md rules R24, R25, R28): their words, what
sets and clears each bit, and the numbers of the error classes and causes (60_exceptions.md rules R130, R131). -/

namespace Sys2Proof.Machine

/-- The class of a cause: 1 invalid argument, 2 resource/format (rules R130, R131). Classes 3 and 4 have no cause
(rule R133). -/
def Cause.classNo : Cause → Nat
  | .illegalCommand => 1
  | .modulusZero => 1
  | .egcdRange => 1
  | .egcdOrder => 1
  | .notCoprime => 1
  | .keyShort => 1
  | .paramRange => 1
  | .badTag => 2
  | .modulusMismatch => 2
  | .truncated => 2
  | .badWidth => 2
  | .blockRange => 2
  | .containerShort => 2

/-- The cause code of rule R131. -/
def Cause.code : Cause → Nat
  | .illegalCommand => 0x01
  | .modulusZero => 0x02
  | .egcdRange => 0x03
  | .egcdOrder => 0x04
  | .notCoprime => 0x05
  | .keyShort => 0x06
  | .paramRange => 0x07
  | .badTag => 0x10
  | .modulusMismatch => 0x11
  | .truncated => 0x12
  | .badWidth => 0x13
  | .blockRange => 0x14
  | .containerShort => 0x15

/-- `ERRCODE` as a word: 0 for no error, else `class * 256 + cause` (rules R25, R136). -/
def errcodeWord : Option Cause → Word
  | none => 0
  | some c => toWord (c.classNo * 256 + c.code)

/-- `STATUS` as a word: `BUSY` bit 0, `DONE` bit 1, `ERR` bit 2, `OVR` bit 3, the rest 0 (rule R24). -/
def Status.word (s : Status) : Word :=
  toWord (s.busy.toNat + 2 * s.done.toNat + 4 * s.err.toNat + 8 * s.ovr.toNat)

/-- `STATUS` at accept (rule R31): `OVR` is unchanged. -/
def Status.accepted (s : Status) : Status := { s with busy := true, done := false, err := false }

/-- `STATUS` at completion without error (rule R32). -/
def Status.completed (s : Status) : Status := { s with busy := false, done := true, err := false }

/-- `STATUS` at completion with error (rule R136). -/
def Status.failed (s : Status) : Status := { s with busy := false, done := true, err := true }

/-- `STATUS` after a `CMD` write while busy (rules R26, R143). -/
def Status.overrun (s : Status) : Status := { s with ovr := true }

/-- `STATUS` after a host write of `v` to it: 1 in bit 1 clears `DONE`, 1 in bit 3 clears `OVR`, every other bit is
ignored (rule R24). -/
def Status.hostWrite (s : Status) (v : Word) : Status :=
  { s with done := s.done && !v.getLsbD 1, ovr := s.ovr && !v.getLsbD 3 }

/-- `CTRL` as a word: `IE` in bit 0, the rest 0 (rule R23). -/
def ctrlWord (ie : Bool) : Word := toWord ie.toNat

/-- The interrupt output `irq = CTRL.IE and STATUS.DONE` (rules R35, R134). -/
def State.irq (s : State) : Bool := s.ctrlIE && s.status.done

end Sys2Proof.Machine
end

