-- ==== Sys2Proof/Machine/Primality.lean ====
section
/-! DEFINITION. The pieces of the primality test (41_primality.md rules R89 to R93): the small-prime table, the
decomposition of `n - 1`, one witness round, and the draw of a value in `[2, n - 2]`. -/

namespace Sys2Proof.Machine

/-- No `d' ≥ d` with `d' * d' ≤ c` divides `c`; the first argument bounds the search, and `c` of it is enough. -/
def noDivisorFrom : Nat → Nat → Nat → Bool
  | 0, _, _ => true
  | fuel + 1, d, c =>
    if c < d * d then true
    else if c % d = 0 then false
    else noDivisorFrom fuel (d + 1) c

/-- The first `need` primes at or above `c`, ascending, among the next `fuel` numbers. -/
def primesFrom : Nat → Nat → Nat → List Nat
  | 0, _, _ => []
  | _ + 1, 0, _ => []
  | fuel + 1, need + 1, c =>
    if noDivisorFrom c 2 c then c :: primesFrom fuel need (c + 1)
    else primesFrom fuel (need + 1) (c + 1)

/-- `SMALL_PRIMES` of rule R89: the first `nsp` primes in ascending order. The search ends before `2 ^ nsp`, below
which there are `nsp` primes (Bertrand; notes/assumptions/6.md). -/
def smallPrimes (nsp : Nat) : List Nat := primesFrom (2 ^ nsp) nsp 2

/-- Step 1 of rule R94: what the table decides about `n`, in ascending order: membership accepts, divisibility
rejects. -/
def tableVerdict (n : Nat) : List Nat → Option Bool
  | [] => none
  | p :: table =>
    if n = p then some true
    else if n % p = 0 then some false
    else tableVerdict n table

/-- Halve `d` while it is even, counting in `s`; the first argument bounds the number of halvings. -/
def halve : Nat → Nat → Nat → Nat × Nat
  | 0, d, s => (d, s)
  | fuel + 1, d, s => if d % 2 = 0 then halve fuel (d / 2) (s + 1) else (d, s)

/-- `(d, s)` with `n - 1 = d * 2^s` and `d` odd (rule R90). -/
def decompose (n : Nat) : Nat × Nat := halve (bitlength (n - 1)) (n - 1) 0

/-- The squaring loop of rule R91, run at most the given number of times. -/
def squaringRounds (n : Nat) : Nat → Nat → Bool
  | 0, _ => true
  | k + 1, x =>
    let x' := mulmod x x n
    if x' = n - 1 then false
    else if x' = 1 then true
    else squaringRounds n k x'

/-- `proves_composite(a, n, d, s)` of rule R91. -/
def provesComposite (a n d s : Nat) : Bool :=
  let x := powMod a d n
  if x = 1 ∨ x = n - 1 then false else squaringRounds n (s - 1) x

/-- One witness round on `n`, with the decomposition of rule R90. -/
def witnessProves (n a : Nat) : Bool :=
  let ds := decompose n
  provesComposite a n ds.1 ds.2

/-- `RandRange2(n)` of rule R92 on the words now offered: the value drawn, or none when every offered word was
consumed and rejected, and the words left on the port. -/
def randRange2 (n : Nat) : List Word → Option Nat × List Word
  | [] => (none, [])
  | w :: ws =>
    let t := w.toNat % 2 ^ bitlength (n - 3 - 1)
    if t < n - 3 then (some (2 + t), ws) else randRange2 n ws

end Sys2Proof.Machine
end

