-- ==== Sys2Proof/Machine/Ops.lean ====
section
/-! DEFINITION. The named operations: the register port (20_memory.md rules R40, R53), accept, completion, and the
error completion that is the engine's taking of an exception (10_state.md rules R31, R32; 60_exceptions.md rule R136),
reset (rule R36), the port primitives (00_scope.md rule R12), and the running of a command through its port
operations. -/

namespace Sys2Proof.Machine

/-! ### Registers -/

/-- The word a register reads as (rules R20 to R27). -/
def State.reg (s : State) : Reg → Word
  | .ctrl => ctrlWord s.ctrlIE
  | .status => s.status.word
  | .errcode => errcodeWord s.errcode
  | .cmd => s.cmd
  | .a => s.ops.a
  | .b => s.ops.b
  | .m => s.ops.m
  | .e1 => s.ops.e1
  | .e2 => s.ops.e2
  | .len => s.ops.len
  | .klen => s.ops.klen
  | .r0 => s.r0
  | .r1 => s.r1
  | .r2 => s.r2

/-- `RegRead(i)` (rule R40): reserved indices read 0 (rule R27). -/
def State.regRead (s : State) (i : Nat) : Word :=
  match Reg.ofIndex i with
  | some r => s.reg r
  | none => 0

/-- Accept of the command word `w`, one event (rule R31). -/
def State.accept (s : State) (w : Word) : State :=
  { s with
    cmd := w
    ctx := some { cmd := w, ops := s.ops, pos := .start }
    status := s.status.accepted
    errcode := none }

/-- A host write of `w` to `CMD` (rule R26): dropped with `OVR` while busy, accepted otherwise. -/
def State.writeCmd (s : State) (w : Word) : State :=
  if s.status.busy then { s with status := s.status.overrun } else s.accept w

/-- `RegWrite(i, v)` (rules R40, R53): a control or operand register stores, `STATUS` is write-1-to-clear, `CMD`
accepts; read-only registers and reserved indices ignore the write. -/
def State.regWrite (s : State) (i : Nat) (v : Word) : State :=
  match Reg.ofIndex i with
  | some .ctrl => { s with ctrlIE := v.getLsbD 0 }
  | some .status => { s with status := s.status.hostWrite v }
  | some .errcode => s
  | some .cmd => s.writeCmd v
  | some .a => { s with ops := { s.ops with a := v } }
  | some .b => { s with ops := { s.ops with b := v } }
  | some .m => { s with ops := { s.ops with m := v } }
  | some .e1 => { s with ops := { s.ops with e1 := v } }
  | some .e2 => { s with ops := { s.ops with e2 := v } }
  | some .len => { s with ops := { s.ops with len := v } }
  | some .klen => { s with ops := { s.ops with klen := v } }
  | some .r0 => s
  | some .r1 => s
  | some .r2 => s
  | none => s

/-! ### Completion, error completion, reset -/

/-- Completion without error, one event (rule R32). -/
def State.complete (s : State) (r0 r1 r2 : Word) : State :=
  { s with
    r0 := r0
    r1 := r1
    r2 := r2
    errcode := none
    status := s.status.completed
    ctx := none }

/-- Completion with error, the engine's taking of an exception, one event (rule R136): the cause is recorded, the
results are kept. There is no return: the engine is idle and accepts the next command (rule R137). -/
def State.raise (s : State) (c : Cause) : State :=
  { s with
    errcode := some c
    status := s.status.failed
    ctx := none }

/-- Reset (rules R36, R150, R151): every register 0, the running command gone; the ports, which belong to the
environment, untouched. -/
def State.resetEngine (s : State) : State :=
  { s with
    ctrlIE := false
    status := .zero
    errcode := none
    cmd := 0
    ops := .zero
    r0 := 0
    r1 := 0
    r2 := 0
    ctx := none }

/-! ### Port primitives -/

/-- `SinRead(n)` (rule R43) when `got` has already been taken: the bytes taken in all, `n` of them unless the host has
offered too few, and the ports after it. -/
def Ports.sinRead (q : Ports) (n : Nat) (got : List Byte) : List Byte × Ports :=
  (got ++ q.sin.take (n - got.length), { q with sin := q.sin.drop (n - got.length) })

/-- `SoutWrite` (rule R45) of the bytes still pending: those the consumer does not yet accept, and the ports after
it. -/
def Ports.soutWrite (q : Ports) (pending : List Byte) : List Byte × Ports :=
  (pending.drop q.room,
   { q with sout := q.sout ++ pending.take q.room, room := q.room - pending.length })

/-- `RandRange2(n)` on the port `RND` (41_primality.md rule R92; 20_memory.md rule R47). -/
def Ports.randRange2 (q : Ports) (n : Nat) : Option Nat × Ports :=
  ((Machine.randRange2 n q.rnd).1, { q with rnd := (Machine.randRange2 n q.rnd).2 })

/-! ### Running a command -/

/-- How a command ends (rules R32, R136). -/
inductive Ending where
  /-- With the results `R0`, `R1`, `R2`. -/
  | success (r0 r1 r2 : Word)
  /-- With `raise c`. -/
  | failure (c : Cause)
  deriving DecidableEq, Repr

/-- What one port operation of a command, with the pseudocode up to the next one, leads to. -/
inductive Progress where
  /-- The operation finished: the command stands at the next one. -/
  | goes (p : Pos) (q : Ports)
  /-- The environment has not supplied or accepted enough: the command stays at this operation. -/
  | waits (p : Pos) (q : Ports)
  /-- The command ends. -/
  | ends (e : Ending) (q : Ports)
  /-- The position is not one of this command's. -/
  | lost
  deriving DecidableEq, Repr

/-- Go through the port operations one after another, in order (rule R46), until the command ends or waits. -/
def drive (line : Pos → Ports → Progress) : Nat → Pos → Ports → Progress
  | 0, p, q => .waits p q
  | turns + 1, p, q =>
    match line p q with
    | .goes p' q' => drive line turns p' q'
    | r => r

/-- Enough turns for any command: each loop of a command takes a byte of `SIN` or a word of `RND` and has at most
three port operations (notes/assumptions/21.md). -/
def Ports.turns (q : Ports) : Nat := 3 * q.sin.length + q.rnd.length + 8

/-- The state after a running command went as far as it could. -/
def State.settle (s : State) (c : Ctx) : Progress → Host.Outcome State Fault Refusal
  | .goes p q => .next { s with ctx := some { c with pos := p }, ports := q }
  | .waits p q => .next { s with ctx := some { c with pos := p }, ports := q }
  | .ends (.success r0 r1 r2) q => .next ({ s with ports := q }.complete r0 r1 r2)
  | .ends (.failure e) q => .next ({ s with ports := q }.raise e)
  | .lost => .fault .lostPosition

/-- Run the accepted command from where it stands until it completes or waits on a port (rule R30): `line` is what one
port operation of the command does, given the parameters and the latched operands. -/
def runCommand (line : Params → Operands → Pos → Ports → Progress) (s : State) :
    Host.Outcome State Fault Refusal :=
  match s.ctx with
  | none => .fault .noCommand
  | some c => s.settle c (drive (line s.cfg c.ops) s.ports.turns c.pos s.ports)

end Sys2Proof.Machine
end

