-- ==== Sys2Proof/Machine/Decoding.lean ====
section
/-! DEFINITION. The command `DECODE` in block mode, for the RSA, ElGamal and three-pass transforms
(42_codec_framing.md rule R106). -/

namespace Sys2Proof.Machine

/-- The head of the loop of rule R106: the end when the container is consumed, else the next block. -/
def decodeLoop (v : DecLocals) (q : Ports) : Progress :=
  if v.left = 0 then
    if 0 < v.remaining then .ends (.failure .containerShort) q
    else .ends (.success (toWord v.out) (toWord v.blocks) (toWord v.orig)) q
  else .goes (.decIn [] v) q

/-- The checks of the header, in their order, and the start of the loop (rule R106). -/
def decodeHeader (t : BlockTransform) (cfg : Params) (o : Operands) (h : List Byte) (q : Ports) : Progress :=
  if slice h 0 4 ≠ (cfg.tag t.transform).bytes then .ends (.failure .badTag) q
  else if leDec (slice h 6 14) ≠ o.uM then .ends (.failure .modulusMismatch) q
  else if beDec (slice h 4 5) ≠ plainWidth o.uM ∨ beDec (slice h 5 6) ≠ cipherWidth o.uM then
    .ends (.failure .badWidth) q
  else
    let orig := leDec (slice h 14 22)
    decodeLoop ⟨o.uLen - hdrBlock, orig, 0, 0, orig⟩ q

/-- A whole block read: recover `m`, check its range, and write as many of its bytes as are owed (rules R103, R106). -/
def decodeBlock (t : BlockTransform) (o : Operands) (blk : List Byte) (v : DecLocals) (q : Ports) : Progress :=
  match inverse t o blk with
  | .error c => .ends (.failure c) q
  | .ok m =>
    let pw := plainWidth o.uM
    if 256 ^ pw ≤ m then .ends (.failure .blockRange) q
    else
      let w := min pw v.remaining
      .goes (.decOut ((beEnc m pw).take w)
        { v with
          left := v.left - blockSize t o.uM
          remaining := v.remaining - w
          blocks := v.blocks + 1
          out := v.out + w }) q

/-- One port operation of `DECODE` (rule R106). -/
def decodeLine (t : BlockTransform) (cfg : Params) (o : Operands) : Pos → Ports → Progress
  | .start, q =>
    if o.uM = 0 then .ends (.failure .modulusZero) q else .goes (.decHead []) q
  | .decHead got, q =>
    let need := min o.uLen hdrBlock
    let r := q.sinRead need got
    if r.1.length < need then .waits (.decHead r.1) r.2
    else if o.uLen < hdrBlock then .ends (.failure .truncated) r.2
    else decodeHeader t cfg o r.1 r.2
  | .decIn got v, q =>
    let need := min v.left (blockSize t o.uM)
    let r := q.sinRead need got
    if r.1.length < need then .waits (.decIn r.1 v) r.2
    else if v.left < blockSize t o.uM then .ends (.failure .truncated) r.2
    else decodeBlock t o r.1 v r.2
  | .decOut pending v, q =>
    match q.soutWrite pending with
    | ([], q') => decodeLoop v q'
    | (pending', q') => .waits (.decOut pending' v) q'
  | _, _ => .lost

/-- `DECODE.RSA` (rules R106, R116). -/
def execDecodeRsa (s : State) : Host.Outcome State Fault Refusal := runCommand (decodeLine .rsa) s

/-- `DECODE.ELG` (rules R106, R118). -/
def execDecodeElg (s : State) : Host.Outcome State Fault Refusal := runCommand (decodeLine .elg) s

/-- `DECODE.TP` (rules R106, R120). -/
def execDecodeTp (s : State) : Host.Outcome State Fault Refusal := runCommand (decodeLine .tp) s

end Sys2Proof.Machine
end

