-- ==== Sys2Proof/Machine/Encoding.lean ====
section
/-! DEFINITION. The command `ENCODE` in block mode, for the RSA, ElGamal and three-pass transforms
(42_codec_framing.md rule R105). -/

namespace Sys2Proof.Machine

/-- The head of the loop of rule R105: the end when no plaintext is left, else the next chunk. -/
def encodeLoop (t : BlockTransform) (o : Operands) (v : EncLocals) (q : Ports) : Progress :=
  if v.remaining = 0 then
    .ends (.success (toWord (hdrBlock + v.blocks * blockSize t o.uM)) (toWord v.blocks) (toWord o.uLen)) q
  else .goes (.encIn [] v) q

/-- A block ready for `SOUT`: the locals step on past its chunk. -/
def encodeBlock (o : Operands) (v : EncLocals) (q : Ports) (blk : Except Cause (List Byte)) : Progress :=
  match blk with
  | .ok b =>
    .goes (.encOut b ⟨v.remaining - min (plainWidth o.uM) v.remaining, v.blocks + 1⟩) q
  | .error c => .ends (.failure c) q

/-- A block value read: transformed at once, or, for ElGamal, once `k` is drawn (43_codec_transforms.md rules R116,
R117, R119). -/
def encodeChunk (t : BlockTransform) (o : Operands) (m : Nat) (v : EncLocals) (q : Ports) : Progress :=
  match t with
  | .rsa => encodeBlock o v q (forwardRsa o m)
  | .elg => .goes (.encDraw m v) q
  | .tp => encodeBlock o v q (forwardTp o m)

/-- ElGamal's draw of a fresh `k` for the block value `m`, then the transform (rule R117). -/
def encodeDraw (o : Operands) (m : Nat) (v : EncLocals) (q : Ports) : Progress :=
  match q.randRange2 o.uM with
  | (none, q') => .waits (.encDraw m v) q'
  | (some k, q') => encodeBlock o v q' (forwardElg o m k)

/-- One port operation of `ENCODE` (rule R105). -/
def encodeLine (t : BlockTransform) (cfg : Params) (o : Operands) : Pos → Ports → Progress
  | .start, q =>
    if o.uM = 0 then .ends (.failure .modulusZero) q
    else if t = .elg ∧ o.uM < 4 then .ends (.failure .paramRange) q
    else .goes (.encOut (blockHeader cfg t o.uM o.uLen) ⟨o.uLen, 0⟩) q
  | .encOut pending v, q =>
    match q.soutWrite pending with
    | ([], q') => encodeLoop t o v q'
    | (pending', q') => .waits (.encOut pending' v) q'
  | .encIn got v, q =>
    let w := min (plainWidth o.uM) v.remaining
    let r := q.sinRead w got
    if r.1.length < w then .waits (.encIn r.1 v) r.2
    else encodeChunk t o (chunkValue (plainWidth o.uM) r.1) v r.2
  | .encDraw m v, q => if t = .elg then encodeDraw o m v q else .lost
  | _, _ => .lost

/-- `ENCODE.RSA` (rules R105, R116). -/
def execEncodeRsa (s : State) : Host.Outcome State Fault Refusal := runCommand (encodeLine .rsa) s

/-- `ENCODE.ELG` (rules R105, R117). -/
def execEncodeElg (s : State) : Host.Outcome State Fault Refusal := runCommand (encodeLine .elg) s

/-- `ENCODE.TP` (rules R105, R119). -/
def execEncodeTp (s : State) : Host.Outcome State Fault Refusal := runCommand (encodeLine .tp) s

end Sys2Proof.Machine
end

