-- ==== Sys2Proof/Machine/Modular.lean ====
section
/-! DEFINITION. The commands of the numeric kernel: `MODEXP`, `EGCD`, `MODINV` (40_kernel.md rules R73, R77, R80).
They touch no port: each ends at its first line. -/

namespace Sys2Proof.Machine

/-- The end of a command from the results or the error its pseudocode gives. -/
def endWith (r : Except Cause (Word × Word × Word)) (q : Ports) : Progress :=
  match r with
  | .ok (r0, r1, r2) => .ends (.success r0 r1 r2) q
  | .error c => .ends (.failure c) q

/-- A command whose whole pseudocode touches no port. -/
def portless (f : Operands → Except Cause (Word × Word × Word)) (_ : Params) (o : Operands) :
    Pos → Ports → Progress
  | .start, q => endWith (f o) q
  | _, _ => .lost

/-- The pseudocode of `MODEXP` (rule R73). -/
def modexpResult (signed : Bool) (o : Operands) : Except Cause (Word × Word × Word) := do
  let r ← modpow (o.base signed) o.uB o.uM
  return (toWord r, 0, 0)

/-- The pseudocode of `EGCD` (rule R77). -/
def egcdResult (legacy : Bool) (o : Operands) : Except Cause (Word × Word × Word) :=
  if o.uA = 0 then .error .egcdRange
  else if !legacy ∧ o.uB = 0 then .error .egcdRange
  else if legacy ∧ o.uA < o.uB then .error .egcdOrder
  else
    let g := egcd o.uA o.uB
    .ok (toWord g.1, tc64 g.2.1, tc64 g.2.2)

/-- The pseudocode of `MODINV` (rule R80). -/
def modinvResult (o : Operands) : Except Cause (Word × Word × Word) := do
  let r ← modinv o.uA o.uM
  return (toWord r, 0, 0)

/-- `MODEXP` (rule R73). -/
def execModexp (signed : Bool) (s : State) : Host.Outcome State Fault Refusal :=
  runCommand (portless (modexpResult signed)) s

/-- `EGCD` (rules R76, R77). -/
def execEgcd (legacy : Bool) (s : State) : Host.Outcome State Fault Refusal :=
  runCommand (portless (egcdResult legacy)) s

/-- `MODINV` (rule R80). -/
def execModinv (s : State) : Host.Outcome State Fault Refusal :=
  runCommand (portless modinvResult) s

end Sys2Proof.Machine
end

