-- ==== Sys2Proof/Machine/OneTimePad.lean ====
section
/-! DEFINITION. The one-time pad: `ENCODE.OTP` and `DECODE.OTP` (42_codec_framing.md rules R107 to R109). The
registers `M`, `A`, `B`, `E1`, `E2` are ignored. -/

namespace Sys2Proof.Machine

/-- The head of the loop of rule R108. -/
def padLoop (o : Operands) (left : Nat) (q : Ports) : Progress :=
  if left = 0 then .ends (.success (toWord (hdrOtp + o.uLen)) (toWord o.uLen) (toWord o.uLen)) q
  else .goes (.padIn left) q

/-- One port operation of `ENCODE.OTP` (rule R108): plaintext byte, key byte, output byte. -/
def padLine (cfg : Params) (o : Operands) : Pos → Ports → Progress
  | .start, q =>
    if o.uKlen < o.uLen then .ends (.failure .keyShort) q
    else .goes (.padOut (padHeader cfg o.uLen) o.uLen) q
  | .padIn left, q =>
    match q.sin with
    | [] => .waits (.padIn left) q
    | p :: sin => .goes (.padKey p left) { q with sin := sin }
  | .padKey p left, q =>
    match q.kin with
    | [] => .waits (.padKey p left) q
    | k :: kin => .goes (.padOut [p ^^^ k] (left - 1)) { q with kin := kin }
  | .padOut pending left, q =>
    match q.soutWrite pending with
    | ([], q') => padLoop o left q'
    | (pending', q') => .waits (.padOut pending' left) q'
  | _, _ => .lost

/-- The head of the loop of rule R109. -/
def unpadLoop (o : Operands) (v : DecLocals) (q : Ports) : Progress :=
  if v.left = 0 then
    if 0 < v.remaining then .ends (.failure .containerShort) q
    else .ends (.success (toWord v.out) (toWord (o.uLen - hdrOtp)) (toWord v.orig)) q
  else .goes (.unpadIn v) q

/-- The checks of the one-time pad's header, in their order, and the start of the loop (rule R109). -/
def unpadHeader (cfg : Params) (o : Operands) (h : List Byte) (q : Ports) : Progress :=
  if slice h 0 4 ≠ (cfg.tag .otp).bytes then .ends (.failure .badTag) q
  else
    let orig := leDec (slice h 4 12)
    if o.uKlen < orig then .ends (.failure .keyShort) q
    else unpadLoop o ⟨o.uLen - hdrOtp, orig, 0, 0, orig⟩ q

/-- One port operation of `DECODE.OTP` (rule R109). A payload byte beyond the original length takes no key byte. -/
def unpadLine (cfg : Params) (o : Operands) : Pos → Ports → Progress
  | .start, q => .goes (.unpadHead []) q
  | .unpadHead got, q =>
    let need := min o.uLen hdrOtp
    let r := q.sinRead need got
    if r.1.length < need then .waits (.unpadHead r.1) r.2
    else if o.uLen < hdrOtp then .ends (.failure .truncated) r.2
    else unpadHeader cfg o r.1 r.2
  | .unpadIn v, q =>
    match q.sin with
    | [] => .waits (.unpadIn v) q
    | c :: sin =>
      if 0 < v.remaining then .goes (.unpadKey c { v with left := v.left - 1 }) { q with sin := sin }
      else unpadLoop o { v with left := v.left - 1 } { q with sin := sin }
  | .unpadKey c v, q =>
    match q.kin with
    | [] => .waits (.unpadKey c v) q
    | k :: kin =>
      .goes (.unpadOut [c ^^^ k] { v with remaining := v.remaining - 1, out := v.out + 1 })
        { q with kin := kin }
  | .unpadOut pending v, q =>
    match q.soutWrite pending with
    | ([], q') => unpadLoop o v q'
    | (pending', q') => .waits (.unpadOut pending' v) q'
  | _, _ => .lost

/-- `ENCODE.OTP` (rule R108). -/
def execEncodeOtp (s : State) : Host.Outcome State Fault Refusal := runCommand padLine s

/-- `DECODE.OTP` (rule R109). -/
def execDecodeOtp (s : State) : Host.Outcome State Fault Refusal := runCommand unpadLine s

end Sys2Proof.Machine
end

