-- ==== Sys2Proof/Machine/Primetest.lean ====
section
/-! DEFINITION. The command `PRIMETEST` (41_primality.md rule R94). Its one port is `RND`, on the random path only. -/

namespace Sys2Proof.Machine

/-- Completion with a verdict: `R0` is 1 for probably prime, 0 for composite or below 2. -/
def verdict (prime : Bool) (q : Ports) : Progress :=
  .ends (.success (if prime then 1 else 0) 0 0) q

/-- The deterministic path: every witness of the set, in order, until one proves compositeness. -/
def deterministicVerdict (cfg : Params) (n : Nat) : Bool := !(cfg.detWitnesses.any (witnessProves n))

/-- `PRIMETEST` up to its first draw: step 1 decides, or the path is chosen by the sign of `rounds`. -/
def primetestStart (cfg : Params) (o : Operands) (q : Ports) : Progress :=
  if o.uA < 2 then verdict false q
  else match tableVerdict o.uA (smallPrimes cfg.nsp) with
    | some b => verdict b q
    | none =>
      if 0 < o.rounds then .goes (.primeDraw o.rounds.toNat) q
      else verdict (deterministicVerdict cfg o.uA) q

/-- One port operation of `PRIMETEST`: a draw and the witness round that uses it. -/
def primetestLine (cfg : Params) (o : Operands) : Pos → Ports → Progress
  | .start, q => primetestStart cfg o q
  | .primeDraw 0, q => verdict true q
  | .primeDraw (rounds + 1), q =>
    match q.randRange2 o.uA with
    | (none, q') => .waits (.primeDraw (rounds + 1)) q'
    | (some a, q') => if witnessProves o.uA a then verdict false q' else .goes (.primeDraw rounds) q'
  | _, _ => .lost

/-- `PRIMETEST` (rule R94). -/
def execPrimetest (s : State) : Host.Outcome State Fault Refusal :=
  runCommand primetestLine s

end Sys2Proof.Machine
end

