-- ==== Sys2Proof/Machine/Dispatch.lean ====
section
/-! DEFINITION. The meaning of every command, one arm per constructor. -/

namespace Sys2Proof.Machine

/-- What a running command does: it goes from where it stands until it completes or waits on a port. -/
def exec (i : Instr) (s : State) : Host.Outcome State Fault Refusal :=
  match i with
  | .modexp signed => Sys2Proof.Machine.execModexp signed s
  | .egcd legacy => Sys2Proof.Machine.execEgcd legacy s
  | .modinv => Sys2Proof.Machine.execModinv s
  | .primetest => Sys2Proof.Machine.execPrimetest s
  | .encodeRsa => Sys2Proof.Machine.execEncodeRsa s
  | .encodeElg => Sys2Proof.Machine.execEncodeElg s
  | .encodeTp => Sys2Proof.Machine.execEncodeTp s
  | .encodeOtp => Sys2Proof.Machine.execEncodeOtp s
  | .decodeRsa => Sys2Proof.Machine.execDecodeRsa s
  | .decodeElg => Sys2Proof.Machine.execDecodeElg s
  | .decodeTp => Sys2Proof.Machine.execDecodeTp s
  | .decodeOtp => Sys2Proof.Machine.execDecodeOtp s

end Sys2Proof.Machine
end

