-- ==== Sys2Proof/Machine/Turns.lean ====
section
/-! DEFINITION. What each agent's move does (00_scope.md rule R15): the engine's turn, and the events of the host, the
random source and reset. -/

namespace Sys2Proof.Machine

/-- The engine's turn. Idle, it does nothing (60_exceptions.md rule R142). Busy, it fetches the accepted word from
`ctx.cmd` and decodes it; an illegal word completes at once with `IllegalCommand` (30_encoding.md rule R63), a command
runs. -/
def engineTurn (s : State) : Host.Outcome State Fault Refusal :=
  if s.status.busy then
    match s.ctx with
    | none => .fault .noCommand
    | some c =>
      match decode c.cmd with
      | .ok i => exec i s
      | .error _ => .next (s.raise .illegalCommand)
  else .next s

/-- What an event does once it is off the agenda; `waitDone` is put back by `State.turn` while `DONE` is 0. -/
def State.perform (s : State) : Event → Host.Outcome State Fault Refusal
  | .regRead i => .next { s with readData := s.readData ++ [s.regRead i] }
  | .regWrite i v => .next (s.regWrite i v)
  | .partAccess _ _ => .refused .notAPortOperation
  | .offerSin bs => .next { s with ports := { s.ports with sin := s.ports.sin ++ bs } }
  | .offerKin bs => .next { s with ports := { s.ports with kin := s.ports.kin ++ bs } }
  | .withdrawSin => .next { s with ports := { s.ports with sin := [] } }
  | .withdrawKin => .next { s with ports := { s.ports with kin := [] } }
  | .acceptSout n => .next { s with ports := { s.ports with room := s.ports.room + n } }
  | .offerRnd ws => .next { s with ports := { s.ports with rnd := s.ports.rnd ++ ws } }
  | .engine => engineTurn s
  | .waitDone => .next s
  | .reset => .next s.resetEngine

/-- The next move: the agenda's first event, or the engine's turn when the agenda is empty. `waitDone` stays on the
agenda, the engine moving, until `DONE = 1` (30_encoding.md rule R70). -/
def State.turn (s : State) : Host.Outcome State Fault Refusal :=
  match s.agenda with
  | [] => engineTurn s
  | .waitDone :: rest => if s.status.done then .next { s with agenda := rest } else engineTurn s
  | e :: rest => { s with agenda := rest }.perform e

end Sys2Proof.Machine
end

