-- ==== Sys2Proof/Machine/Step.lean ====
section
/-! DEFINITION. One step of the machine: the next move of the agent whose turn it is. -/

namespace Sys2Proof.Machine

/-- One step (Turns.lean). -/
def step (s : State) : Host.Outcome State Fault Refusal := s.turn

/-- `s` with the command word that an opcode-table word stands for accepted and the engine's turn next. The engine
fetches from `ctx.cmd`, which the accept event fills (10_state.md rule R31), so this stands for the host's write to
`CMD` (notes/assumptions/2.md). A word that is no single command word changes nothing. -/
def State.withFetchWord (s : State) (nbits w : Nat) : State :=
  match tableWord nbits w with
  | some x => { s.accept x with agenda := .engine :: s.agenda }
  | none => s

end Sys2Proof.Machine
end

