-- ==== Sys2Proof/Machine/Script.lean ====
section
/-! DEFINITION. The host-script notation of 30_encoding.md rule R70: what each line makes the environment do. The
engine moves as far as it can after each line (notes/assumptions/19.md). -/

namespace Sys2Proof.Machine

/-- A line of a host script. -/
inductive Script.Line where
  /-- `WR <reg>, <value>`. -/
  | wr (r : Reg) (v : Word)
  /-- `RD <reg>`. -/
  | rd (r : Reg)
  /-- `CMD <word>`. -/
  | cmd (w : Word)
  /-- `PUSH SIN, <bytes>`. -/
  | pushSin (bs : List Byte)
  /-- `PUSH KIN, <bytes>`. -/
  | pushKin (bs : List Byte)
  /-- `RND <words>`. -/
  | rnd (ws : List Word)
  /-- `POP SOUT, <n>`. -/
  | pop (n : Nat)
  /-- `WAIT`. -/
  | wait
  /-- `ACK`: `WR STATUS, 0x2`. -/
  | ack
  deriving DecidableEq, Repr

/-- The events a line stands for. -/
def Script.events : Script.Line → List Event
  | .wr r v => [.regWrite r.index v, .engine]
  | .rd r => [.regRead r.index, .engine]
  | .cmd w => [.regWrite Reg.cmd.index w, .engine]
  | .pushSin bs => [.offerSin bs, .engine]
  | .pushKin bs => [.offerKin bs, .engine]
  | .rnd ws => [.offerRnd ws, .engine]
  | .pop n => [.acceptSout n, .engine]
  | .wait => [.waitDone]
  | .ack => [.regWrite Reg.status.index 0x2, .engine]

/-- The agenda of a script: its lines in order (rule R70). -/
def Script.agenda (ls : List Script.Line) : List Event := ls.flatMap Script.events

end Sys2Proof.Machine
end

