-- ==== Sys2Proof/Machine/Run.lean ====
section
/-! DEFINITION. The end of a run (70_reset_and_hazards.md rule R163): which states are final, which are stuck, and where
a host script ends. -/

namespace Sys2Proof.Machine

/-- The host has performed its last action and `STATUS.BUSY = 0` (rule R163). -/
def State.final (s : State) : Bool := s.agenda.isEmpty && !s.status.busy

/-- The state is busy and the next step leaves it as it is: the engine waits on a port, and the host, which has no action
left or waits for `DONE`, never serves it (rules R158, R163; notes/assumptions/26.md). -/
def State.stuck (s : State) : Bool :=
  s.status.busy &&
    match step s with
    | .next t => decide (t = s)
    | .fault _ => false
    | .refused _ => false

/-- How many commands started since the run began still owe their completion event, after a step from `s` to `t`: an
accept (rule R31) adds one, a completion (rules R32, R136) takes one off, and reset, which ends a command without a
completion event (rule R150), takes none off. -/
def owedAfter (owed : Nat) (s t : State) : Nat :=
  if !s.status.busy && t.status.busy then owed + 1
  else if s.status.busy && !t.status.busy && t.status.done then owed - 1
  else owed

/-- Where a run stands. -/
inductive RunEnd where
  /-- The run has ended: the host's actions are done, the engine is idle, every command started has completed. -/
  | final (s : State)
  /-- The host's actions are done and the engine is idle, but reset ended a command without its completion event. -/
  | discarded (s : State)
  /-- Stuck, not final. -/
  | stuck (s : State)
  /-- A step was a fault or a refusal. -/
  | stopped
  /-- None of these yet. -/
  | going (s : State)
  deriving DecidableEq, Repr

/-- Where a run that owes so many completions has come to an end at `s`, if it has. -/
def State.runEnd (s : State) (owed : Nat) : Option RunEnd :=
  if s.final then some (if owed = 0 then .final s else .discarded s)
  else if s.stuck then some (.stuck s)
  else none

/-- A run of at most so many steps, up to its end. -/
def runFrom : Nat → Nat → State → RunEnd
  | 0, owed, s => (s.runEnd owed).getD (.going s)
  | steps + 1, owed, s =>
    match s.runEnd owed with
    | some e => e
    | none =>
      match step s with
      | .next t => runFrom steps (owedAfter owed s t) t
      | .fault _ => .stopped
      | .refused _ => .stopped

/-- A run of a host script (30_encoding.md rule R70) from `s`, in at most so many steps. -/
def runScript (steps : Nat) (script : List Script.Line) (s : State) : RunEnd :=
  runFrom steps 0 { s with agenda := Script.agenda script }

end Sys2Proof.Machine
end

