-- ==== Sys2Proof/WellFormed.lean ====
section
/-! DEFINITION. Which data is well formed. The types leave no ill-formed command: the two free fields of a command
word are one bit each (30_encoding.md rule R60), so every term of `Instr` is a command. What can be ill formed is the
choice of parameters (00_scope.md rule R6), for which each check is a Bool. -/

namespace Sys2Proof

/-- Every command is well formed: its fields are bits (rule R60). -/
def Instr.wf (_ : Instr) : Bool := true

/-- The constraint `NSP >= 12` of 41_primality.md rule R89. -/
def Params.nspOk (p : Params) : Bool := decide (12 ≤ p.nsp)

/-- The four tags are pairwise different (30_encoding.md rule R68). -/
def Params.tagsOk (p : Params) : Bool :=
  decide (p.tagRsa ≠ p.tagElg ∧ p.tagRsa ≠ p.tagTp ∧ p.tagRsa ≠ p.tagOtp ∧
    p.tagElg ≠ p.tagTp ∧ p.tagElg ≠ p.tagOtp ∧ p.tagTp ≠ p.tagOtp)

/-- The least number that reaches the witness rounds: the prime after the table's last (41_primality.md rule R89). -/
def Params.leastReaching (p : Params) : Nat := (Machine.smallPrimes (p.nsp + 1)).getLastD 0

/-- Every deterministic witness is at least 2 and smaller than `n - 1` for every 64-bit `n` that can reach the witness
rounds (41_primality.md rule R93), the least such `n` first; with a table so long that none can, any bound will do. -/
def Params.witnessesOk (p : Params) : Bool :=
  p.detWitnesses.all fun a => decide (2 ≤ a) && (decide (a < p.leastReaching - 1) || decide (2 ^ 64 ≤ p.leastReaching))

/-- The parameters meet the constraints of rule R6 that can be computed; that the witness set is exact for 64-bit
inputs (rule R93) is `Params.Exact`. -/
def Params.wf (p : Params) : Bool := p.nspOk && p.tagsOk && p.witnessesOk

/-- The property that rule R93 demands of the witness set: for every 64-bit `n` that reaches the witness rounds, `n`
is composite exactly when some witness proves it. -/
def Params.Exact (p : Params) : Prop :=
  ∀ n : Nat, 2 ≤ n → n < 2 ^ 64 → Machine.tableVerdict n (Machine.smallPrimes p.nsp) = none →
    (¬ n.Prime ↔ ∃ a ∈ p.detWitnesses, Machine.witnessProves n a = true)

end Sys2Proof
end

