-- ==== Sys2Proof/Safety.lean ====
section
/-! DEFINITION. The terms claims are stated in: the invariant of the machine, which errors a command may raise, what the
environment supplies, and the containers, draws and keys that the codec's claims speak of. -/

namespace Sys2Proof.Machine

/-! ### The invariant -/

/-- The locals of `ENCODE`: what is left is what the blocks done have not covered (42_codec_framing.md rule R105). -/
def encLocalsOk (o : Operands) (v : EncLocals) : Bool :=
  decide (v.remaining = o.uLen - v.blocks * plainWidth o.uM) &&
    decide (v.blocks ≤ ceilDiv o.uLen (plainWidth o.uM))

/-- Where `ENCODE` in block mode may stand. -/
def encodePosOk (t : BlockTransform) (o : Operands) : Pos → Bool
  | .start => true
  | .encIn got v =>
    decide (o.uM ≠ 0) && decide (t = .elg → 4 ≤ o.uM) && encLocalsOk o v && decide (0 < v.remaining) &&
      decide (got.length < min (plainWidth o.uM) v.remaining)
  | .encDraw m v =>
    decide (t = .elg) && decide (4 ≤ o.uM) && encLocalsOk o v && decide (0 < v.remaining) &&
      decide (m < 256 ^ plainWidth o.uM)
  | .encOut _ v => decide (o.uM ≠ 0) && decide (t = .elg → 4 ≤ o.uM) && encLocalsOk o v
  | _ => false

/-- The locals of `DECODE` in block mode: container bytes, and plaintext bytes, add up (rule R106). -/
def decLocalsOk (t : BlockTransform) (o : Operands) (v : DecLocals) : Bool :=
  decide (hdrBlock + v.blocks * blockSize t o.uM + v.left = o.uLen) &&
    decide (v.remaining = v.orig - v.blocks * plainWidth o.uM) &&
    decide (v.out + v.remaining = v.orig) && decide (v.orig < 2 ^ 64)

/-- Where `DECODE` in block mode may stand. -/
def decodePosOk (t : BlockTransform) (o : Operands) : Pos → Bool
  | .start => true
  | .decHead got => decide (o.uM ≠ 0) && decide (got.length ≤ min o.uLen hdrBlock)
  | .decIn got v =>
    decide (o.uM ≠ 0) && decLocalsOk t o v && decide (0 < v.left) &&
      decide (got.length < min v.left (blockSize t o.uM))
  | .decOut _ v => decide (o.uM ≠ 0) && decLocalsOk t o v
  | _ => false

/-- Where `ENCODE.OTP` may stand (rule R108). -/
def padPosOk (o : Operands) : Pos → Bool
  | .start => true
  | .padIn left => decide (o.uLen ≤ o.uKlen) && decide (0 < left) && decide (left ≤ o.uLen)
  | .padKey _ left => decide (o.uLen ≤ o.uKlen) && decide (0 < left) && decide (left ≤ o.uLen)
  | .padOut _ left => decide (o.uLen ≤ o.uKlen) && decide (left ≤ o.uLen)
  | _ => false

/-- The locals of `DECODE.OTP` after `taken` payload bytes (rule R109). -/
def unpadLocalsOk (o : Operands) (v : DecLocals) (taken : Nat) : Bool :=
  decide (hdrOtp + taken + v.left = o.uLen) && decide (v.out = min v.orig taken) &&
    decide (v.out + v.remaining = v.orig) && decide (v.orig ≤ o.uKlen)

/-- Where `DECODE.OTP` may stand. -/
def unpadPosOk (o : Operands) : Pos → Bool
  | .start => true
  | .unpadHead got => decide (got.length ≤ min o.uLen hdrOtp)
  | .unpadIn v => unpadLocalsOk o v (o.uLen - hdrOtp - v.left) && decide (0 < v.left)
  | .unpadKey _ v =>
    decide (0 < v.remaining) && decide (hdrOtp + v.left < o.uLen) &&
      unpadLocalsOk o { v with left := v.left + 1 } (o.uLen - hdrOtp - v.left - 1)
  | .unpadOut _ v => unpadLocalsOk o v (o.uLen - hdrOtp - v.left)
  | _ => false

/-- Where `PRIMETEST` may stand: before its first line, or at a draw that steps 1 and 2 left to the random path
(41_primality.md rule R94). -/
def primetestPosOk (cfg : Params) (o : Operands) : Pos → Bool
  | .start => true
  | .primeDraw r =>
    decide (2 ≤ o.uA) && decide (tableVerdict o.uA (smallPrimes cfg.nsp) = none) && decide (0 < o.rounds) &&
      decide (r ≤ o.rounds.toNat)
  | _ => false

/-- Where a command may stand. The kernel's commands end at their first line. -/
def posOk (cfg : Params) (o : Operands) : Instr → Pos → Bool
  | .modexp _, p => decide (p = .start)
  | .egcd _, p => decide (p = .start)
  | .modinv, p => decide (p = .start)
  | .primetest, p => primetestPosOk cfg o p
  | .encodeRsa, p => encodePosOk .rsa o p
  | .encodeElg, p => encodePosOk .elg o p
  | .encodeTp, p => encodePosOk .tp o p
  | .encodeOtp, p => padPosOk o p
  | .decodeRsa, p => decodePosOk .rsa o p
  | .decodeElg, p => decodePosOk .elg o p
  | .decodeTp, p => decodePosOk .tp o p
  | .decodeOtp, p => unpadPosOk o p

/-- A running command stands where its word's command may stand; an illegal word, before its first line. -/
def Ctx.ok (cfg : Params) (c : Ctx) : Bool :=
  match decode c.cmd with
  | .ok i => posOk cfg c.ops i c.pos
  | .error _ => decide (c.pos = .start)

/-- What holds of `ctx`: there is one exactly while `BUSY` is 1, it is that of the word in `CMD`, and it is in order
(10_state.md rules R26, R30, R31). -/
def State.ctxOk (s : State) : Bool :=
  match s.ctx with
  | none => !s.status.busy
  | some c => s.status.busy && decide (c.cmd = s.cmd) && c.ok s.cfg

/-- The invariant of the machine: `ctx` is in order; `BUSY` and `DONE` are never both 1; `ERR` is 1 exactly when
`ERRCODE` is not 0, and never while a command runs (rule R24). -/
def State.inv (s : State) : Bool :=
  s.ctxOk && !(s.status.busy && s.status.done) && decide (s.status.err = s.errcode.isSome) &&
    !(s.status.busy && s.status.err)

/-! ### Runs and what they are given -/

/-- The machine stands before the first line of a command accepted with the context `c`. -/
def State.AtStart (s : State) (c : Ctx) : Prop := s.ctx = some c ∧ c.pos = .start

/-- The ports once the environment has supplied more: bytes and words behind those offered, more readiness to accept
(20_memory.md rules R43 to R47). What `x` has on `sout` plays no part. -/
def Ports.supply (q x : Ports) : Ports :=
  { q with sin := q.sin ++ x.sin, kin := q.kin ++ x.kin, rnd := q.rnd ++ x.rnd, room := q.room + x.room }

/-- The state once the environment has supplied more. -/
def State.supply (s : State) (x : Ports) : State := { s with ports := s.ports.supply x }

/-- The causes a command may raise (60_exceptions.md rule R131). -/
def mayRaise : Instr → List Cause
  | .modexp _ => [.modulusZero]
  | .egcd false => [.egcdRange]
  | .egcd true => [.egcdRange, .egcdOrder]
  | .modinv => [.modulusZero, .egcdRange, .notCoprime]
  | .primetest => []
  | .encodeRsa => [.modulusZero]
  | .encodeElg => [.modulusZero, .paramRange]
  | .encodeTp => [.modulusZero]
  | .encodeOtp => [.keyShort]
  | .decodeRsa => [.modulusZero, .truncated, .badTag, .modulusMismatch, .badWidth, .blockRange, .containerShort]
  | .decodeElg =>
    [.modulusZero, .truncated, .badTag, .modulusMismatch, .badWidth, .egcdRange, .notCoprime, .blockRange,
      .containerShort]
  | .decodeTp => [.modulusZero, .truncated, .badTag, .modulusMismatch, .badWidth, .blockRange, .containerShort]
  | .decodeOtp => [.keyShort, .badTag, .truncated, .containerShort]

/-- The command uses `SIN` and `SOUT` (10_state.md rule R34). -/
def usesStreams : Instr → Bool
  | .modexp _ => false
  | .egcd _ => false
  | .modinv => false
  | .primetest => false
  | _ => true

/-- The command uses `KIN` (20_memory.md rule R44). -/
def usesKin (i : Instr) : Bool := decide (i = .encodeOtp ∨ i = .decodeOtp)

/-- The command may consume words of `RND` (10_state.md rule R33). -/
def usesRnd (i : Instr) : Bool := decide (i = .primetest ∨ i = .encodeElg)

/-! ### The codec's containers -/

/-- The first `k` chunks of `pw` bytes of a plaintext, in order, the last one short where the plaintext is
(42_codec_framing.md rule R101). -/
def chunksOf (pw : Nat) : Nat → List Byte → List (List Byte)
  | 0, _ => []
  | k + 1, s => s.take pw :: chunksOf pw k (s.drop pw)

/-- The number of blocks of a plaintext of `LEN` bytes (rule R101). -/
def blockCount (o : Operands) : Nat := ceilDiv o.uLen (plainWidth o.uM)

/-- The block values of a plaintext (rule R101). -/
def blockValues (o : Operands) (content : List Byte) : List Nat :=
  (chunksOf (plainWidth o.uM) (blockCount o) content).map (chunkValue (plainWidth o.uM))

/-- `count` draws of `RandRange2(n)` one after another: the values and the words left, none when the words run out. -/
def draws (n : Nat) : Nat → List Word → Option (List Nat × List Word)
  | 0, ws => some ([], ws)
  | count + 1, ws =>
    match randRange2 n ws with
    | (none, _) => none
    | (some a, rest) => (draws n count rest).map fun r => (a :: r.1, r.2)

/-- Key material that makes the inverse transform undo the forward one: `e` are the operands of `ENCODE`, `d` those of
`DECODE` (43_codec_transforms.md rule R121). -/
def KeysMatch : BlockTransform → Operands → Operands → Prop
  | .rsa, e, d =>
    d.uM = e.uM ∧ ∃ p q : Nat, p.Prime ∧ q.Prime ∧ p ≠ q ∧ e.uM = p * q ∧
      d.uB * e.uB ≡ 1 [MOD (p - 1) * (q - 1)]
  | .elg, e, d => d.uM = e.uM ∧ e.uM.Prime ∧ ¬ e.uM ∣ e.uA ∧ e.uB = e.uA ^ d.uB % e.uM
  | .tp, e, d =>
    d.uM = e.uM ∧ e.uM.Prime ∧ e.uB * e.uE2 ≡ 1 [MOD e.uM - 1] ∧ e.uE1 * d.uB ≡ 1 [MOD e.uM - 1]

end Sys2Proof.Machine
end

