-- ==== Sys2Proof/Certificates/Slice0/Obligations.lean ====
section
/-! DEFINITION. The statements for the provers. A statement about a command speaks of a state whose hidden context is
that command's (`State.AtStart`: before its first line); its conclusion is the whole next state. Three carriers are the
model's own, not the spec's: the agenda that says who moves next (notes/assumptions/1.md), the position data `Pos`
(4.md), and `room`, the count of bytes the consumer of `SOUT` stands ready to accept (7.md). -/

open Sys2Proof Sys2Proof.Machine

/-! ## Encoding -/

/-- 30_encoding.md rules R61, R62: the decoder accepts exactly the words of the table, each as its command. -/
def Obligations.DecodeAcceptsExactlyTheCommandWords : Prop :=
  ∀ (w : Word) (i : Instr), decode w = .ok i ↔ w = encode i

/-- 30_encoding.md rule R62 and opcode_table.json: row `r` matches `w` when `(w and r.mask) = r.match`, and the row tells
the command, its free field `S` or `V` read from the word; two different words never decode to the same command with the
same field values. -/
def Obligations.OpcodeTableRowsTellTheCommand : Prop :=
  ∀ w : Word,
    (w &&& 0xFFFFFFFFFFFFEFFF#64 = 0x0001#64 ↔ decode w = .ok (.modexp (w.getLsbD 12))) ∧
    (w &&& 0xFFFFFFFFFFFFDFFF#64 = 0x0002#64 ↔ decode w = .ok (.egcd (w.getLsbD 13))) ∧
    (w = 0x0003#64 ↔ decode w = .ok .modinv) ∧
    (w = 0x0004#64 ↔ decode w = .ok .primetest) ∧
    (w = 0x0008#64 ↔ decode w = .ok .encodeRsa) ∧
    (w = 0x0108#64 ↔ decode w = .ok .encodeElg) ∧
    (w = 0x0208#64 ↔ decode w = .ok .encodeTp) ∧
    (w = 0x0308#64 ↔ decode w = .ok .encodeOtp) ∧
    (w = 0x0009#64 ↔ decode w = .ok .decodeRsa) ∧
    (w = 0x0109#64 ↔ decode w = .ok .decodeElg) ∧
    (w = 0x0209#64 ↔ decode w = .ok .decodeTp) ∧
    (w = 0x0309#64 ↔ decode w = .ok .decodeOtp) ∧
    (∀ (w' : Word) (i : Instr), decode w = .ok i → decode w' = .ok i → w = w')

/-- A few words of the table of rule R61, one per operation code, and the all-zero word of rule R63. -/
def Obligations.SampleCommandWordsDecode : Prop :=
  decode 0x1001#64 = .ok (.modexp true) ∧ decode 0x2002#64 = .ok (.egcd true) ∧
    decode 0x0003#64 = .ok .modinv ∧ decode 0x0004#64 = .ok .primetest ∧
    decode 0x0208#64 = .ok .encodeTp ∧ decode 0x0309#64 = .ok .decodeOtp ∧
    decode 0x0000#64 = .error .noSuchOperation

/-! ## The step, the register port, accept and reset -/

/-- 10_state.md rules R29, R31: at the engine's turn a busy engine runs the command of the accepted word, or completes an
illegal one with `IllegalCommand` (30_encoding.md rule R63), and an idle engine does nothing; the step adds only taking
the turn off the agenda. It is the engine's turn with an empty agenda, at the event `engine`, and, the event staying,
at `waitDone` until `DONE` is 1 (rule R70). A step performs each other event at the agenda's head and takes it off: a
register access (20_memory.md rule R40), bytes and words offered behind those offered (rules R43, R44, R47), readiness
to accept (rule R45), a withdrawal (70_reset_and_hazards.md rule R156), reset (rule R150); an access to part of a
register is `Obligations.PartRegisterAccessIsRefused`. That the agenda says whose move it is, that `readData` keeps what
reads answered, that readiness is a count, and that a withdrawal takes all, is the model's choice
(notes/assumptions/1.md, 7.md, 8.md, 12.md, 19.md). -/
def Obligations.StepRunsTheAcceptedCommand : Prop :=
  (∀ (s : State) (c : Ctx) (i : Instr), s.status.busy = true → s.ctx = some c → decode c.cmd = .ok i →
    (s.agenda = [] → step s = exec i s) ∧
    (∀ rest, s.agenda = .engine :: rest → step s = exec i { s with agenda := rest }) ∧
    (∀ rest, s.agenda = .waitDone :: rest → s.status.done = false → step s = exec i s)) ∧
  (∀ (s : State) (c : Ctx) (e : Reject), s.status.busy = true → s.ctx = some c → decode c.cmd = .error e →
    (s.agenda = [] → step s = .next (s.raise .illegalCommand)) ∧
    (∀ rest, s.agenda = .engine :: rest → step s = .next ({ s with agenda := rest }.raise .illegalCommand)) ∧
    (∀ rest, s.agenda = .waitDone :: rest → s.status.done = false → step s = .next (s.raise .illegalCommand))) ∧
  (∀ s : State, s.status.busy = false →
    (s.agenda = [] → step s = .next s) ∧
    (∀ rest, s.agenda = .engine :: rest → step s = .next { s with agenda := rest }) ∧
    (∀ rest, s.agenda = .waitDone :: rest → s.status.done = false → step s = .next s)) ∧
  (∀ (s : State) (rest : List Event),
    (s.agenda = .waitDone :: rest → s.status.done = true → step s = .next { s with agenda := rest }) ∧
    (∀ i v, s.agenda = .regWrite i v :: rest → step s = .next ({ s with agenda := rest }.regWrite i v)) ∧
    (∀ i, s.agenda = .regRead i :: rest →
      step s = .next { s with agenda := rest, readData := s.readData ++ [s.regRead i] }) ∧
    (∀ bs, s.agenda = .offerSin bs :: rest →
      step s = .next { s with agenda := rest, ports := { s.ports with sin := s.ports.sin ++ bs } }) ∧
    (∀ bs, s.agenda = .offerKin bs :: rest →
      step s = .next { s with agenda := rest, ports := { s.ports with kin := s.ports.kin ++ bs } }) ∧
    (∀ ws, s.agenda = .offerRnd ws :: rest →
      step s = .next { s with agenda := rest, ports := { s.ports with rnd := s.ports.rnd ++ ws } }) ∧
    (∀ n, s.agenda = .acceptSout n :: rest →
      step s = .next { s with agenda := rest, ports := { s.ports with room := s.ports.room + n } }) ∧
    (s.agenda = .withdrawSin :: rest →
      step s = .next { s with agenda := rest, ports := { s.ports with sin := [] } }) ∧
    (s.agenda = .withdrawKin :: rest →
      step s = .next { s with agenda := rest, ports := { s.ports with kin := [] } }) ∧
    (s.agenda = .reset :: rest → step s = .next { s with agenda := rest }.resetEngine))

/-- 30_encoding.md rule R63: which words are illegal; and such a word, written to an idle engine, is accepted, and
at the engine's turn completes with `IllegalCommand`; no port, result or operand register changes. -/
def Obligations.IllegalWordCompletesWithIllegalCommand : Prop :=
  (∀ w : Word,
    ((2 ^ 14 ≤ w.toNat ∨ fieldOpc w ∉ [0x01#8, 0x02#8, 0x03#8, 0x04#8, 0x08#8, 0x09#8] ∨ 4 ≤ (fieldT w).toNat ∨
      (fieldT w ≠ 0#4 ∧ fieldOpc w ∉ [0x08#8, 0x09#8]) ∨ (fieldS w = true ∧ fieldOpc w ≠ 0x01#8) ∨
      (fieldV w = true ∧ fieldOpc w ≠ 0x02#8)) ↔ ∀ i, decode w ≠ .ok i)) ∧
  ∀ (s : State) (w : Word), s.status.busy = false → (∀ i, decode w ≠ .ok i) →
    engineTurn (s.regWrite 0x03 w) = .next
      { s with
        cmd := w
        ctx := none
        errcode := some .illegalCommand
        status := ⟨false, true, true, s.status.ovr⟩ }

/-- 10_state.md rule R31: accept, one event; the engine then runs the command of the word on the latched values, which no
host write changes. -/
def Obligations.AcceptLatchesOperands : Prop :=
  ∀ (s : State) (w : Word), s.status.busy = false →
    let t : State :=
      { s with
        cmd := w
        ctx := some { cmd := w, ops := s.ops, pos := .start }
        status := ⟨true, false, false, s.status.ovr⟩
        errcode := none }
    s.regWrite 0x03 w = t ∧ (∀ i, decode w = .ok i → engineTurn t = exec i t) ∧
      ∀ (i : Nat) (v : Word), (t.regWrite i v).ctx = t.ctx

/-- 60_exceptions.md rule R143 and 10_state.md rule R26: a `CMD` write while busy is dropped and sets `OVR`, nothing
else. -/
def Obligations.CmdWriteWhileBusySetsOnlyOvr : Prop :=
  ∀ (s : State) (w : Word), s.status.busy = true →
    s.regWrite 0x03 w = { s with status := { s.status with ovr := true } } ∧ (s.regWrite 0x03 w).irq = s.irq

/-- 10_state.md rule R24: the word `STATUS` reads as, bit by bit, and a host write to it, which clears `DONE` and `OVR`
where the written bit is 1 and nothing else. -/
def Obligations.StatusReadsItsBitsAndClearsByOne : Prop :=
  ∀ (s : State) (v : Word),
    (∀ k, (s.regRead 0x01).getLsbD k =
      ((k == 0 && s.status.busy) || (k == 1 && s.status.done) || (k == 2 && s.status.err) ||
        (k == 3 && s.status.ovr))) ∧
    s.regWrite 0x01 v =
      { s with
        status :=
          ⟨s.status.busy, s.status.done && !v.getLsbD 1, s.status.err, s.status.ovr && !v.getLsbD 3⟩ }

/-- 20_memory.md rule R53 (and the access column of 10_state.md rule R20): a read changes nothing but the agenda and the
record of reads, both the model's own (notes/assumptions/1.md, 8.md); a write of `v` to index `i` stores in an operand
register and in bit 0 of `CTRL`, does nothing at a read-only register or a reserved index, and, `CMD` and `STATUS`
apart, has no side effect. -/
def Obligations.RegisterAccessesHaveOnlyTheirOwnEffects : Prop :=
  ∀ (s : State) (i : Nat) (v : Word),
    (∀ rest, s.agenda = .regRead i :: rest →
      ∃ record, step s = .next { s with agenda := rest, readData := record }) ∧
    (0x04 ≤ i → i ≤ 0x0A → (s.regWrite i v).regRead i = v) ∧
    ((s.regWrite 0x00 v).regRead 0x00 = v &&& 1#64) ∧
    (i = 0x02 ∨ 0x0B ≤ i → s.regWrite i v = s) ∧
    (i ≠ 0x01 → i ≠ 0x03 →
      (∀ j, j ≠ i → (s.regWrite i v).regRead j = s.regRead j) ∧ (s.regWrite i v).ctx = s.ctx ∧
        (s.regWrite i v).ports = s.ports ∧ (s.regWrite i v).readData = s.readData ∧
        (s.regWrite i v).agenda = s.agenda ∧ (s.regWrite i v).cfg = s.cfg)

/-- 10_state.md rule R27: reserved indices and reserved bits read 0 and ignore writes; `CMD` reads back the accepted word
unmasked. -/
def Obligations.ReservedIndicesAndBitsReadZero : Prop :=
  ∀ (s : State) (v : Word),
    (∀ i, i = 0x0B ∨ 0x0F ≤ i → s.regRead i = 0 ∧ s.regWrite i v = s) ∧
    (∀ k, 1 ≤ k → (s.regRead 0x00).getLsbD k = false) ∧ s.regWrite 0x00 v = s.regWrite 0x00 (v &&& 0x1#64) ∧
    (∀ k, 4 ≤ k → (s.regRead 0x01).getLsbD k = false) ∧ s.regWrite 0x01 v = s.regWrite 0x01 (v &&& 0xA#64) ∧
    (∀ k, 11 ≤ k → (s.regRead 0x02).getLsbD k = false) ∧ s.regWrite 0x02 v = s ∧
    (s.status.busy = false → (s.regWrite 0x03 v).cmd = v ∧ (s.regWrite 0x03 v).regRead 0x03 = v ∧
      ((s.regWrite 0x03 v).ctx.map fun c => c.cmd) = some v)

/-- 10_state.md rule R25 and 60_exceptions.md rule R131: what `ERRCODE` reads as for each cause. -/
def Obligations.ErrcodeReadsClassAndCause : Prop :=
  (∀ s : State, s.errcode = none → s.regRead 0x02 = 0) ∧
    ∀ (s : State) (e : Cause), s.errcode = some e → s.regRead 0x02 =
      match e with
      | .illegalCommand => 0x101
      | .modulusZero => 0x102
      | .egcdRange => 0x103
      | .egcdOrder => 0x104
      | .notCoprime => 0x105
      | .keyShort => 0x106
      | .paramRange => 0x107
      | .badTag => 0x210
      | .modulusMismatch => 0x211
      | .truncated => 0x212
      | .badWidth => 0x213
      | .blockRange => 0x214
      | .containerShort => 0x215

/-- 10_state.md rule R36, 70_reset_and_hazards.md rules R150, R151: reset clears every register and the running command
without a completion, leaves the ports alone, and leaves the engine ready for a command. -/
def Obligations.ResetClearsTheEngineAndLeavesThePorts : Prop :=
  ∀ s : State, (∀ i, s.resetEngine.regRead i = 0) ∧ s.resetEngine.ctx = none ∧ s.resetEngine.irq = false ∧
    s.resetEngine.ports = s.ports ∧ s.resetEngine.cfg = s.cfg ∧ s.resetEngine.agenda = s.agenda ∧
    ∀ w, (s.resetEngine.regWrite 0x03 w).cmd = w ∧ (s.resetEngine.regWrite 0x03 w).status.busy = true

/-- 10_state.md rule R36: every register reads 0 in the state after reset, which is idle with `irq` low. -/
def Obligations.StateAfterResetReadsZero : Prop :=
  (∀ i, State.reset.regRead i = 0) ∧ State.reset.ctx = none ∧ State.reset.irq = false

/-- 20_memory.md rule R42: an access that is not one whole register is no operation of the port, and is refused. -/
def Obligations.PartRegisterAccessIsRefused : Prop :=
  ∀ (s : State) (a n : Nat) (rest : List Event), s.agenda = .partAccess a n :: rest →
    step s = .refused .notAPortOperation

/-- 10_state.md rules R29, R26; 60_exceptions.md rule R142: only a host write to `CMD` makes an idle engine busy, with
the written word accepted. (The agenda is the model's: notes/assumptions/1.md.) -/
def Obligations.OnlyACmdWriteStartsACommand : Prop :=
  ∀ s t : State, step s = .next t → s.status.busy = false → t.status.busy = true →
    ∃ (w : Word) (rest : List Event), s.agenda = .regWrite 0x03 w :: rest ∧ t.cmd = w ∧
      t.ctx = some { cmd := w, ops := s.ops, pos := .start }

/-! ## Invariants and whole-machine rules -/

/-- The state after reset meets the invariant. -/
def Obligations.ResetMeetsTheInvariant : Prop := State.reset.inv = true

/-- Every step keeps the invariant (10_state.md rules R24, R30, R31): `ctx` is in order exactly while `BUSY`, `BUSY`
and `DONE` are never both 1, `ERR` is 1 exactly when `ERRCODE` is not 0. -/
def Obligations.EveryStepKeepsTheInvariant : Prop :=
  ∀ s t : State, s.inv = true → step s = .next t → t.inv = true

/-- Under the invariant no step faults: every outcome of the spec is a next state. -/
def Obligations.NoStepFaultsUnderTheInvariant : Prop :=
  ∀ (s : State) (f : Fault), s.inv = true → step s ≠ .fault f

/-- 10_state.md rule R21, "The engine never writes them", and the frame of every command: the operand registers, `CMD`,
`CTRL`, `OVR`, the parameters, the agenda and the values read are unchanged. -/
def Obligations.CommandsLeaveOtherRegistersAlone : Prop :=
  ∀ (i : Instr) (s t : State), exec i s = .next t →
    t.ops = s.ops ∧ t.cmd = s.cmd ∧ t.ctrlIE = s.ctrlIE ∧ t.status.ovr = s.status.ovr ∧ t.cfg = s.cfg ∧
      t.agenda = s.agenda ∧ t.readData = s.readData

/-- 10_state.md rules R22, R32; 60_exceptions.md rule R136: a run of a command that waits changes no result, no
`STATUS` bit and no `ERRCODE`; one that ends with an error keeps the results; one that ends without, clears
`ERRCODE`. In both ends `BUSY` falls and `DONE` rises together with the rest. -/
def Obligations.ResultsAreWrittenOnlyAtSuccess : Prop :=
  ∀ (i : Instr) (s t : State), exec i s = .next t →
    (t.ctx ≠ none → t.r0 = s.r0 ∧ t.r1 = s.r1 ∧ t.r2 = s.r2 ∧ t.status = s.status ∧ t.errcode = s.errcode) ∧
    (t.ctx = none → t.status.busy = false ∧ t.status.done = true ∧ t.status.err = t.errcode.isSome) ∧
    (t.ctx = none → t.errcode ≠ none → t.r0 = s.r0 ∧ t.r1 = s.r1 ∧ t.r2 = s.r2)

/-- 10_state.md rule R22: "The engine writes all three together, at the completion of a command that ends without
error, and at no other time", reset apart: a step that changes a result register is a reset or such a completion. -/
def Obligations.ResultRegistersChangeOnlyAtCompletion : Prop :=
  ∀ s t : State, step s = .next t → (t.r0 ≠ s.r0 ∨ t.r1 ≠ s.r1 ∨ t.r2 ≠ s.r2) →
    (∃ rest, s.agenda = .reset :: rest) ∨
      (s.status.busy = true ∧ t.status.busy = false ∧ t.status.done = true ∧ t.status.err = false ∧
        t.errcode = none ∧ t.ctx = none)

/-- 60_exceptions.md rule R131, the column "raised by": a command ends only in an error of its own list, `EGCD` in
`EgcdOrder` only with `V = 1`. -/
def Obligations.CommandsRaiseOnlyTheirOwnCauses : Prop :=
  ∀ (i : Instr) (s t : State) (e : Cause), exec i s = .next t → t.ctx = none → t.errcode = some e → e ∈ mayRaise i

/-- 10_state.md rules R33, R34; 20_memory.md rule R44: a command leaves alone the ports that are not its own. -/
def Obligations.CommandsTouchOnlyTheirPorts : Prop :=
  ∀ (i : Instr) (s t : State), exec i s = .next t →
    (usesStreams i = false →
      t.ports.sin = s.ports.sin ∧ t.ports.sout = s.ports.sout ∧ t.ports.room = s.ports.room) ∧
    (usesKin i = false → t.ports.kin = s.ports.kin) ∧
    (usesRnd i = false → t.ports.rnd = s.ports.rnd)

/-- 20_memory.md rules R43 to R47: a command takes bytes and words from the front of a port only, appends to `SOUT`
only, and appends no more than the consumer accepts. -/
def Obligations.StreamsMoveInOrder : Prop :=
  ∀ (i : Instr) (s t : State), exec i s = .next t →
    t.ports.sin <:+ s.ports.sin ∧ t.ports.kin <:+ s.ports.kin ∧ t.ports.rnd <:+ s.ports.rnd ∧
      s.ports.sout <+: t.ports.sout ∧
      t.ports.sout.length + t.ports.room = s.ports.sout.length + s.ports.room

/-- 20_memory.md rule R50 item 6, 70_reset_and_hazards.md rule R154: a running command reads no register; what it takes,
emits, raises and leaves as results depends on its hidden context, the ports and the parameters alone. -/
def Obligations.RunningCommandsReadNoRegister : Prop :=
  ∀ (i : Instr) (s t u : State), exec i s = .next t → u.ctx = s.ctx → u.ports = s.ports → u.cfg = s.cfg →
    ∃ v, exec i u = .next v ∧ v.ctx = t.ctx ∧ v.ports = t.ports ∧
      (t.ctx = none → v.errcode = t.errcode ∧
        (t.errcode = none → v.r0 = t.r0 ∧ v.r1 = t.r1 ∧ v.r2 = t.r2))

/-- 20_memory.md rule R43: a waiting engine has no step: its turn changes nothing until the environment acts.
70_reset_and_hazards.md rule R163: a stuck state is not final, and every step leads back to it; a final state is left by
no step; a run that ends final has come there by its steps, and its final state has no host action left and is idle; a
reset completes no command that was started. (What counts as stuck under an agenda is the model's reading:
notes/assumptions/26.md.) -/
def Obligations.AWaitingEngineStandsStill : Prop :=
  (∀ (i : Instr) (s t : State), exec i s = .next t → t.ctx ≠ none → exec i t = .next t) ∧
  (∀ s : State, s.stuck = true → s.status.busy = true ∧ s.final = false ∧ ∀ k, core.run k s = .next s) ∧
  (∀ s : State, s.final = true → s.agenda = [] ∧ s.status.busy = false ∧ ∀ k, core.run k s = .next s) ∧
  (∀ (k owed : Nat) (s t : State), runFrom k owed s = .final t →
    t.final = true ∧ ∃ j, j ≤ k ∧ core.run j s = .next t) ∧
  (∀ (owed : Nat) (s t : State) (rest : List Event), s.agenda = .reset :: rest → step s = .next t →
    owedAfter owed s t = owed)

/-- 20_memory.md rule R46, 30_encoding.md rule R70: "the result does not depend on when the environment acts, only on
what it supplies": a command that waited and was then supplied ends as one that had the supply from the beginning.
A supply is what the four events that offer and accept do (rules R43 to R45, R47). -/
def Obligations.TheTimeOfSupplyDoesNotMatter : Prop :=
  (∀ (s : State) (x : Ports) (rest : List Event),
    s.agenda = .offerSin x.sin :: .offerKin x.kin :: .offerRnd x.rnd :: .acceptSout x.room :: rest →
    core.run 4 s = .next ({ s with agenda := rest }.supply x)) ∧
  ∀ (i : Instr) (s t : State) (x : Ports), exec i s = .next t → t.ctx ≠ none →
    exec i (t.supply x) = exec i (s.supply x)

/-- 10_state.md rule R35, 60_exceptions.md rule R134: at a completion, with or without error, `irq` is `CTRL.IE`;
clearing `DONE`, accepting a command and reset lower it; setting `IE` while `DONE` is 1 raises it. -/
def Obligations.InterruptFollowsCompletion : Prop :=
  (∀ (i : Instr) (s t : State), exec i s = .next t → t.ctx = none → t.irq = s.ctrlIE) ∧
  (∀ (s : State) (v : Word), v.getLsbD 1 = true → (s.regWrite 0x01 v).irq = false) ∧
  (∀ (s : State) (w : Word), (s.accept w).irq = false) ∧
  (∀ s : State, s.resetEngine.irq = false) ∧
  (∀ (s : State) (v : Word), (s.regWrite 0x00 v).irq = (v.getLsbD 0 && s.status.done) ∧
    (s.regWrite 0x00 v).status = s.status)

/-! ## The numeric kernel -/

/-- 40_kernel.md rule R73 with R74, R83 (and property 1 of R82): `MODEXP` raises `ModulusZero` when `M = 0`, and
otherwise leaves `base^B mod M` in `R0`, the base unsigned or `sint64`, `x^0 = 1`. -/
def Obligations.ModexpPowersModuloM : Prop :=
  decode 0x0001#64 = .ok (.modexp false) ∧ decode 0x1001#64 = .ok (.modexp true) ∧
  ∀ (signed : Bool) (s : State) (c : Ctx), s.AtStart c →
    (c.ops.m = 0 → exec (.modexp signed) s = .next (s.raise .modulusZero)) ∧
    (c.ops.m ≠ 0 → exec (.modexp signed) s = .next
      (s.complete
        (BitVec.ofInt 64 (((if signed then c.ops.a.toInt else (c.ops.a.toNat : Int)) ^ c.ops.b.toNat) %
          (c.ops.m.toNat : Int))) 0 0))

/-- 40_kernel.md rules R76, R77: the words of the two variants of `EGCD`, their preconditions in order, and the results. -/
def Obligations.EgcdChecksThenCompletes : Prop :=
  decode 0x0002#64 = .ok (.egcd false) ∧ decode 0x2002#64 = .ok (.egcd true) ∧
  ∀ (legacy : Bool) (s : State) (c : Ctx), s.AtStart c →
    (c.ops.a = 0 → exec (.egcd legacy) s = .next (s.raise .egcdRange)) ∧
    (c.ops.a ≠ 0 → legacy = false → c.ops.b = 0 → exec (.egcd legacy) s = .next (s.raise .egcdRange)) ∧
    (c.ops.a ≠ 0 → legacy = true → c.ops.a < c.ops.b → exec (.egcd legacy) s = .next (s.raise .egcdOrder)) ∧
    (c.ops.a ≠ 0 → (legacy = false → c.ops.b ≠ 0) → (legacy = true → c.ops.b ≤ c.ops.a) →
      exec (.egcd legacy) s = .next
        (s.complete (BitVec.ofNat 64 (egcd c.ops.a.toNat c.ops.b.toNat).1)
          (BitVec.ofInt 64 (egcd c.ops.a.toNat c.ops.b.toNat).2.1)
          (BitVec.ofInt 64 (egcd c.ops.a.toNat c.ops.b.toNat).2.2)))

/-- 40_kernel.md rule R78: the triple of `egcd` satisfies `a*x + b*y = g = gcd(a, b)`, and it is the pair the iteration
gives: `(a, 1, 0)` for `b = 0`, and one turn with the quotient `a div b` for `b > 0`. -/
def Obligations.EgcdSatisfiesTheBezoutIdentity : Prop :=
  (∀ a b : Nat, ¬ (a = 0 ∧ b = 0) →
    (egcd a b).1 = Nat.gcd a b ∧
    (a : Int) * (egcd a b).2.1 + (b : Int) * (egcd a b).2.2 = ((egcd a b).1 : Int)) ∧
  (∀ a : Nat, egcd a 0 = (a, 1, 0)) ∧
  ∀ a b : Nat, 0 < b →
    egcd a b =
      ((egcd b (a % b)).1, (egcd b (a % b)).2.2,
        (egcd b (a % b)).2.1 - ((a / b : Nat) : Int) * (egcd b (a % b)).2.2)

/-- 40_kernel.md rule R79: the size of the coefficients, and the special cases. -/
def Obligations.EgcdCoefficientsAreBounded : Prop :=
  (∀ a b : Nat, a < 2 ^ 64 → b < 2 ^ 64 → ¬ (a = 0 ∧ b = 0) →
    (egcd a b).1 < 2 ^ 64 ∧
    (egcd a b).2.1.natAbs ≤ max 1 (b / (2 * (egcd a b).1)) ∧
    (egcd a b).2.2.natAbs ≤ max 1 (a / (2 * (egcd a b).1)) ∧
    (egcd a b).2.1.natAbs < 2 ^ 63 ∧ (egcd a b).2.2.natAbs < 2 ^ 63) ∧
  (∀ a : Nat, 0 < a → egcd a 0 = (a, 1, 0) ∧ egcd a a = (a, 0, 1) ∧ egcd a 1 = (1, 0, 1)) ∧
  (∀ b : Nat, 1 < b → egcd 1 b = (1, 1, 0)) ∧
  ∀ a b : Nat, 0 < a → a < b → egcd a b = ((egcd b a).1, (egcd b a).2.2, (egcd b a).2.1)

/-- 40_kernel.md rules R77, R78, R79, what the host reads: after `EGCD` completes, `R0` is the greatest common divisor
and `R1`, `R2` read as `sint64` are Bezout coefficients of the latched operands. -/
def Obligations.EgcdRegistersHoldABezoutTriple : Prop :=
  ∀ (legacy : Bool) (s : State) (c : Ctx), s.AtStart c → c.ops.a ≠ 0 →
    (legacy = false → c.ops.b ≠ 0) → (legacy = true → c.ops.b ≤ c.ops.a) →
    ∃ t, exec (.egcd legacy) s = .next t ∧ t.errcode = none ∧ t.status.done = true ∧
      t.r0.toNat = Nat.gcd c.ops.a.toNat c.ops.b.toNat ∧
      (c.ops.a.toNat : Int) * t.r1.toInt + (c.ops.b.toNat : Int) * t.r2.toInt = (t.r0.toNat : Int)

/-- 40_kernel.md rules R80, R81: `MODINV` checks the modulus, the value and coprimality in this order; otherwise it
leaves in `R0` the number below `M` whose product with `A` is 1 modulo `M`. -/
def Obligations.ModinvInvertsCoprimeValues : Prop :=
  decode 0x0003#64 = .ok .modinv ∧
  ∀ (s : State) (c : Ctx), s.AtStart c →
    (c.ops.m = 0 → exec .modinv s = .next (s.raise .modulusZero)) ∧
    (c.ops.m ≠ 0 → c.ops.a = 0 → exec .modinv s = .next (s.raise .egcdRange)) ∧
    (c.ops.m ≠ 0 → c.ops.a ≠ 0 → Nat.gcd c.ops.a.toNat c.ops.m.toNat ≠ 1 →
      exec .modinv s = .next (s.raise .notCoprime)) ∧
    (c.ops.m ≠ 0 → c.ops.a ≠ 0 → Nat.gcd c.ops.a.toNat c.ops.m.toNat = 1 →
      ∃ r : Nat, r < c.ops.m.toNat ∧ c.ops.a.toNat * r % c.ops.m.toNat = 1 % c.ops.m.toNat ∧
        exec .modinv s = .next (s.complete (BitVec.ofNat 64 r) 0 0))

/-! ## Primality -/

/-- 41_primality.md rule R89: the table is the first `NSP` primes in ascending order; the default `NSP` is 170. -/
def Obligations.SmallPrimesAreTheFirstPrimes : Prop :=
  Params.standard.nsp = 170 ∧ ∀ nsp : Nat, smallPrimes nsp = (List.range nsp).map (Nat.nth Nat.Prime)

/-- 41_primality.md rule R90: the decomposition of `n - 1` for odd `n ≥ 3`. -/
def Obligations.DecompositionIsOddTimesPowerOfTwo : Prop :=
  ∀ n : Nat, 3 ≤ n → n % 2 = 1 →
    n - 1 = (decompose n).1 * 2 ^ (decompose n).2 ∧ (decompose n).1 % 2 = 1 ∧ 1 ≤ (decompose n).1 ∧
      1 ≤ (decompose n).2 ∧ ∀ d s, n - 1 = d * 2 ^ s → d % 2 = 1 → (d, s) = decompose n

/-- 41_primality.md rule R92: a draw takes words up to and including the first whose low `bitlength(n - 4)` bits are
below `n - 3`, and answers 2 plus those bits, a value of `[2, n - 2]`; it waits when every word is rejected. -/
def Obligations.DrawTakesTheFirstWordInRange : Prop :=
  ∀ (n : Nat) (words : List Word), 4 ≤ n →
    (∀ (a : Nat) (rest : List Word), randRange2 n words = (some a, rest) →
      2 ≤ a ∧ a ≤ n - 2 ∧ ∃ (rejected : List Word) (w : Word), words = rejected ++ w :: rest ∧
        a = 2 + w.toNat % 2 ^ bitlength (n - 4) ∧
        ∀ u ∈ rejected, n - 3 ≤ u.toNat % 2 ^ bitlength (n - 4)) ∧
    ((randRange2 n words).1 = none → (randRange2 n words).2 = [] ∧
      ∀ u ∈ words, n - 3 ≤ u.toNat % 2 ^ bitlength (n - 4))

/-- 41_primality.md rule R94, steps 1 and 3 on the deterministic path: below 2, verdict 0; a table prime, verdict 1; a
multiple of a table prime, verdict 0; otherwise, for `rounds ≤ 0`, verdict 0 exactly when a witness of the set proves
compositeness. No port is touched. Rule R91: a witness `a` of `[2, n - 2]` fails to prove an odd `n` composite exactly
when `a^d` is 1 modulo `n` or `a^(d*2^r)` is `n - 1` for some `r < s`. -/
def Obligations.PrimetestDecidesByTableAndWitnesses : Prop :=
  (∀ n a : Nat, 3 ≤ n → n % 2 = 1 → 2 ≤ a → a ≤ n - 2 →
    (witnessProves n a = false ↔
      a ^ (decompose n).1 % n = 1 ∨
        ∃ r, r < (decompose n).2 ∧ a ^ ((decompose n).1 * 2 ^ r) % n = n - 1)) ∧
  ∀ (s : State) (c : Ctx), s.AtStart c →
    (c.ops.a.toNat < 2 → exec .primetest s = .next (s.complete 0 0 0)) ∧
    (c.ops.a.toNat ∈ smallPrimes s.cfg.nsp → exec .primetest s = .next (s.complete 1 0 0)) ∧
    (c.ops.a.toNat ∉ smallPrimes s.cfg.nsp → (∃ p ∈ smallPrimes s.cfg.nsp, p ∣ c.ops.a.toNat) →
      exec .primetest s = .next (s.complete 0 0 0)) ∧
    (2 ≤ c.ops.a.toNat → (∀ p ∈ smallPrimes s.cfg.nsp, ¬ p ∣ c.ops.a.toNat) → c.ops.b.toInt ≤ 0 →
      exec .primetest s = .next
        (s.complete
          (if ∃ a ∈ s.cfg.detWitnesses, witnessProves c.ops.a.toNat a = true then 0 else 1) 0 0))

/-- 41_primality.md rule R94, step 3 on the random path: one draw a round; a witness that proves compositeness ends the
command with verdict 0 and the rest of the words stays on `RND`; after the last round the verdict is 1; with no word
left that the draw accepts, the engine waits. -/
def Obligations.PrimetestRunsItsRandomRounds : Prop :=
  ∀ (s : State) (c : Ctx), s.ctx = some c →
    (c.pos = .start → 2 ≤ c.ops.a.toNat → (∀ p ∈ smallPrimes s.cfg.nsp, ¬ p ∣ c.ops.a.toNat) →
      0 < c.ops.b.toInt →
      exec .primetest s =
        exec .primetest { s with ctx := some { c with pos := .primeDraw c.ops.b.toInt.toNat } }) ∧
    (c.pos = .primeDraw 0 → exec .primetest s = .next (s.complete 1 0 0)) ∧
    (∀ rounds, c.pos = .primeDraw (rounds + 1) →
      (∀ rest, randRange2 c.ops.a.toNat s.ports.rnd = (none, rest) →
        exec .primetest s = .next { s with ports := { s.ports with rnd := rest } }) ∧
      (∀ a rest, randRange2 c.ops.a.toNat s.ports.rnd = (some a, rest) →
        witnessProves c.ops.a.toNat a = true →
        exec .primetest s = .next ({ s with ports := { s.ports with rnd := rest } }.complete 0 0 0)) ∧
      (∀ a rest, randRange2 c.ops.a.toNat s.ports.rnd = (some a, rest) →
        witnessProves c.ops.a.toNat a = false →
        exec .primetest s =
          exec .primetest
            { s with ctx := some { c with pos := .primeDraw rounds }
                     ports := { s.ports with rnd := rest } }))

/-- 41_primality.md rule R95, property 1: a prime always gets verdict 1, on both paths, for any parameters in order:
whatever words were drawn, `PRIMETEST` on a prime either waits or has completed with `R0 = 1`. Rule R93: the witnesses
are in order exactly when each is at least 2 and below `n - 1` for every 64-bit `n` that the table lets through. -/
def Obligations.PrimesAreNeverCalledComposite : Prop :=
  (∀ p : Params, p.witnessesOk = true ↔
    ∀ a ∈ p.detWitnesses, 2 ≤ a ∧
      ∀ n, 2 ≤ n → n < 2 ^ 64 → tableVerdict n (smallPrimes p.nsp) = none → a < n - 1) ∧
  ∀ (s t : State) (c : Ctx), s.cfg.wf = true → s.ctx = some c →
    (c.pos = .start ∨ ∃ rounds, c.pos = .primeDraw rounds) →
    c.ops.a.toNat.Prime → exec .primetest s = .next t → t.ctx = none →
    t.r0 = 1 ∧ t.r1 = 0 ∧ t.r2 = 0 ∧ t.errcode = none

/-- 41_primality.md rule R95, property 2: with a witness set that has the property rule R93 demands, the deterministic
path answers exactly whether `n` is prime. -/
def Obligations.DeterministicPathIsExact : Prop :=
  ∀ (s : State) (c : Ctx), s.cfg.Exact → s.AtStart c → c.ops.b.toInt ≤ 0 →
    (c.ops.a.toNat.Prime → exec .primetest s = .next (s.complete 1 0 0)) ∧
    (¬ c.ops.a.toNat.Prime → exec .primetest s = .next (s.complete 0 0 0))

/-! ## The codec: sizes and transforms -/

/-- 42_codec_framing.md rules R100, R111: the widths and their ranges, with `Nat.size` for `bitlength`; every ciphertext
value fits `cw` bytes, and every plaintext block value is below `M` when, and only when, `M ≥ 256`. -/
def Obligations.WidthsFitTheModulus : Prop :=
  ∀ m : Nat, 1 ≤ m → m < 2 ^ 64 →
    plainWidth m = max 1 ((Nat.size m - 1) / 8) ∧ cipherWidth m = max 1 ((Nat.size (m - 1) + 7) / 8) ∧
    1 ≤ plainWidth m ∧ plainWidth m ≤ 7 ∧ 1 ≤ cipherWidth m ∧ cipherWidth m ≤ 8 ∧
    plainWidth m ≤ cipherWidth m ∧ m ≤ 256 ^ cipherWidth m ∧
    (256 ^ plainWidth m ≤ m ↔ 256 ≤ m)

/-- 43_codec_transforms.md rule R116: RSA, forward and inverse, as powers. -/
def Obligations.RsaTransformsArePowers : Prop :=
  ∀ o : Operands, o.m ≠ 0 →
    (∀ m : Nat, forwardRsa o m = .ok (beEnc (m ^ o.uB % o.uM) (cipherWidth o.uM))) ∧
    (∀ blk : List Byte, inverseRsa o blk = .ok (beDec blk ^ o.uB % o.uM))

/-- 43_codec_transforms.md rules R117, R118: ElGamal's pair, and its inverse with its two errors. -/
def Obligations.ElgamalTransformsFollowTheRules : Prop :=
  ∀ o : Operands, o.m ≠ 0 →
    (∀ m k : Nat, forwardElg o m k =
      .ok (le8 (o.uA ^ k % o.uM) ++ beEnc (m * o.uB ^ k % o.uM) (cipherWidth o.uM))) ∧
    (∀ blk : List Byte, blk.length = 8 + cipherWidth o.uM →
      let s := leDec (blk.take 8) ^ o.uB % o.uM
      let e := beDec (blk.drop 8)
      (s = 0 → inverseElg o blk = .error .egcdRange) ∧
      (s ≠ 0 → Nat.gcd s o.uM ≠ 1 → inverseElg o blk = .error .notCoprime) ∧
      (s ≠ 0 → Nat.gcd s o.uM = 1 →
        ∃ m, m < o.uM ∧ m * s % o.uM = e % o.uM ∧ inverseElg o blk = .ok m))

/-- 43_codec_transforms.md rules R119, R120: the three exponentiations in sequence, and the one that undoes them. -/
def Obligations.ThreePassTransformsArePowers : Prop :=
  ∀ o : Operands, o.m ≠ 0 →
    (∀ m : Nat, forwardTp o m =
      .ok (beEnc (((m ^ o.uB % o.uM) ^ o.uE1 % o.uM) ^ o.uE2 % o.uM) (cipherWidth o.uM))) ∧
    (∀ blk : List Byte, inverseTp o blk = .ok (beDec blk ^ o.uB % o.uM))

/-- 43_codec_transforms.md rule R121, RSA: with matching keys the inverse undoes the forward transform. -/
def Obligations.RsaInverseUndoesForward : Prop :=
  ∀ (e d : Operands) (m : Nat), KeysMatch .rsa e d → m < e.uM →
    ∃ blk, forwardRsa e m = .ok blk ∧ blk.length = blockSize .rsa e.uM ∧ inverse .rsa d blk = .ok m

/-- 43_codec_transforms.md rule R121, ElGamal: with matching keys the inverse undoes the forward transform, for every
`k`. -/
def Obligations.ElgamalInverseUndoesForward : Prop :=
  ∀ (e d : Operands) (m k : Nat), KeysMatch .elg e d → m < e.uM →
    ∃ blk, forwardElg e m k = .ok blk ∧ blk.length = blockSize .elg e.uM ∧ inverse .elg d blk = .ok m

/-- 43_codec_transforms.md rule R121, three-pass, for an odd prime: with matching keys the inverse undoes the forward
transform. (For `p = 2` the congruences of the rule hold of exponents 0, and `0^0 = 1`.) -/
def Obligations.ThreePassInverseUndoesForward : Prop :=
  ∀ (e d : Operands) (m : Nat), KeysMatch .tp e d → 2 < e.uM → m < e.uM →
    ∃ blk, forwardTp e m = .ok blk ∧ blk.length = blockSize .tp e.uM ∧ inverse .tp d blk = .ok m

/-! ## The codec: commands -/

/-- 42_codec_framing.md rule R105 with 43_codec_transforms.md rule R116: given the plaintext on `SIN` and room on `SOUT`,
`ENCODE.RSA` takes `LEN` bytes, emits the header and one block per chunk, and reports bytes, blocks and length. -/
def Obligations.EncodeRsaEmitsTheContainer : Prop :=
  ∀ (s : State) (c : Ctx), s.AtStart c → c.ops.m ≠ 0 → c.ops.uLen ≤ s.ports.sin.length →
    22 + blockCount c.ops * cipherWidth c.ops.uM ≤ s.ports.room →
    exec .encodeRsa s = .next
      ({ s with
          ports :=
            { s.ports with
              sin := s.ports.sin.drop c.ops.uLen
              sout := s.ports.sout ++ blockHeader s.cfg .rsa c.ops.uM c.ops.uLen ++
                (blockValues c.ops (s.ports.sin.take c.ops.uLen)).flatMap
                  (fun m => beEnc (m ^ c.ops.uB % c.ops.uM) (cipherWidth c.ops.uM))
              room := s.ports.room - (22 + blockCount c.ops * cipherWidth c.ops.uM) } }.complete
        (BitVec.ofNat 64 (22 + blockCount c.ops * cipherWidth c.ops.uM)) (BitVec.ofNat 64 (blockCount c.ops))
        c.ops.len)

/-- 42_codec_framing.md rule R105 with 43_codec_transforms.md rule R119: the same for `ENCODE.TP`. -/
def Obligations.EncodeTpEmitsTheContainer : Prop :=
  ∀ (s : State) (c : Ctx), s.AtStart c → c.ops.m ≠ 0 → c.ops.uLen ≤ s.ports.sin.length →
    22 + blockCount c.ops * cipherWidth c.ops.uM ≤ s.ports.room →
    exec .encodeTp s = .next
      ({ s with
          ports :=
            { s.ports with
              sin := s.ports.sin.drop c.ops.uLen
              sout := s.ports.sout ++ blockHeader s.cfg .tp c.ops.uM c.ops.uLen ++
                (blockValues c.ops (s.ports.sin.take c.ops.uLen)).flatMap
                  (fun m => beEnc (((m ^ c.ops.uB % c.ops.uM) ^ c.ops.uE1 % c.ops.uM) ^ c.ops.uE2 % c.ops.uM)
                    (cipherWidth c.ops.uM))
              room := s.ports.room - (22 + blockCount c.ops * cipherWidth c.ops.uM) } }.complete
        (BitVec.ofNat 64 (22 + blockCount c.ops * cipherWidth c.ops.uM)) (BitVec.ofNat 64 (blockCount c.ops))
        c.ops.len)

/-- 42_codec_framing.md rule R105 with 43_codec_transforms.md rule R117: the same for `ENCODE.ELG`, given as well the
words of `blockCount` draws, one draw a block. -/
def Obligations.EncodeElgEmitsTheContainer : Prop :=
  ∀ (s : State) (c : Ctx) (ks : List Nat) (rest : List Word), s.AtStart c → 4 ≤ c.ops.uM →
    c.ops.uLen ≤ s.ports.sin.length → draws c.ops.uM (blockCount c.ops) s.ports.rnd = some (ks, rest) →
    22 + blockCount c.ops * (cipherWidth c.ops.uM + 8) ≤ s.ports.room →
    exec .encodeElg s = .next
      ({ s with
          ports :=
            { s.ports with
              sin := s.ports.sin.drop c.ops.uLen
              rnd := rest
              sout := s.ports.sout ++ blockHeader s.cfg .elg c.ops.uM c.ops.uLen ++
                ((blockValues c.ops (s.ports.sin.take c.ops.uLen)).zip ks).flatMap
                  (fun (mk : Nat × Nat) => le8 (c.ops.uA ^ mk.2 % c.ops.uM) ++
                    beEnc (mk.1 * c.ops.uB ^ mk.2 % c.ops.uM) (cipherWidth c.ops.uM))
              room := s.ports.room - (22 + blockCount c.ops * (cipherWidth c.ops.uM + 8)) } }.complete
        (BitVec.ofNat 64 (22 + blockCount c.ops * (cipherWidth c.ops.uM + 8)))
        (BitVec.ofNat 64 (blockCount c.ops)) c.ops.len)

/-- 60_exceptions.md rule R135, `ENCODE` block mode: `ModulusZero`, then `ParamRange`, before any port is touched. -/
def Obligations.EncodeRejectsBadModuliFirst : Prop :=
  ∀ (s : State) (c : Ctx), s.AtStart c →
    (c.ops.m = 0 →
      exec .encodeRsa s = .next (s.raise .modulusZero) ∧ exec .encodeElg s = .next (s.raise .modulusZero) ∧
      exec .encodeTp s = .next (s.raise .modulusZero)) ∧
    (c.ops.m ≠ 0 → c.ops.uM < 4 → exec .encodeElg s = .next (s.raise .paramRange))

/-- 42_codec_framing.md rule R106, 60_exceptions.md rule R135: the checks of `DECODE` in block mode before its blocks, in
their order, with what each has consumed. -/
def Obligations.DecodeChecksTheHeaderInOrder : Prop :=
  ∀ (t : BlockTransform) (s : State) (c : Ctx), s.AtStart c →
    (c.ops.m = 0 → exec (decodeCommand t.transform) s = .next (s.raise .modulusZero)) ∧
    (c.ops.m ≠ 0 → c.ops.uLen < 22 → c.ops.uLen ≤ s.ports.sin.length →
      exec (decodeCommand t.transform) s = .next
        ({ s with ports := { s.ports with sin := s.ports.sin.drop c.ops.uLen } }.raise .truncated)) ∧
    (c.ops.m ≠ 0 → 22 ≤ c.ops.uLen → 22 ≤ s.ports.sin.length →
      let h := s.ports.sin.take 22
      let s' : State := { s with ports := { s.ports with sin := s.ports.sin.drop 22 } }
      (slice h 0 4 ≠ (s.cfg.tag t.transform).bytes →
        exec (decodeCommand t.transform) s = .next (s'.raise .badTag)) ∧
      (slice h 0 4 = (s.cfg.tag t.transform).bytes → leDec (slice h 6 14) ≠ c.ops.uM →
        exec (decodeCommand t.transform) s = .next (s'.raise .modulusMismatch)) ∧
      (slice h 0 4 = (s.cfg.tag t.transform).bytes → leDec (slice h 6 14) = c.ops.uM →
        slice h 4 6 ≠ [BitVec.ofNat 8 (plainWidth c.ops.uM), BitVec.ofNat 8 (cipherWidth c.ops.uM)] →
        exec (decodeCommand t.transform) s = .next (s'.raise .badWidth)))

/-- 42_codec_framing.md rule R106, 60_exceptions.md rule R135: the errors of one block, with what has been consumed:
`Truncated`, then what the inverse transform raises, then `BlockRange`. -/
def Obligations.DecodeChecksEachBlockInOrder : Prop :=
  ∀ (t : BlockTransform) (s : State) (c : Ctx) (v : DecLocals), s.ctx = some c → c.pos = .decIn [] v → 0 < v.left →
    let bs := blockSize t c.ops.uM
    let s' : State := { s with ports := { s.ports with sin := s.ports.sin.drop bs } }
    (v.left < bs → v.left ≤ s.ports.sin.length →
      exec (decodeCommand t.transform) s = .next
        ({ s with ports := { s.ports with sin := s.ports.sin.drop v.left } }.raise .truncated)) ∧
    (bs ≤ v.left → bs ≤ s.ports.sin.length →
      (∀ e, inverse t c.ops (s.ports.sin.take bs) = .error e →
        exec (decodeCommand t.transform) s = .next (s'.raise e)) ∧
      (∀ m, inverse t c.ops (s.ports.sin.take bs) = .ok m → 256 ^ plainWidth c.ops.uM ≤ m →
        exec (decodeCommand t.transform) s = .next (s'.raise .blockRange)))

/-- 42_codec_framing.md rules R103, R106: given a container of whole blocks with a good header, each block recovering a
value that fits `pw` bytes, `DECODE` consumes it all, emits the values' bytes up to the original length, and completes,
or raises `ContainerShort` when the blocks hold fewer bytes than that. Surplus blocks are consumed and emit nothing. -/
def Obligations.DecodeRecoversThePlaintext : Prop :=
  ∀ (t : BlockTransform) (s : State) (c : Ctx) (orig : Nat) (blocks : List (List Byte)) (ms : List Nat)
    (rest : List Byte), s.AtStart c → c.ops.m ≠ 0 → orig < 2 ^ 64 →
    List.Forall₂ (fun blk m => blk.length = blockSize t c.ops.uM ∧ inverse t c.ops blk = .ok m ∧
      m < 256 ^ plainWidth c.ops.uM) blocks ms →
    c.ops.uLen = 22 + blocks.length * blockSize t c.ops.uM →
    s.ports.sin = blockHeader s.cfg t c.ops.uM orig ++ blocks.flatten ++ rest →
    let emitted := (ms.flatMap fun m => beEnc m (plainWidth c.ops.uM)).take orig
    emitted.length ≤ s.ports.room →
    let s' : State :=
      { s with
        ports :=
          { s.ports with
            sin := rest
            sout := s.ports.sout ++ emitted
            room := s.ports.room - emitted.length } }
    (orig ≤ blocks.length * plainWidth c.ops.uM →
      exec (decodeCommand t.transform) s = .next
        (s'.complete (BitVec.ofNat 64 orig) (BitVec.ofNat 64 blocks.length) (BitVec.ofNat 64 orig))) ∧
    (blocks.length * plainWidth c.ops.uM < orig →
      exec (decodeCommand t.transform) s = .next (s'.raise .containerShort))

/-- 42_codec_framing.md rules R107, R108: `ENCODE.OTP` raises `KeyShort` before it touches a port; given plaintext, key
and room, it emits the header and the bytes of the plaintext XOR the key at the same offset. -/
def Obligations.EncodeOtpXorsTheKeyStream : Prop :=
  decode 0x0308#64 = .ok .encodeOtp ∧
  ∀ (s : State) (c : Ctx), s.AtStart c →
    (c.ops.uKlen < c.ops.uLen → exec .encodeOtp s = .next (s.raise .keyShort)) ∧
    (c.ops.uLen ≤ c.ops.uKlen → c.ops.uLen ≤ s.ports.sin.length → c.ops.uLen ≤ s.ports.kin.length →
      12 + c.ops.uLen ≤ s.ports.room →
      exec .encodeOtp s = .next
        ({ s with
            ports :=
              { s.ports with
                sin := s.ports.sin.drop c.ops.uLen
                kin := s.ports.kin.drop c.ops.uLen
                sout := s.ports.sout ++ padHeader s.cfg c.ops.uLen ++
                  List.zipWith (· ^^^ ·) (s.ports.sin.take c.ops.uLen) (s.ports.kin.take c.ops.uLen)
                room := s.ports.room - (12 + c.ops.uLen) } }.complete
          (BitVec.ofNat 64 (12 + c.ops.uLen)) c.ops.len c.ops.len))

/-- 42_codec_framing.md rule R109, 60_exceptions.md rule R135: the errors of `DECODE.OTP` up to its payload, in their
order, with what each has consumed. -/
def Obligations.DecodeOtpChecksTheHeaderInOrder : Prop :=
  ∀ (s : State) (c : Ctx), s.AtStart c →
    (c.ops.uLen < 12 → c.ops.uLen ≤ s.ports.sin.length →
      exec .decodeOtp s = .next
        ({ s with ports := { s.ports with sin := s.ports.sin.drop c.ops.uLen } }.raise .truncated)) ∧
    (12 ≤ c.ops.uLen → 12 ≤ s.ports.sin.length →
      let s' : State := { s with ports := { s.ports with sin := s.ports.sin.drop 12 } }
      (s.ports.sin.take 4 ≠ s.cfg.tagOtp.bytes → exec .decodeOtp s = .next (s'.raise .badTag)) ∧
      (s.ports.sin.take 4 = s.cfg.tagOtp.bytes → c.ops.uKlen < leDec (slice (s.ports.sin.take 12) 4 12) →
        exec .decodeOtp s = .next (s'.raise .keyShort)))

/-- 42_codec_framing.md rule R109: given a container with a good header, a key long enough and room, `DECODE.OTP`
consumes the container, takes a key byte for each byte it emits and none for a surplus byte, and completes, or raises
`ContainerShort` when the payload is shorter than the original length. -/
def Obligations.DecodeOtpRecoversThePlaintext : Prop :=
  ∀ (s : State) (c : Ctx) (orig : Nat) (payload rest : List Byte), s.AtStart c → orig ≤ c.ops.uKlen →
    c.ops.uLen = 12 + payload.length → s.ports.sin = padHeader s.cfg orig ++ payload ++ rest →
    min orig payload.length ≤ s.ports.kin.length → min orig payload.length ≤ s.ports.room →
    let n := min orig payload.length
    let s' : State :=
      { s with
        ports :=
          { s.ports with
            sin := rest
            kin := s.ports.kin.drop n
            sout := s.ports.sout ++ List.zipWith (· ^^^ ·) (payload.take n) (s.ports.kin.take n)
            room := s.ports.room - n } }
    (orig ≤ payload.length →
      exec .decodeOtp s = .next
        (s'.complete (BitVec.ofNat 64 orig) (BitVec.ofNat 64 payload.length) (BitVec.ofNat 64 orig))) ∧
    (payload.length < orig → exec .decodeOtp s = .next (s'.raise .containerShort))

/-- 42_codec_framing.md rule R110, one-time pad: what `ENCODE.OTP` emitted, given to `DECODE.OTP` with the same key bytes,
comes back as the plaintext, with `R0 = R2 = n`. -/
def Obligations.OneTimePadRoundTrip : Prop :=
  ∀ (s t : State) (c : Ctx) (u : State) (d : Ctx) (container rest : List Byte),
    s.AtStart c → exec .encodeOtp s = .next t → t.ctx = none → t.errcode = none →
    t.ports.sout = s.ports.sout ++ container →
    u.AtStart d → u.cfg = s.cfg → d.ops.uLen = container.length → c.ops.uLen ≤ d.ops.uKlen →
    u.ports.sin = container ++ rest → s.ports.kin.take c.ops.uLen <+: u.ports.kin →
    c.ops.uLen ≤ u.ports.room →
    ∃ r, exec .decodeOtp u = .next r ∧ r.ctx = none ∧ r.errcode = none ∧
      r.ports.sout = u.ports.sout ++ s.ports.sin.take c.ops.uLen ∧ r.ports.sin = rest ∧
      r.r0 = c.ops.len ∧ r.r2 = c.ops.len

/-- 42_codec_framing.md rule R110, block mode: for each block transform, what `ENCODE` emitted without error, given to
`DECODE` with the same modulus, `M ≥ 256`, and matching keys (rule R121), comes back as the plaintext, with
`R0 = R2 = n`; for ElGamal, whatever words were drawn. -/
def Obligations.BlockCodecRoundTrip : Prop :=
  ∀ (x : BlockTransform) (s t : State) (c : Ctx) (u : State) (d : Ctx) (container rest : List Byte),
    s.AtStart c → exec (encodeCommand x.transform) s = .next t → t.ctx = none → t.errcode = none →
    t.ports.sout = s.ports.sout ++ container →
    256 ≤ c.ops.uM → KeysMatch x c.ops d.ops →
    u.AtStart d → u.cfg = s.cfg → d.ops.uLen = container.length →
    u.ports.sin = container ++ rest → c.ops.uLen ≤ u.ports.room →
    ∃ r, exec (decodeCommand x.transform) u = .next r ∧ r.ctx = none ∧ r.errcode = none ∧
      r.ports.sout = u.ports.sout ++ s.ports.sin.take c.ops.uLen ∧ r.ports.sin = rest ∧
      r.r0 = c.ops.len ∧ r.r2 = c.ops.len
end

