-- ==== Sys2Proof/Laws/Kernel.lean ====
section
/-! SUPPORT. What `modpow`, `modinv` and `randRange2` answer, case by case. -/

namespace Sys2Proof.Machine

@[simp] theorem modpow_zero (b : Int) (e : Nat) : modpow b e 0 = .error .modulusZero := rfl

theorem modpow_of_pos {m : Nat} (h : m ≠ 0) (b : Int) (e : Nat) : modpow b e m = .ok (powMod b e m) :=
  if_neg h

@[simp] theorem modinv_zero (v : Nat) : modinv v 0 = .error .modulusZero := rfl

/-- `modinv` of rule R81 on a positive modulus. -/
theorem modinv_of_pos {m : Nat} (h : m ≠ 0) (v : Nat) :
    modinv v m =
      if v = 0 then .error .egcdRange
      else if (egcd v m).1 ≠ 1 then .error .notCoprime
      else .ok (floorMod (egcd v m).2.1 m) :=
  if_neg h

/-- Each turn of the loop of rule R74. -/
theorem powLoop_succ (m turns result b e : Nat) :
    powLoop m (turns + 1) result b e =
      if e = 0 then result
      else powLoop m turns (if e % 2 = 1 then mulmod result b m else result) (mulmod b b m) (e / 2) := rfl

/-- Each turn of the iteration of rule R78. -/
theorem egcdLoop_succ (turns r0 r1 : Nat) (s0 t0 s1 t1 : Int) :
    egcdLoop (turns + 1) (r0, s0, t0) (r1, s1, t1) =
      if r1 = 0 then (r0, s0, t0)
      else egcdLoop turns (r1, s1, t1)
        (r0 - r0 / r1 * r1, s0 - (r0 / r1 : Nat) * s1, t0 - (r0 / r1 : Nat) * t1) := rfl

/-- A draw that fails has consumed every word offered. -/
theorem randRange2_none {n : Nat} {ws : List Word} (h : (randRange2 n ws).1 = none) :
    (randRange2 n ws).2 = [] := by
  induction ws with
  | nil => rfl
  | cons w ws ih =>
    simp only [randRange2] at h ⊢
    split at h
    · exact absurd h (by simp)
    · rename_i hw; rw [if_neg hw]; exact ih h

/-- What is left on `RND` after a draw is what stood behind the words it took. -/
theorem randRange2_suffix (n : Nat) (ws : List Word) : (randRange2 n ws).2 <:+ ws := by
  induction ws with
  | nil => exact List.suffix_rfl
  | cons w ws ih =>
    simp only [randRange2]
    split
    · exact List.suffix_cons w ws
    · exact ih.trans (List.suffix_cons w ws)

/-- A draw that succeeds has consumed at least one word. -/
theorem randRange2_some_length {n a : Nat} {ws : List Word} (h : (randRange2 n ws).1 = some a) :
    (randRange2 n ws).2.length < ws.length := by
  induction ws with
  | nil => exact absurd h (by simp [randRange2])
  | cons w ws ih =>
    simp only [randRange2] at h ⊢
    split
    · simp
    · rename_i hw
      rw [if_neg hw] at h
      exact lt_trans (ih h) (by simp)

end Sys2Proof.Machine
end

