-- ==== Sys2Proof/Laws/Numbers.lean ====
section
/-! SUPPORT. The laws of the byte strings and sizes of Numbers.lean and Codec.lean that proofs cite. -/

namespace Sys2Proof.Machine

theorem bitlength_zero : bitlength 0 = 0 := rfl

/-- A number is below two to its bit length (00_scope.md rule R9). -/
theorem lt_two_pow_bitlength (v : Nat) : v < 2 ^ bitlength v := by
  unfold bitlength
  split
  · subst v; decide
  · exact Nat.lt_log2_self

/-- A positive number is at least two to its bit length less one (rule R9). -/
theorem two_pow_bitlength_le {v : Nat} (h : v ≠ 0) : 2 ^ (bitlength v - 1) ≤ v := by
  simpa [bitlength, h] using Nat.log2_self_le h

theorem bitlength_le_iff {v k : Nat} : bitlength v ≤ k ↔ v < 2 ^ k := by
  refine ⟨fun h => lt_of_lt_of_le (lt_two_pow_bitlength v) (Nat.pow_le_pow_right (by decide) h), fun h => ?_⟩
  unfold bitlength
  split
  · exact Nat.zero_le k
  · exact (Nat.log2_lt ‹_›).2 h

@[simp] theorem leEnc_length (v n : Nat) : (leEnc v n).length = n := by
  induction n generalizing v with
  | zero => rfl
  | succ n ih => simp [leEnc, ih]

@[simp] theorem beEnc_length (v n : Nat) : (beEnc v n).length = n := by simp [beEnc]

@[simp] theorem le8_length (v : Nat) : (le8 v).length = 8 := leEnc_length v 8

@[simp] theorem zeros_length (k : Nat) : (zeros k).length = k := List.length_replicate ..

/-- `BEdec` reads a byte string as `LEdec` reads its reverse (rule R10). -/
theorem beDec_eq (s : List Byte) : beDec s = leDec s.reverse := by
  have key : ∀ (s : List Byte) (acc : Nat),
      s.foldr (fun b n => n * 256 + b.toNat) acc = leDec s + 256 ^ s.length * acc := by
    intro s acc
    induction s with
    | nil => simp [leDec]
    | cons b s ih => simp only [List.foldr_cons, ih, leDec, List.length_cons, Nat.pow_succ]; ring
  have h := key s.reverse 0
  rw [List.foldr_reverse] at h
  simpa [beDec] using h

theorem leDec_append (s t : List Byte) : leDec (s ++ t) = leDec s + 256 ^ s.length * leDec t := by
  induction s with
  | nil => simp [leDec]
  | cons b s ih => simp only [List.cons_append, leDec, ih, List.length_cons, Nat.pow_succ]; ring

theorem leDec_lt (s : List Byte) : leDec s < 256 ^ s.length := by
  induction s with
  | nil => simp [leDec]
  | cons b s ih =>
    have hb : b.toNat < 256 := b.isLt
    simp only [leDec, List.length_cons, Nat.pow_succ]
    omega

theorem beDec_lt (s : List Byte) : beDec s < 256 ^ s.length := by
  simpa [beDec_eq] using leDec_lt s.reverse

/-- Reading what was written: `LEdec(LEenc(v, n)) = v` for a `v` that fits (rule R10). -/
theorem leDec_leEnc {v n : Nat} (h : v < 256 ^ n) : leDec (leEnc v n) = v := by
  induction n generalizing v with
  | zero => simp only [Nat.pow_zero, Nat.lt_one_iff] at h; simp [leEnc, leDec, h]
  | succ n ih =>
    have : v / 256 < 256 ^ n := Nat.div_lt_of_lt_mul (by rwa [Nat.pow_succ, Nat.mul_comm] at h)
    simp only [leEnc, leDec, ih this, BitVec.toNat_ofNat]
    omega

/-- `BEdec(BEenc(v, n)) = v` for a `v` that fits (rule R10). -/
theorem beDec_beEnc {v n : Nat} (h : v < 256 ^ n) : beDec (beEnc v n) = v := by
  simp [beDec_eq, beEnc, leDec_leEnc h]

/-- Writing what was read: `LEenc(LEdec(s), n) = s` for `n` bytes (rule R10). -/
theorem leEnc_leDec (s : List Byte) : leEnc (leDec s) s.length = s := by
  induction s with
  | nil => rfl
  | cons b s ih =>
    have hb : b.toNat < 256 := b.isLt
    have h1 : (b.toNat + 256 * leDec s) / 256 = leDec s := by omega
    have h2 : BitVec.ofNat 8 (b.toNat + 256 * leDec s) = b := by
      apply BitVec.eq_of_toNat_eq
      simp only [BitVec.toNat_ofNat]
      omega
    simp only [leDec, List.length_cons, leEnc, h1, h2, ih]

/-- `BEenc(BEdec(s), n) = s` for `n` bytes (rule R10). -/
theorem beEnc_beDec (s : List Byte) : beEnc (beDec s) s.length = s := by
  have h := leEnc_leDec s.reverse
  rw [List.length_reverse] at h
  rw [beEnc, beDec_eq, h, List.reverse_reverse]

theorem plainWidth_pos (m : Nat) : 0 < plainWidth m := lt_of_lt_of_le Nat.one_pos (le_max_left ..)

theorem cipherWidth_pos (m : Nat) : 0 < cipherWidth m := lt_of_lt_of_le Nat.one_pos (le_max_left ..)

theorem blockSize_pos (t : BlockTransform) (m : Nat) : 0 < blockSize t m := by
  have := cipherWidth_pos m
  cases t <;> simp only [blockSize] <;> omega

@[simp] theorem tag_bytes_length (t : Tag) : t.bytes.length = 4 := rfl

/-- The block-mode header is 22 bytes (30_encoding.md rule R65). -/
@[simp] theorem blockHeader_length (cfg : Params) (t : BlockTransform) (m n : Nat) :
    (blockHeader cfg t m n).length = hdrBlock := by
  simp [blockHeader, hdrBlock]

/-- The one-time pad's header is 12 bytes (rule R66). -/
@[simp] theorem padHeader_length (cfg : Params) (n : Nat) : (padHeader cfg n).length = hdrOtp := by
  simp [padHeader, hdrOtp]

end Sys2Proof.Machine
end

