-- ==== Sys2Proof/Laws/State.lean ====
section
/-! SUPPORT. What each update of the state leaves in each field: one lemma per field per update. -/

namespace Sys2Proof.Machine

/-! ### `accept` -/

@[simp] theorem State.accept_cfg (s : State) (w : Word) :
    (s.accept w).cfg = s.cfg := rfl

@[simp] theorem State.accept_ctrlIE (s : State) (w : Word) :
    (s.accept w).ctrlIE = s.ctrlIE := rfl

@[simp] theorem State.accept_status (s : State) (w : Word) :
    (s.accept w).status = s.status.accepted := rfl

@[simp] theorem State.accept_errcode (s : State) (w : Word) :
    (s.accept w).errcode = none := rfl

@[simp] theorem State.accept_cmd (s : State) (w : Word) :
    (s.accept w).cmd = w := rfl

@[simp] theorem State.accept_ops (s : State) (w : Word) :
    (s.accept w).ops = s.ops := rfl

@[simp] theorem State.accept_r0 (s : State) (w : Word) :
    (s.accept w).r0 = s.r0 := rfl

@[simp] theorem State.accept_r1 (s : State) (w : Word) :
    (s.accept w).r1 = s.r1 := rfl

@[simp] theorem State.accept_r2 (s : State) (w : Word) :
    (s.accept w).r2 = s.r2 := rfl

@[simp] theorem State.accept_ctx (s : State) (w : Word) :
    (s.accept w).ctx = some { cmd := w, ops := s.ops, pos := .start } := rfl

@[simp] theorem State.accept_ports (s : State) (w : Word) :
    (s.accept w).ports = s.ports := rfl

@[simp] theorem State.accept_agenda (s : State) (w : Word) :
    (s.accept w).agenda = s.agenda := rfl

@[simp] theorem State.accept_readData (s : State) (w : Word) :
    (s.accept w).readData = s.readData := rfl

/-! ### `complete` -/

@[simp] theorem State.complete_cfg (s : State) (x y z : Word) :
    (s.complete x y z).cfg = s.cfg := rfl

@[simp] theorem State.complete_ctrlIE (s : State) (x y z : Word) :
    (s.complete x y z).ctrlIE = s.ctrlIE := rfl

@[simp] theorem State.complete_status (s : State) (x y z : Word) :
    (s.complete x y z).status = s.status.completed := rfl

@[simp] theorem State.complete_errcode (s : State) (x y z : Word) :
    (s.complete x y z).errcode = none := rfl

@[simp] theorem State.complete_cmd (s : State) (x y z : Word) :
    (s.complete x y z).cmd = s.cmd := rfl

@[simp] theorem State.complete_ops (s : State) (x y z : Word) :
    (s.complete x y z).ops = s.ops := rfl

@[simp] theorem State.complete_r0 (s : State) (x y z : Word) :
    (s.complete x y z).r0 = x := rfl

@[simp] theorem State.complete_r1 (s : State) (x y z : Word) :
    (s.complete x y z).r1 = y := rfl

@[simp] theorem State.complete_r2 (s : State) (x y z : Word) :
    (s.complete x y z).r2 = z := rfl

@[simp] theorem State.complete_ctx (s : State) (x y z : Word) :
    (s.complete x y z).ctx = none := rfl

@[simp] theorem State.complete_ports (s : State) (x y z : Word) :
    (s.complete x y z).ports = s.ports := rfl

@[simp] theorem State.complete_agenda (s : State) (x y z : Word) :
    (s.complete x y z).agenda = s.agenda := rfl

@[simp] theorem State.complete_readData (s : State) (x y z : Word) :
    (s.complete x y z).readData = s.readData := rfl

/-! ### `raise` -/

@[simp] theorem State.raise_cfg (s : State) (c : Cause) :
    (s.raise c).cfg = s.cfg := rfl

@[simp] theorem State.raise_ctrlIE (s : State) (c : Cause) :
    (s.raise c).ctrlIE = s.ctrlIE := rfl

@[simp] theorem State.raise_status (s : State) (c : Cause) :
    (s.raise c).status = s.status.failed := rfl

@[simp] theorem State.raise_errcode (s : State) (c : Cause) :
    (s.raise c).errcode = some c := rfl

@[simp] theorem State.raise_cmd (s : State) (c : Cause) :
    (s.raise c).cmd = s.cmd := rfl

@[simp] theorem State.raise_ops (s : State) (c : Cause) :
    (s.raise c).ops = s.ops := rfl

@[simp] theorem State.raise_r0 (s : State) (c : Cause) :
    (s.raise c).r0 = s.r0 := rfl

@[simp] theorem State.raise_r1 (s : State) (c : Cause) :
    (s.raise c).r1 = s.r1 := rfl

@[simp] theorem State.raise_r2 (s : State) (c : Cause) :
    (s.raise c).r2 = s.r2 := rfl

@[simp] theorem State.raise_ctx (s : State) (c : Cause) :
    (s.raise c).ctx = none := rfl

@[simp] theorem State.raise_ports (s : State) (c : Cause) :
    (s.raise c).ports = s.ports := rfl

@[simp] theorem State.raise_agenda (s : State) (c : Cause) :
    (s.raise c).agenda = s.agenda := rfl

@[simp] theorem State.raise_readData (s : State) (c : Cause) :
    (s.raise c).readData = s.readData := rfl

/-! ### `resetEngine` -/

@[simp] theorem State.resetEngine_cfg (s : State) :
    s.resetEngine.cfg = s.cfg := rfl

@[simp] theorem State.resetEngine_ctrlIE (s : State) :
    s.resetEngine.ctrlIE = false := rfl

@[simp] theorem State.resetEngine_status (s : State) :
    s.resetEngine.status = .zero := rfl

@[simp] theorem State.resetEngine_errcode (s : State) :
    s.resetEngine.errcode = none := rfl

@[simp] theorem State.resetEngine_cmd (s : State) :
    s.resetEngine.cmd = 0 := rfl

@[simp] theorem State.resetEngine_ops (s : State) :
    s.resetEngine.ops = .zero := rfl

@[simp] theorem State.resetEngine_r0 (s : State) :
    s.resetEngine.r0 = 0 := rfl

@[simp] theorem State.resetEngine_r1 (s : State) :
    s.resetEngine.r1 = 0 := rfl

@[simp] theorem State.resetEngine_r2 (s : State) :
    s.resetEngine.r2 = 0 := rfl

@[simp] theorem State.resetEngine_ctx (s : State) :
    s.resetEngine.ctx = none := rfl

@[simp] theorem State.resetEngine_ports (s : State) :
    s.resetEngine.ports = s.ports := rfl

@[simp] theorem State.resetEngine_agenda (s : State) :
    s.resetEngine.agenda = s.agenda := rfl

@[simp] theorem State.resetEngine_readData (s : State) :
    s.resetEngine.readData = s.readData := rfl

/-! ### `Status.accepted` -/

@[simp] theorem Status.accepted_busy (t : Status) : t.accepted.busy = true := rfl

@[simp] theorem Status.accepted_done (t : Status) : t.accepted.done = false := rfl

@[simp] theorem Status.accepted_err (t : Status) : t.accepted.err = false := rfl

@[simp] theorem Status.accepted_ovr (t : Status) : t.accepted.ovr = t.ovr := rfl

/-! ### `Status.completed` -/

@[simp] theorem Status.completed_busy (t : Status) : t.completed.busy = false := rfl

@[simp] theorem Status.completed_done (t : Status) : t.completed.done = true := rfl

@[simp] theorem Status.completed_err (t : Status) : t.completed.err = false := rfl

@[simp] theorem Status.completed_ovr (t : Status) : t.completed.ovr = t.ovr := rfl

/-! ### `Status.failed` -/

@[simp] theorem Status.failed_busy (t : Status) : t.failed.busy = false := rfl

@[simp] theorem Status.failed_done (t : Status) : t.failed.done = true := rfl

@[simp] theorem Status.failed_err (t : Status) : t.failed.err = true := rfl

@[simp] theorem Status.failed_ovr (t : Status) : t.failed.ovr = t.ovr := rfl

/-! ### `Status.overrun` -/

@[simp] theorem Status.overrun_busy (t : Status) : t.overrun.busy = t.busy := rfl

@[simp] theorem Status.overrun_done (t : Status) : t.overrun.done = t.done := rfl

@[simp] theorem Status.overrun_err (t : Status) : t.overrun.err = t.err := rfl

@[simp] theorem Status.overrun_ovr (t : Status) : t.overrun.ovr = true := rfl

/-! ### `Status.hostWrite` -/

@[simp] theorem Status.hostWrite_busy (t : Status) (v : Word) : (t.hostWrite v).busy = t.busy := rfl

@[simp] theorem Status.hostWrite_done (t : Status) (v : Word) : (t.hostWrite v).done = (t.done && !v.getLsbD 1) := rfl

@[simp] theorem Status.hostWrite_err (t : Status) (v : Word) : (t.hostWrite v).err = t.err := rfl

@[simp] theorem Status.hostWrite_ovr (t : Status) (v : Word) : (t.hostWrite v).ovr = (t.ovr && !v.getLsbD 3) := rfl

/-! ### The port primitives -/

@[simp] theorem Ports.sinRead_fst (q : Ports) (n : Nat) (got : List Byte) :
    (q.sinRead n got).1 = got ++ q.sin.take (n - got.length) := rfl

@[simp] theorem Ports.sinRead_sin (q : Ports) (n : Nat) (got : List Byte) :
    (q.sinRead n got).2.sin = q.sin.drop (n - got.length) := rfl

@[simp] theorem Ports.sinRead_kin (q : Ports) (n : Nat) (got : List Byte) :
    (q.sinRead n got).2.kin = q.kin := rfl

@[simp] theorem Ports.sinRead_rnd (q : Ports) (n : Nat) (got : List Byte) :
    (q.sinRead n got).2.rnd = q.rnd := rfl

@[simp] theorem Ports.sinRead_sout (q : Ports) (n : Nat) (got : List Byte) :
    (q.sinRead n got).2.sout = q.sout := rfl

@[simp] theorem Ports.sinRead_room (q : Ports) (n : Nat) (got : List Byte) :
    (q.sinRead n got).2.room = q.room := rfl

@[simp] theorem Ports.soutWrite_fst (q : Ports) (pending : List Byte) :
    (q.soutWrite pending).1 = pending.drop q.room := rfl

@[simp] theorem Ports.soutWrite_sin (q : Ports) (pending : List Byte) :
    (q.soutWrite pending).2.sin = q.sin := rfl

@[simp] theorem Ports.soutWrite_kin (q : Ports) (pending : List Byte) :
    (q.soutWrite pending).2.kin = q.kin := rfl

@[simp] theorem Ports.soutWrite_rnd (q : Ports) (pending : List Byte) :
    (q.soutWrite pending).2.rnd = q.rnd := rfl

@[simp] theorem Ports.soutWrite_sout (q : Ports) (pending : List Byte) :
    (q.soutWrite pending).2.sout = q.sout ++ pending.take q.room := rfl

@[simp] theorem Ports.soutWrite_room (q : Ports) (pending : List Byte) :
    (q.soutWrite pending).2.room = q.room - pending.length := rfl

@[simp] theorem Ports.randRange2_fst (q : Ports) (n : Nat) :
    (q.randRange2 n).1 = (Machine.randRange2 n q.rnd).1 := rfl

@[simp] theorem Ports.randRange2_sin (q : Ports) (n : Nat) : (q.randRange2 n).2.sin = q.sin := rfl

@[simp] theorem Ports.randRange2_kin (q : Ports) (n : Nat) : (q.randRange2 n).2.kin = q.kin := rfl

@[simp] theorem Ports.randRange2_rnd (q : Ports) (n : Nat) :
    (q.randRange2 n).2.rnd = (Machine.randRange2 n q.rnd).2 := rfl

@[simp] theorem Ports.randRange2_sout (q : Ports) (n : Nat) : (q.randRange2 n).2.sout = q.sout := rfl

@[simp] theorem Ports.randRange2_room (q : Ports) (n : Nat) : (q.randRange2 n).2.room = q.room := rfl

end Sys2Proof.Machine
end

