-- ==== Sys2Proof/Laws/Ops.lean ====
section
/-! SUPPORT. What the shared operations can do: `SinRead`, `SoutWrite`, the running of a command, said once each. -/

namespace Sys2Proof.Machine

/-! ### The streams -/

/-- A `SinRead` that waits has taken every byte offered. -/
theorem sinRead_short {q : Ports} {n : Nat} {got : List Byte} (h : (q.sinRead n got).1.length < n) :
    (q.sinRead n got).2.sin = [] := by
  simp only [Ports.sinRead_fst, List.length_append, List.length_take] at h
  simp only [Ports.sinRead_sin, List.drop_eq_nil_iff]
  omega

/-- A `SinRead` that does not wait leaves the bytes behind those it took. -/
theorem sinRead_done {q : Ports} {n : Nat} {got : List Byte} (h : ¬ (q.sinRead n got).1.length < n) :
    (q.sinRead n got).2.sin.length + (n - got.length) = q.sin.length := by
  simp only [Ports.sinRead_fst, List.length_append, List.length_take] at h
  simp only [Ports.sinRead_sin, List.length_drop]
  omega

/-- A `SoutWrite` that waits has used up the consumer's readiness. -/
theorem soutWrite_waits {q : Ports} {pending : List Byte} (h : (q.soutWrite pending).1 ≠ []) :
    (q.soutWrite pending).2.room = 0 := by
  simp only [Ports.soutWrite_fst, ne_eq, List.drop_eq_nil_iff] at h
  simp only [Ports.soutWrite_room]
  omega

/-- A `SoutWrite` the consumer has room for is accepted whole. -/
theorem soutWrite_done {q : Ports} {pending : List Byte} (h : pending.length ≤ q.room) :
    q.soutWrite pending =
      ([], { q with sout := q.sout ++ pending, room := q.room - pending.length }) := by
  simp [Ports.soutWrite, List.drop_eq_nil_of_le h, List.take_of_length_le h]

/-- A `SinRead` from its beginning takes the first `n` bytes offered, or all there are. -/
theorem sinRead_fresh (q : Ports) (n : Nat) :
    q.sinRead n [] = (q.sin.take n, { q with sin := q.sin.drop n }) := by
  simp [Ports.sinRead]

/-! ### Running a command -/

/-- `drive` never answers `goes`. -/
theorem drive_ne_goes (line : Pos → Ports → Progress) (n : Nat) (p : Pos) (q : Ports) (p' : Pos) (q' : Ports) :
    drive line n p q ≠ .goes p' q' := by
  induction n generalizing p q with
  | zero => simp [drive]
  | succ n ih =>
    rw [drive]
    split
    · exact ih _ _
    · rename_i h; exact h p' q'

/-- One turn of `drive` through an operation that finishes. -/
theorem drive_goes {line : Pos → Ports → Progress} {n : Nat} {p p' : Pos} {q q' : Ports}
    (h : line p q = .goes p' q') : drive line (n + 1) p q = drive line n p' q' := by
  rw [drive, h]

/-- One turn of `drive` at an operation that does not finish. -/
theorem drive_stops {line : Pos → Ports → Progress} {n : Nat} {p : Pos} {q : Ports} {r : Progress}
    (h : line p q = r) (hr : ∀ p' q', r ≠ .goes p' q') : drive line (n + 1) p q = r := by
  rw [drive, h]
  cases r with
  | goes p' q' => exact absurd rfl (hr p' q')
  | _ => rfl

/-- What `settle` answers, from the way the command went. -/
@[simp] theorem settle_waits (s : State) (c : Ctx) (p : Pos) (q : Ports) :
    s.settle c (.waits p q) = .next { s with ctx := some { c with pos := p }, ports := q } := rfl

@[simp] theorem settle_success (s : State) (c : Ctx) (x y z : Word) (q : Ports) :
    s.settle c (.ends (.success x y z) q) = .next ({ s with ports := q }.complete x y z) := rfl

@[simp] theorem settle_failure (s : State) (c : Ctx) (e : Cause) (q : Ports) :
    s.settle c (.ends (.failure e) q) = .next ({ s with ports := q }.raise e) := rfl

@[simp] theorem settle_lost (s : State) (c : Ctx) : s.settle c .lost = .fault .lostPosition := rfl

theorem runCommand_some {line : Params → Operands → Pos → Ports → Progress} {s : State} {c : Ctx}
    (h : s.ctx = some c) :
    runCommand line s = s.settle c (drive (line s.cfg c.ops) s.ports.turns c.pos s.ports) := by
  rw [runCommand, h]

/-- Everything a run of a command can do when it answers a next state: it waits, completes, or completes with error,
and only `ctx`, the ports, and, on completion, results, `ERRCODE` and `STATUS` change. -/
theorem runCommand_next {line : Params → Operands → Pos → Ports → Progress} {s t : State}
    (h : runCommand line s = .next t) :
    ∃ c, s.ctx = some c ∧ ∃ q,
      (∃ p, drive (line s.cfg c.ops) s.ports.turns c.pos s.ports = .waits p q ∧
        t = { s with ctx := some { c with pos := p }, ports := q }) ∨
      (∃ x y z, drive (line s.cfg c.ops) s.ports.turns c.pos s.ports = .ends (.success x y z) q ∧
        t = { s with ports := q }.complete x y z) ∨
      (∃ e, drive (line s.cfg c.ops) s.ports.turns c.pos s.ports = .ends (.failure e) q ∧
        t = { s with ports := q }.raise e) := by
  cases hc : s.ctx with
  | none => rw [runCommand, hc] at h; cases h
  | some c =>
    rw [runCommand_some hc] at h
    refine ⟨c, rfl, ?_⟩
    cases hd : drive (line s.cfg c.ops) s.ports.turns c.pos s.ports with
    | goes p q => exact (drive_ne_goes _ _ _ _ _ _ hd).elim
    | waits p q => rw [hd] at h; cases h; exact ⟨q, .inl ⟨p, rfl, rfl⟩⟩
    | ends e q =>
      rw [hd] at h
      cases e with
      | success x y z => cases h; exact ⟨q, .inr (.inl ⟨x, y, z, rfl, rfl⟩)⟩
      | failure e => cases h; exact ⟨q, .inr (.inr ⟨e, rfl, rfl⟩)⟩
    | lost => rw [hd] at h; cases h

/-- A run of a command never refuses. -/
theorem runCommand_ne_refused (line : Params → Operands → Pos → Ports → Progress) (s : State) (r : Refusal) :
    runCommand line s ≠ .refused r := by
  cases hc : s.ctx with
  | none => rw [runCommand, hc]; simp
  | some c =>
    rw [runCommand_some hc]
    cases drive (line s.cfg c.ops) s.ports.turns c.pos s.ports with
    | ends e q => cases e <;> simp [State.settle]
    | _ => simp [State.settle]

end Sys2Proof.Machine
end

