-- ==== Sys2Proof/Laws/Lines.lean ====
section
/-! SUPPORT. Every command is `runCommand` of its own line, and the turns that `runCommand` allows are enough: a run
stops only where the command completes or its port operation waits. -/

namespace Sys2Proof.Machine

/-- The port operation of each command. -/
def lineOf : Instr → Params → Operands → Pos → Ports → Progress
  | .modexp signed => portless (modexpResult signed)
  | .egcd legacy => portless (egcdResult legacy)
  | .modinv => portless modinvResult
  | .primetest => primetestLine
  | .encodeRsa => encodeLine .rsa
  | .encodeElg => encodeLine .elg
  | .encodeTp => encodeLine .tp
  | .encodeOtp => padLine
  | .decodeRsa => decodeLine .rsa
  | .decodeElg => decodeLine .elg
  | .decodeTp => decodeLine .tp
  | .decodeOtp => unpadLine

theorem exec_eq_runCommand (i : Instr) (s : State) : exec i s = runCommand (lineOf i) s := by
  cases i <;> rfl

/-! ### The turns are enough -/

/-- How many port operations a command can pass from a position before it takes a byte of `SIN` or a word of `RND`. -/
def Pos.rank : Pos → Nat
  | .start => 5
  | .primeDraw _ => 1
  | .encIn got v => if got = [] ∧ 0 < v.remaining then 1 else 4
  | .encDraw _ _ => 3
  | .encOut _ _ => 2
  | .decHead _ => 4
  | .decIn got v => if got = [] ∧ 0 < v.left then 1 else 4
  | .decOut _ _ => 2
  | .padIn _ => 1
  | .padKey _ _ => 3
  | .padOut _ _ => 2
  | .unpadHead _ => 4
  | .unpadIn _ => 1
  | .unpadKey _ _ => 3
  | .unpadOut _ _ => 2

/-- What falls at every port operation that finishes. -/
def Ports.potential (q : Ports) (p : Pos) : Nat := 3 * q.sin.length + q.rnd.length + p.rank

/-- Every port operation that finishes brings the command nearer to its end or to a wait. -/
def Descends (line : Pos → Ports → Progress) : Prop :=
  ∀ p q p' q', line p q = .goes p' q' → q'.potential p' < q.potential p

theorem rank_le (p : Pos) : p.rank ≤ 5 := by
  cases p <;> simp only [Pos.rank] <;> first | decide | (split <;> decide)

theorem potential_lt_turns (q : Ports) (p : Pos) : q.potential p < q.turns := by
  have := rank_le p
  simp only [Ports.potential, Ports.turns]
  omega

/-- More turns than the potential make no difference. -/
theorem drive_turns {line : Pos → Ports → Progress} (hl : Descends line) {n m : Nat} {p : Pos} {q : Ports}
    (hn : q.potential p < n) (hm : q.potential p < m) : drive line n p q = drive line m p q := by
  induction n generalizing m p q with
  | zero => exact absurd hn (Nat.not_lt_zero _)
  | succ n ih =>
    cases m with
    | zero => exact absurd hm (Nat.not_lt_zero _)
    | succ m =>
      cases h : line p q with
      | goes p' q' =>
        have := hl _ _ _ _ h
        rw [drive_goes h, drive_goes h]
        exact ih (by omega) (by omega)
      | _ => rw [drive_stops h (by simp), drive_stops h (by simp)]

/-- A run that waits waits at a port operation that does not finish. -/
theorem drive_waits {line : Pos → Ports → Progress} (hl : Descends line) {n : Nat} {p p' : Pos} {q q' : Ports}
    (hn : q.potential p < n) (h : drive line n p q = .waits p' q') :
    ∃ p₀ q₀, line p₀ q₀ = .waits p' q' := by
  induction n generalizing p q with
  | zero => exact absurd hn (Nat.not_lt_zero _)
  | succ n ih =>
    cases hp : line p q with
    | goes p₁ q₁ =>
      have := hl _ _ _ _ hp
      rw [drive_goes hp] at h
      exact ih (by omega) h
    | waits p₁ q₁ => rw [drive_stops hp (by simp)] at h; exact ⟨p, q, hp.trans h⟩
    | ends e q₁ => rw [drive_stops hp (by simp)] at h; cases h
    | lost => rw [drive_stops hp (by simp)] at h; cases h

theorem portless_descends (f : Operands → Except Cause (Word × Word × Word)) (cfg : Params) (o : Operands) :
    Descends (portless f cfg o) := by
  intro p q p' q' h
  cases p with
  | start => simp only [portless, endWith] at h; split at h <;> cases h
  | _ => cases h

theorem primetest_descends (cfg : Params) (o : Operands) : Descends (primetestLine cfg o) := by
  intro p q p' q' h
  cases p with
  | start =>
    simp only [primetestLine, primetestStart, verdict] at h
    split at h
    · cases h
    · split at h
      · cases h
      · split at h
        · cases h; simp [Ports.potential, Pos.rank]
        · cases h
  | primeDraw r =>
    cases r with
    | zero => cases h
    | succ r =>
      simp only [primetestLine, verdict] at h
      split at h
      · cases h
      · rename_i a q₁ hd
        have h1 := randRange2_some_length (congrArg Prod.fst hd)
        obtain rfl : _ = q₁ := congrArg Prod.snd hd
        split at h
        · cases h
        · cases h; simp only [Ports.potential, Pos.rank, Ports.randRange2_sin, Ports.randRange2_rnd]; omega
  | _ => cases h

theorem encodeBlock_goes {o : Operands} {v : EncLocals} {q : Ports} {blk : Except Cause (List Byte)} {p' : Pos}
    {q' : Ports} (h : encodeBlock o v q blk = .goes p' q') : q' = q ∧ p'.rank = 2 := by
  simp only [encodeBlock] at h
  split at h <;> cases h
  exact ⟨rfl, rfl⟩

theorem encodeLoop_goes {t : BlockTransform} {o : Operands} {v : EncLocals} {q : Ports} {p' : Pos} {q' : Ports}
    (h : encodeLoop t o v q = .goes p' q') : q' = q ∧ p'.rank = 1 := by
  simp only [encodeLoop] at h
  split at h <;> cases h
  exact ⟨rfl, if_pos ⟨rfl, Nat.pos_of_ne_zero ‹_›⟩⟩

theorem encode_descends (t : BlockTransform) (cfg : Params) (o : Operands) : Descends (encodeLine t cfg o) := by
  intro p q p' q' h
  cases p with
  | start =>
    simp only [encodeLine] at h
    split at h
    · cases h
    · split at h
      · cases h
      · cases h; simp [Ports.potential, Pos.rank]
  | encOut pending v =>
    simp only [encodeLine] at h
    split at h
    · rename_i q₁ hw
      obtain rfl : _ = q₁ := congrArg Prod.snd hw
      obtain ⟨rfl, hr⟩ := encodeLoop_goes h
      simp only [Ports.potential, hr, Ports.soutWrite_sin, Ports.soutWrite_rnd]; simp only [Pos.rank]; omega
    · cases h
  | encIn got v =>
    simp only [encodeLine] at h
    split at h
    · cases h
    · rename_i hd
      have hs := sinRead_done hd
      have hp := plainWidth_pos o.uM
      have hq : q' = (q.sinRead (min (plainWidth o.uM) v.remaining) got).2 ∧ p'.rank ≤ 3 := by
        cases t with
        | elg => cases h; exact ⟨rfl, le_rfl⟩
        | _ => obtain ⟨rfl, hr⟩ := encodeBlock_goes h; exact ⟨rfl, by omega⟩
      obtain ⟨rfl, hr⟩ := hq
      simp only [Ports.potential, Ports.sinRead_rnd]
      generalize p'.rank = k at hr ⊢
      simp only [Pos.rank]
      split
      · rename_i hg; simp only [hg.1, List.length_nil] at hs ⊢; omega
      · omega
  | encDraw m v =>
    simp only [encodeLine] at h
    split at h
    · simp only [encodeDraw] at h
      split at h
      · cases h
      · rename_i k q₁ hd
        have h1 := randRange2_some_length (congrArg Prod.fst hd)
        obtain rfl : _ = q₁ := congrArg Prod.snd hd
        obtain ⟨rfl, hr⟩ := encodeBlock_goes h
        simp only [Ports.potential, hr, Ports.randRange2_sin, Ports.randRange2_rnd]; simp only [Pos.rank]; omega
    · cases h
  | _ => cases h

theorem decodeLoop_goes {v : DecLocals} {q : Ports} {p' : Pos} {q' : Ports}
    (h : decodeLoop v q = .goes p' q') : q' = q ∧ p'.rank = 1 := by
  simp only [decodeLoop] at h
  split at h
  · split at h <;> cases h
  · cases h; exact ⟨rfl, if_pos ⟨rfl, Nat.pos_of_ne_zero ‹_›⟩⟩

theorem decodeHeader_goes {t : BlockTransform} {cfg : Params} {o : Operands} {hd : List Byte} {q : Ports} {p' : Pos}
    {q' : Ports} (h : decodeHeader t cfg o hd q = .goes p' q') : q' = q ∧ p'.rank = 1 := by
  simp only [decodeHeader] at h
  split at h
  · cases h
  · split at h
    · cases h
    · split at h
      · cases h
      · exact decodeLoop_goes h

theorem decodeBlock_goes {t : BlockTransform} {o : Operands} {blk : List Byte} {v : DecLocals} {q : Ports} {p' : Pos}
    {q' : Ports} (h : decodeBlock t o blk v q = .goes p' q') : q' = q ∧ p'.rank = 2 := by
  simp only [decodeBlock] at h
  split at h
  · cases h
  · split at h <;> cases h
    exact ⟨rfl, rfl⟩

theorem decode_descends (t : BlockTransform) (cfg : Params) (o : Operands) : Descends (decodeLine t cfg o) := by
  intro p q p' q' h
  cases p with
  | start =>
    simp only [decodeLine] at h
    split at h <;> cases h
    simp [Ports.potential, Pos.rank]
  | decHead got =>
    simp only [decodeLine] at h
    split at h
    · cases h
    · rename_i hd
      have hs := sinRead_done hd
      split at h
      · cases h
      · obtain ⟨rfl, hr⟩ := decodeHeader_goes h
        simp only [Ports.potential, hr, Ports.sinRead_rnd]; simp only [Pos.rank]; omega
  | decIn got v =>
    simp only [decodeLine] at h
    split at h
    · cases h
    · rename_i hd
      have hs := sinRead_done hd
      have hb := blockSize_pos t o.uM
      split at h
      · cases h
      · obtain ⟨rfl, hr⟩ := decodeBlock_goes h
        simp only [Ports.potential, hr, Ports.sinRead_rnd]
        simp only [Pos.rank]
        split
        · rename_i hg; simp only [hg.1, List.length_nil] at hs ⊢; omega
        · omega
  | decOut pending v =>
    simp only [decodeLine] at h
    split at h
    · rename_i q₁ hw
      obtain rfl : _ = q₁ := congrArg Prod.snd hw
      obtain ⟨rfl, hr⟩ := decodeLoop_goes h
      simp only [Ports.potential, hr, Ports.soutWrite_sin, Ports.soutWrite_rnd]; simp only [Pos.rank]; omega
    · cases h
  | _ => cases h

theorem padLoop_goes {o : Operands} {left : Nat} {q : Ports} {p' : Pos} {q' : Ports}
    (h : padLoop o left q = .goes p' q') : q' = q ∧ p'.rank = 1 := by
  simp only [padLoop] at h
  split at h <;> cases h
  exact ⟨rfl, rfl⟩

theorem pad_descends (cfg : Params) (o : Operands) : Descends (padLine cfg o) := by
  intro p q p' q' h
  cases p with
  | start =>
    simp only [padLine] at h
    split at h <;> cases h
    simp [Ports.potential, Pos.rank]
  | padIn left =>
    simp only [padLine] at h
    split at h <;> cases h
    rename_i b sin hs
    simp only [Ports.potential, Pos.rank, hs, List.length_cons]; omega
  | padKey b left =>
    simp only [padLine] at h
    split at h <;> cases h
    simp [Ports.potential, Pos.rank]
  | padOut pending left =>
    simp only [padLine] at h
    split at h
    · rename_i q₁ hw
      obtain rfl : _ = q₁ := congrArg Prod.snd hw
      obtain ⟨rfl, hr⟩ := padLoop_goes h
      simp only [Ports.potential, hr, Ports.soutWrite_sin, Ports.soutWrite_rnd]; simp only [Pos.rank]; omega
    · cases h
  | _ => cases h

theorem unpadLoop_goes {o : Operands} {v : DecLocals} {q : Ports} {p' : Pos} {q' : Ports}
    (h : unpadLoop o v q = .goes p' q') : q' = q ∧ p'.rank = 1 := by
  simp only [unpadLoop] at h
  split at h
  · split at h <;> cases h
  · cases h; exact ⟨rfl, rfl⟩

theorem unpadHeader_goes {cfg : Params} {o : Operands} {hd : List Byte} {q : Ports} {p' : Pos}
    {q' : Ports} (h : unpadHeader cfg o hd q = .goes p' q') : q' = q ∧ p'.rank = 1 := by
  simp only [unpadHeader] at h
  split at h
  · cases h
  · split at h
    · cases h
    · exact unpadLoop_goes h

theorem unpad_descends (cfg : Params) (o : Operands) : Descends (unpadLine cfg o) := by
  intro p q p' q' h
  cases p with
  | start => simp only [unpadLine] at h; cases h; simp [Ports.potential, Pos.rank]
  | unpadHead got =>
    simp only [unpadLine] at h
    split at h
    · cases h
    · rename_i hd
      have hs := sinRead_done hd
      split at h
      · cases h
      · obtain ⟨rfl, hr⟩ := unpadHeader_goes h
        simp only [Ports.potential, hr, Ports.sinRead_rnd]; simp only [Pos.rank]; omega
  | unpadIn v =>
    simp only [unpadLine] at h
    split at h
    · cases h
    · rename_i c sin hs
      split at h
      · cases h; simp only [Ports.potential, Pos.rank, hs, List.length_cons]; omega
      · obtain ⟨rfl, hr⟩ := unpadLoop_goes h
        simp only [Ports.potential, hr, hs, List.length_cons]; simp only [Pos.rank]; omega
  | unpadKey c v =>
    simp only [unpadLine] at h
    split at h <;> cases h
    simp [Ports.potential, Pos.rank]
  | unpadOut pending v =>
    simp only [unpadLine] at h
    split at h
    · rename_i q₁ hw
      obtain rfl : _ = q₁ := congrArg Prod.snd hw
      obtain ⟨rfl, hr⟩ := unpadLoop_goes h
      simp only [Ports.potential, hr, Ports.soutWrite_sin, Ports.soutWrite_rnd]; simp only [Pos.rank]; omega
    · cases h
  | _ => cases h

/-- Every port operation of every command descends. -/
theorem lineOf_descends (i : Instr) (cfg : Params) (o : Operands) : Descends (lineOf i cfg o) := by
  cases i with
  | modexp signed => exact portless_descends _ cfg o
  | egcd legacy => exact portless_descends _ cfg o
  | modinv => exact portless_descends _ cfg o
  | primetest => exact primetest_descends cfg o
  | encodeRsa => exact encode_descends .rsa cfg o
  | encodeElg => exact encode_descends .elg cfg o
  | encodeTp => exact encode_descends .tp cfg o
  | encodeOtp => exact pad_descends cfg o
  | decodeRsa => exact decode_descends .rsa cfg o
  | decodeElg => exact decode_descends .elg cfg o
  | decodeTp => exact decode_descends .tp cfg o
  | decodeOtp => exact unpad_descends cfg o

end Sys2Proof.Machine
end

