-- ==== Sys2Proof/Laws/PerInstr.lean ====
section
/-! SUPPORT. The statements made per command. `CommandWordIsLegal`: the command word of a command has its reserved bits
63:14 clear (30_encoding.md rule R60), and so fits fourteen bits. -/

namespace Sys2Proof.Laws.CommandWordIsLegal

/-- The command word of `i` has bits 63:14 clear. -/
def Statement (i : Instr) : Prop := fieldReserved (encode i) = 0#50 ∧ (encode i).toNat < 2 ^ 14

theorem modexp (signed : Bool) : Statement (.modexp signed) := by cases signed <;> exact ⟨rfl, by decide⟩

theorem egcd (legacy : Bool) : Statement (.egcd legacy) := by cases legacy <;> exact ⟨rfl, by decide⟩

theorem modinv : Statement .modinv := ⟨rfl, by decide⟩

theorem primetest : Statement .primetest := ⟨rfl, by decide⟩

theorem encodeRsa : Statement .encodeRsa := ⟨rfl, by decide⟩

theorem encodeElg : Statement .encodeElg := ⟨rfl, by decide⟩

theorem encodeTp : Statement .encodeTp := ⟨rfl, by decide⟩

theorem encodeOtp : Statement .encodeOtp := ⟨rfl, by decide⟩

theorem decodeRsa : Statement .decodeRsa := ⟨rfl, by decide⟩

theorem decodeElg : Statement .decodeElg := ⟨rfl, by decide⟩

theorem decodeTp : Statement .decodeTp := ⟨rfl, by decide⟩

theorem decodeOtp : Statement .decodeOtp := ⟨rfl, by decide⟩

end Sys2Proof.Laws.CommandWordIsLegal
end

