-- ==== Sys2Proof/Laws/Primality.lean ====
section
/-! SUPPORT. The prime table holds every prime that its length reaches, and a witness set is exact once the table alone
decides every 64-bit number. -/

namespace Sys2Proof.Machine

theorem noDivisorFrom_of_prime {p : Nat} (hp : p.Prime) (fuel d : Nat) (hd : 2 ≤ d) : noDivisorFrom fuel d p = true := by
  induction fuel generalizing d with
  | zero => rfl
  | succ fuel ih =>
    simp only [noDivisorFrom]
    split
    · rfl
    · split
      · rename_i h0
        have : d = p := ((Nat.dvd_prime hp).1 (Nat.dvd_of_mod_eq_zero h0)).resolve_left (by omega)
        nlinarith
      · exact ih (d + 1) (by omega)

/-- A prime within reach of the search is found. -/
theorem mem_primesFrom {p : Nat} (hp : p.Prime) (fuel need c : Nat) (hc : c ≤ p) (hf : p < c + fuel)
    (hn : p < c + need) : p ∈ primesFrom fuel need c := by
  induction fuel generalizing need c with
  | zero => omega
  | succ fuel ih =>
    cases need with
    | zero => omega
    | succ need =>
      simp only [primesFrom]
      rcases Nat.eq_or_lt_of_le hc with rfl | h
      · rw [noDivisorFrom_of_prime hp _ _ (le_refl 2)]
        exact List.mem_cons_self ..
      · split
        · exact List.mem_cons_of_mem _ (ih need (c + 1) h (by omega) (by omega))
        · exact ih (need + 1) (c + 1) h (by omega) (by omega)

theorem mem_smallPrimes {p nsp : Nat} (hp : p.Prime) (h : p < nsp) : p ∈ smallPrimes nsp :=
  mem_primesFrom hp _ _ _ hp.two_le (by have := Nat.lt_two_pow_self (n := nsp); omega) (by omega)

theorem not_dvd_of_tableVerdict_none {n : Nat} {table : List Nat} (h : tableVerdict n table = none) :
    ∀ p ∈ table, ¬ p ∣ n := by
  induction table with
  | nil => simp
  | cons q table ih =>
    simp only [tableVerdict] at h
    split at h
    · cases h
    · split at h
      · cases h
      · rename_i h1
        intro p hp
        rcases List.mem_cons.1 hp with rfl | hp
        · exact fun hd => h1 (Nat.mod_eq_zero_of_dvd hd)
        · exact ih h p hp

/-- With a table of at least `2^32` primes no 64-bit composite reaches the witness rounds, so the empty witness set is
exact. -/
theorem exact_of_long_table {cfg : Params} (hn : 2 ^ 32 ≤ cfg.nsp) (hw : cfg.detWitnesses = []) : cfg.Exact := by
  intro n h2 h64 ht
  have hprime : n.Prime := by
    by_contra hc
    have hsq := Nat.minFac_sq_le_self (by omega) hc
    have hlt : n.minFac < 2 ^ 32 := by
      by_contra hge
      have : (2 ^ 32) ^ 2 ≤ n.minFac ^ 2 := Nat.pow_le_pow_left (by omega) 2
      omega
    exact not_dvd_of_tableVerdict_none ht n.minFac
      (mem_smallPrimes (Nat.minFac_prime (by omega)) (by omega)) (Nat.minFac_dvd n)
  simp [hprime, hw]

end Sys2Proof.Machine
end

