-- ==== Sys2Proof/Laws/Run.lean ====
section
/-! SUPPORT. What final and stuck states are, and the equations of a run. -/

namespace Sys2Proof.Machine

theorem State.final_iff (s : State) : s.final = true ↔ s.agenda = [] ∧ s.status.busy = false := by
  simp [State.final]

/-- A stuck state is busy, and its step leads back to it. -/
theorem State.stuck_iff (s : State) : s.stuck = true ↔ s.status.busy = true ∧ step s = .next s := by
  simp only [State.stuck, Bool.and_eq_true]
  constructor
  · rintro ⟨hb, h⟩
    split at h
    · rename_i t ht
      rw [of_decide_eq_true h] at ht
      exact ⟨hb, ht⟩
    · cases h
    · cases h
  · rintro ⟨hb, h⟩
    simp [hb, h]

theorem State.runEnd_none {s : State} {owed : Nat} (h : s.runEnd owed = none) : s.final = false ∧ s.stuck = false := by
  simp only [State.runEnd] at h
  split at h
  · cases h
  · split at h
    · cases h
    · rename_i hf hs
      exact ⟨Bool.eq_false_iff.2 hf, Bool.eq_false_iff.2 hs⟩

/-- A run that has come to an end takes no further step. -/
theorem runFrom_of_runEnd {s : State} {owed : Nat} {e : RunEnd} (h : s.runEnd owed = some e) (steps : Nat) :
    runFrom steps owed s = e := by
  cases steps <;> simp [runFrom, h]

/-- A run that has not takes one. -/
theorem runFrom_next {s t : State} {owed : Nat} (h : s.runEnd owed = none) (ht : step s = .next t) (steps : Nat) :
    runFrom (steps + 1) owed s = runFrom steps (owedAfter owed s t) t := by
  simp [runFrom, h, ht]

end Sys2Proof.Machine
end

