-- ==== Sys2Proof/Tests/Slice0.lean ====
section
/-! SUPPORT. The model's own tests: well-formedness, command words written out from 30_encoding.md, single steps whose
expected values are vectors of 95_test_vectors.md, and a witness for the hypotheses of each statement. -/

open Sys2Proof Sys2Proof.Machine

namespace Sys2Proof.Tests

-- One theorem after another: each `decide +kernel` would hold a thread of its own.
set_option Elab.async false

/-! ### Helpers -/

/-- A machine that has just accepted the word `w` with the operands `o`, before its first line. -/
def startOf (w : Word) (o : Operands) (q : Ports) : State :=
  { State.reset with
    cmd := w
    ops := o
    status := ⟨true, false, false, false⟩
    ctx := some ⟨w, o, .start⟩
    ports := q }

/-- Ports that offer these bytes on `SIN` and `KIN`, these words on `RND`, and accept `room` bytes. -/
def offers (sin kin : List Byte) (rnd : List Word) (room : Nat) : Ports := ⟨sin, kin, rnd, [], room⟩

/-- The next state, if there is one. -/
def nextOf : Host.Outcome State Fault Refusal → Option State
  | .next t => some t
  | .fault _ => none
  | .refused _ => none

/-- The state after an outcome that gives one. -/
def after (r : Host.Outcome State Fault Refusal) : State := (nextOf r).getD State.reset

theorem next_after {r : Host.Outcome State Fault Refusal} (h : (nextOf r).isSome) : r = .next (after r) := by
  cases r with
  | next t => rfl
  | fault f => cases h
  | refused f => cases h

/-- What a test looks at: `R0`, `R1`, `R2`, `STATUS`, `ERRCODE`. -/
def registersAfter (r : Host.Outcome State Fault Refusal) : Option (List Word) :=
  (nextOf r).map fun t => [t.r0, t.r1, t.r2, t.regRead 0x01, t.regRead 0x02]

/-- The bytes accepted on `SOUT`. -/
def emittedBy (r : Host.Outcome State Fault Refusal) : Option (List Byte) := (nextOf r).map fun t => t.ports.sout

/-- Operands with these `A`, `B`, `M`, the rest 0. -/
def abm (a b m : Word) : Operands := { Operands.zero with a := a, b := b, m := m }

/-! ### Well-formedness smoke: each check refuses a term that breaks it -/

theorem test_wf_standard : Params.standard.wf = true := by decide +kernel

theorem test_wf_short_table : { Params.standard with nsp := 11 }.nspOk = false := by decide

theorem test_wf_equal_tags : { Params.standard with tagElg := Params.standard.tagRsa }.tagsOk = false := by decide

theorem test_wf_equal_tags_last : { Params.standard with tagOtp := Params.standard.tagTp }.tagsOk = false := by decide

theorem test_wf_witness_one : { Params.standard with nsp := 12, detWitnesses := [2, 1] }.witnessesOk = false := by
  decide +kernel

/-- With twelve primes the least `n` that reaches the rounds is 41: 40 is `n - 1`, 39 is below it. -/
theorem test_wf_witness_bound :
    { Params.standard with nsp := 12, detWitnesses := [40] }.witnessesOk = false ∧
      { Params.standard with nsp := 12, detWitnesses := [39] }.witnessesOk = true := by decide +kernel

theorem test_wf_refuses :
    { Params.standard with nsp := 11 }.wf = false ∧
      { Params.standard with nsp := 12, tagTp := Params.standard.tagRsa }.wf = false ∧
      { Params.standard with nsp := 12, detWitnesses := [40] }.wf = false := by decide +kernel

theorem test_wf_every_command : Instr.wf (.modexp true) = true := rfl

/-! ### Decoding: words written out field by field, reserved 63:14, `V`, `S`, `T`, `OPC` (rule R60) -/

theorem test_decode_modexp : decode (0#50 ++ 0b0#1 ++ 0b0#1 ++ 0b0000#4 ++ 0b00000001#8) = .ok (.modexp false) := by rfl

theorem test_decode_modexp_signed :
    decode (0#50 ++ 0b0#1 ++ 0b1#1 ++ 0b0000#4 ++ 0b00000001#8) = .ok (.modexp true) := by rfl

theorem test_decode_egcd : decode (0#50 ++ 0b0#1 ++ 0b0#1 ++ 0b0000#4 ++ 0b00000010#8) = .ok (.egcd false) := by rfl

theorem test_decode_egcd_legacy :
    decode (0#50 ++ 0b1#1 ++ 0b0#1 ++ 0b0000#4 ++ 0b00000010#8) = .ok (.egcd true) := by rfl

theorem test_decode_modinv : decode (0#50 ++ 0b0#1 ++ 0b0#1 ++ 0b0000#4 ++ 0b00000011#8) = .ok .modinv := by rfl

theorem test_decode_primetest : decode (0#50 ++ 0b0#1 ++ 0b0#1 ++ 0b0000#4 ++ 0b00000100#8) = .ok .primetest := by rfl

theorem test_decode_encodeRsa : decode (0#50 ++ 0b0#1 ++ 0b0#1 ++ 0b0000#4 ++ 0b00001000#8) = .ok .encodeRsa := by rfl

theorem test_decode_encodeElg : decode (0#50 ++ 0b0#1 ++ 0b0#1 ++ 0b0001#4 ++ 0b00001000#8) = .ok .encodeElg := by rfl

theorem test_decode_encodeTp : decode (0#50 ++ 0b0#1 ++ 0b0#1 ++ 0b0010#4 ++ 0b00001000#8) = .ok .encodeTp := by rfl

theorem test_decode_encodeOtp : decode (0#50 ++ 0b0#1 ++ 0b0#1 ++ 0b0011#4 ++ 0b00001000#8) = .ok .encodeOtp := by rfl

theorem test_decode_decodeRsa : decode (0#50 ++ 0b0#1 ++ 0b0#1 ++ 0b0000#4 ++ 0b00001001#8) = .ok .decodeRsa := by rfl

theorem test_decode_decodeElg : decode (0#50 ++ 0b0#1 ++ 0b0#1 ++ 0b0001#4 ++ 0b00001001#8) = .ok .decodeElg := by rfl

theorem test_decode_decodeTp : decode (0#50 ++ 0b0#1 ++ 0b0#1 ++ 0b0010#4 ++ 0b00001001#8) = .ok .decodeTp := by rfl

theorem test_decode_decodeOtp : decode (0#50 ++ 0b0#1 ++ 0b0#1 ++ 0b0011#4 ++ 0b00001001#8) = .ok .decodeOtp := by rfl

/-- Vectors of section 2.9: bits 63:14. -/
theorem test_decode_reserved_bits :
    [0x4001#64, 0x0000000100000001#64, 0x8000000000000004#64].map decode =
      [.error .reservedBits, .error .reservedBits, .error .reservedBits] := by rfl

/-- Vectors of section 2.9: no such operation. -/
theorem test_decode_no_operation :
    [0x0000#64, 0x0005#64, 0x0007#64, 0x000A#64, 0x00FF#64].map decode =
      List.replicate 5 (.error .noSuchOperation) := by rfl

/-- Vectors of section 2.9: a reserved transform. -/
theorem test_decode_reserved_transform :
    [0x0408#64, 0x0F09#64].map decode = [.error .reservedTransform, .error .reservedTransform] := by rfl

/-- Vectors of section 2.9: a modifier on an operation that does not use it. -/
theorem test_decode_stray_modifier :
    [0x2001#64, 0x1002#64, 0x0101#64, 0x1003#64, 0x2003#64, 0x1004#64, 0x0104#64, 0x1008#64, 0x2109#64].map decode =
      List.replicate 9 (.error .strayModifier) := by rfl

theorem test_decodeTableWord : decodeTableWord 64 0x2002 = some (.egcd true) ∧ decodeTableWord 16 0x0309 = some .decodeOtp ∧
    decodeTableWord 64 0x4001 = none := ⟨rfl, rfl, rfl⟩

/-- The first step from reset runs the word placed: `MODEXP` with all operands 0 raises `ModulusZero`. -/
theorem test_withFetchWord :
    registersAfter (step (State.reset.withFetchWord 64 0x0001)) = some [0, 0, 0, 0x6, 0x102] := by decide

/-! ### Commands, one run each: vectors of 95_test_vectors.md -/

theorem test_modexp_K20 :
    registersAfter (exec (.modexp true) (startOf 0x1001 (abm 0x8000000000000000 1 1000) .empty)) =
      some [192, 0, 0, 0x2, 0] := by decide +kernel

theorem test_modexp_K13 :
    registersAfter (exec (.modexp false)
      (startOf 0x0001 (abm 12345678901234567890 9876543210987654321 0xFFFFFFFFFFFFFFC5) .empty)) =
      some [3148988572257163722, 0, 0, 0x2, 0] := by decide +kernel

theorem test_egcd_E18 :
    registersAfter (exec (.egcd true) (startOf 0x2002 (abm 12200160415121876738 7540113804746346429 0) .empty)) =
      some [1, 0xD807F2255E458788, 0x40ABCFB3C0325745, 0x2, 0] := by decide +kernel

theorem test_egcd_E3 :
    registersAfter (exec (.egcd true) (startOf 0x2002 (abm 18 30 0) .empty)) = some [0, 0, 0, 0x6, 0x104] := by
  decide +kernel

theorem test_modinv_I3 :
    registersAfter (exec .modinv (startOf 0x0003 (abm 17 0 3120) .empty)) = some [2753, 0, 0, 0x2, 0] := by
  decide +kernel

theorem test_modinv_I13 :
    registersAfter (exec .modinv (startOf 0x0003 (abm 0 0 0) .empty)) = some [0, 0, 0, 0x6, 0x102] := by decide +kernel

theorem test_primetest_P30 :
    registersAfter (exec .primetest (startOf 0x0004 (abm 3825123056546413051 0 0) .empty)) =
      some [0, 0, 0, 0x2, 0] := by decide +kernel

/-- Vector P-20: a false positive that the random path allows. -/
theorem test_primetest_P20 :
    registersAfter (exec .primetest (startOf 0x0004 (abm 1038361 1 0) (offers [] [] [703] 0))) =
      some [1, 0, 0, 0x2, 0] := by decide +kernel

/-- The operands of vectors C-3 and C-5, for `len` bytes. -/
def rsaEncode (len : Word) : Operands := { abm 0 17 3233 with len := len }

/-- The 28 bytes of vector C-5. -/
def goodRsa : List Byte :=
  [0x52, 0x53, 0x41, 0x31, 0x01, 0x02, 0xA1, 0x0C, 0, 0, 0, 0, 0, 0, 3, 0, 0, 0, 0, 0, 0, 0,
    0x0B, 0xB8, 0x0C, 0x6B, 0x07, 0x3D]

theorem test_encodeRsa_C5 :
    emittedBy (exec .encodeRsa (startOf 0x0008 (rsaEncode 3) (offers [0x48, 0x69, 0x21] [] [] 40))) =
      some goodRsa := by decide +kernel

theorem test_encodeRsa_C3 :
    registersAfter (exec .encodeRsa (startOf 0x0008 (rsaEncode 1) (offers [0x41] [] [] 24))) =
      some [24, 1, 1, 0x2, 0] := by decide +kernel

/-- The operands of vector C-6, for a container of `len` bytes. -/
def rsaDecode (len : Word) : Operands := { abm 0 2753 3233 with len := len }

theorem test_decodeRsa_C6 :
    (nextOf (exec .decodeRsa (startOf 0x0009 (rsaDecode 28) (offers goodRsa [] [] 3)))).map
      (fun t => (t.ports.sout, [t.r0, t.r1, t.r2])) = some ([0x48, 0x69, 0x21], [3, 3, 3]) := by decide +kernel

/-- Vector X-11: the second block is out of range; the third stays on `SIN`. -/
theorem test_decodeRsa_X11 :
    (nextOf (exec .decodeRsa
      (startOf 0x0009 (rsaDecode 28) (offers (goodRsa.take 24 ++ [0x00, 0x02, 0x07, 0x3D]) [] [] 3)))).map
      (fun t => (t.ports.sout, t.ports.sin, t.regRead 0x02)) = some ([0x48], [0x07, 0x3D], 0x214) := by decide +kernel

/-- The operands of vector C-11. -/
def elgEncode : Operands := { abm 2 132 467 with len := 2 }

/-- The 42 bytes of vector C-11. -/
def goodElg : List Byte :=
  [0x45, 0x4C, 0x47, 0x31, 0x01, 0x02, 0xD3, 0x01, 0, 0, 0, 0, 0, 0, 2, 0, 0, 0, 0, 0, 0, 0,
    0x1D, 0, 0, 0, 0, 0, 0, 0, 0x01, 0x0E, 0x2D, 0, 0, 0, 0, 0, 0, 0, 0x01, 0x9B]

theorem test_encodeElg_C11 :
    (nextOf (exec .encodeElg (startOf 0x0108 elgEncode (offers [0x48, 0x69] [] [211, 1000, 7, 99] 42)))).map
      (fun t => (t.ports.sout, t.ports.rnd, [t.r0, t.r1, t.r2])) = some (goodElg, [99], [42, 2, 2]) := by decide +kernel

theorem test_encodeElg_X15 :
    registersAfter (exec .encodeElg
      (startOf 0x0108 { abm 2 2 3 with len := 1 } (offers [0x01] [] [5] 0))) = some [0, 0, 0, 0x6, 0x107] := by
  decide +kernel

/-- The operands of vector C-12. -/
def elgDecode : Operands := { abm 0 127 467 with len := 42 }

theorem test_decodeElg_C12 :
    (nextOf (exec .decodeElg (startOf 0x0109 elgDecode (offers goodElg [] [] 2)))).map
      (fun t => (t.ports.sout, [t.r0, t.r1, t.r2])) = some ([0x48, 0x69], [2, 2, 2]) := by decide +kernel

/-- Vector X-19: the shared value is not invertible. -/
theorem test_decodeElg_X19 :
    registersAfter (exec .decodeElg (startOf 0x0109 { abm 0 3 469 with len := 32 }
      (offers ([0x45, 0x4C, 0x47, 0x31, 0x01, 0x02, 0xD5, 0x01, 0, 0, 0, 0, 0, 0, 1, 0, 0, 0, 0, 0, 0, 0] ++
        [0x07, 0, 0, 0, 0, 0, 0, 0, 0x00, 0x05]) [] [] 9))) = some [0, 0, 0, 0x6, 0x105] := by decide +kernel

/-- The operands of vector C-14. -/
def tpEncode : Operands := { abm 0 3 257 with e1 := 5, e2 := 171, len := 1 }

/-- The 24 bytes of vector C-14. -/
def goodTp : List Byte :=
  [0x53, 0x48, 0x4D, 0x31, 0x01, 0x02, 0x01, 0x01, 0, 0, 0, 0, 0, 0, 1, 0, 0, 0, 0, 0, 0, 0, 0x00, 0x62]

theorem test_encodeTp_C14 :
    emittedBy (exec .encodeTp (startOf 0x0208 tpEncode (offers [0x48] [] [] 24))) = some goodTp := by decide +kernel

/-- The operands of vector C-15. -/
def tpDecode : Operands := { abm 0 205 257 with len := 24 }

theorem test_decodeTp_C15 :
    emittedBy (exec .decodeTp (startOf 0x0209 tpDecode (offers goodTp [] [] 1))) = some [0x48] := by decide +kernel

/-- The operands of vector C-20 and, with `len` 14, of vector C-21. -/
def padOps (len klen : Word) : Operands := { Operands.zero with len := len, klen := klen }

/-- The 14 bytes of vector C-20. -/
def goodPad : List Byte := [0x4F, 0x54, 0x50, 0x31, 2, 0, 0, 0, 0, 0, 0, 0, 0xB7, 0x66]

theorem test_encodeOtp_C20 :
    emittedBy (exec .encodeOtp (startOf 0x0308 (padOps 2 2) (offers [0x48, 0x69] [0xFF, 0x0F] [] 14))) =
      some goodPad := by decide +kernel

theorem test_encodeOtp_X23 :
    registersAfter (exec .encodeOtp (startOf 0x0308 (padOps 5 4) .empty)) = some [0, 0, 0, 0x6, 0x106] := by
  decide +kernel

theorem test_decodeOtp_C21 :
    emittedBy (exec .decodeOtp (startOf 0x0309 (padOps 14 2) (offers goodPad [0xFF, 0x0F] [] 2))) =
      some [0x48, 0x69] := by decide +kernel

/-- Vector X-26: a surplus payload byte takes no key byte. -/
theorem test_decodeOtp_X26 :
    (nextOf (exec .decodeOtp (startOf 0x0309 (padOps 19 6)
      (offers ([0x4F, 0x54, 0x50, 0x31, 5, 0, 0, 0, 0, 0, 0, 0, 0xED, 0xC0, 0xC9, 0xC9, 0x60, 0x11, 0x22])
        [0xA5, 0xA5, 0xA5, 0xA5, 0x0F, 0xEE] [] 5)))).map
      (fun t => (t.ports.sout, t.ports.kin, [t.r0, t.r1, t.r2])) =
      some ([0x48, 0x65, 0x6C, 0x6C, 0x6F], [0xEE], [5, 7, 5]) := by decide +kernel

/-! ### The register port -/

/-- Vector G-2: only `IE` of `CTRL` is writable. -/
theorem test_ctrl_write : (State.reset.regWrite 0x00 0xFFFFFFFFFFFFFFFF).regRead 0x00 = 1 := by decide

/-- Vector G-8: `ERR` and `ERRCODE` outlive `DONE`. -/
theorem test_ack_keeps_error :
    (((State.reset.raise .modulusZero).regWrite 0x01 0x2).regRead 0x01,
      ((State.reset.raise .modulusZero).regWrite 0x01 0x2).regRead 0x02) = (0x4, 0x102) := by decide

/-- Program P5: a `CMD` write while busy leaves `STATUS = 0x9` and `CMD` as it was. -/
theorem test_cmd_write_while_busy :
    (((startOf 0x0008 (rsaEncode 1) .empty).regWrite 0x03 0x0003).regRead 0x01,
      ((startOf 0x0008 (rsaEncode 1) .empty).regWrite 0x03 0x0003).regRead 0x03) = (0x9, 0x0008) := by decide

/-- Vector P-30: the witness 31 fails, and only 37 proves it. -/
theorem test_witness_round_P30 :
    witnessProves 3825123056546413051 31 = false ∧ witnessProves 3825123056546413051 37 = true := by decide +kernel

/-- Rule R79: equal operands give `(a, 0, 1)`, and `(18, 30)` gives `(6, 2, -1)` (vector E-2). -/
theorem test_egcd_pairs : egcd 7 7 = (7, 0, 1) ∧ egcd 18 30 = (6, 2, -1) := by decide

/-- A script of rule R70 that runs to its end: `MODEXP` with `M = 0`, then `WAIT`. -/
theorem test_run_final :
    (match runScript 3 [.cmd 0x0001, .wait] State.reset with
      | .final t => some (t.regRead 0x02)
      | _ => none) = some 0x102 := by decide +kernel

/-- Rule R158: a host that waits for `DONE` before it accepts output is stuck. -/
theorem test_run_stuck :
    (match runScript 3 [.cmd 0x0308, .wait] State.reset with
      | .stuck t => some (t.regRead 0x01)
      | _ => none) = some 0x1 := by decide +kernel

/-- Rules R150, R163: reset ends a command without its completion event, so the run has not run to its end. -/
theorem test_run_discarded :
    (match runFrom 4 0 { State.reset with agenda := [.regWrite 0x03 0x0308, .engine, .reset] } with
      | .discarded t => some (t.regRead 0x01)
      | _ => none) = some 0 := by decide +kernel

/-- Rule R92, vector RR-8. -/
theorem test_draw_RR8 : randRange2 1019 [1020, 1016, 1015] = (some 1017, []) := by decide

/-- `ACK` of rule R70 is a write of 2 to `STATUS`, with the engine moving after it. -/
theorem test_script_ack : Script.agenda [.ack, .wait] = [.regWrite 1 2, .engine, .waitDone] := rfl

/-! ### Witnesses: each statement with hypotheses has a state and operands that meet them, clause by clause -/

/-- `MODEXP` of vector K-1, accepted. -/
def runK1 : State := startOf 0x0001 (abm 2 16 17) .empty

/-- `ENCODE.RSA` of program P5: header accepted, waiting at `SinRead(1)`. -/
def waitingRsa : State := after (exec .encodeRsa (startOf 0x0008 (rsaEncode 1) (offers [] [] [] 24)))

theorem test_waitingRsa :
    waitingRsa.ctx = some ⟨0x0008, rsaEncode 1, .encIn [] ⟨1, 0⟩⟩ ∧ waitingRsa.regRead 0x01 = 0x1 ∧
      waitingRsa.ports.sout.length = 22 := by decide +kernel

theorem witness_StepRunsTheAcceptedCommand :
    (runK1.status.busy = true ∧ runK1.ctx = some ⟨0x0001, abm 2 16 17, .start⟩ ∧
      decode (0x0001 : Word) = .ok (.modexp false) ∧ runK1.agenda = [] ∧ runK1.status.done = false ∧
      { runK1 with agenda := [.engine] }.agenda = .engine :: [] ∧
      { runK1 with agenda := [.waitDone] }.agenda = .waitDone :: []) ∧
    ((State.reset.accept 0).status.busy = true ∧ (State.reset.accept 0).ctx = some ⟨0, .zero, .start⟩ ∧
      decode (0 : Word) = .error .noSuchOperation ∧ (State.reset.accept 0).agenda = [] ∧
      (State.reset.accept 0).status.done = false) ∧
    (State.reset.status.busy = false ∧ State.reset.agenda = [] ∧ State.reset.status.done = false) ∧
    (runK1.complete 1 0 0).status.done = true ∧
    { runK1 with agenda := [.regWrite 0x04 5] }.agenda = .regWrite 0x04 5 :: [] ∧
    { runK1 with agenda := [.regRead 0x0C] }.agenda = .regRead 0x0C :: [] ∧
    { runK1 with agenda := [.offerSin [0x41]] }.agenda = .offerSin [0x41] :: [] ∧
    { runK1 with agenda := [.offerKin [0x41]] }.agenda = .offerKin [0x41] :: [] ∧
    { runK1 with agenda := [.offerRnd [7]] }.agenda = .offerRnd [7] :: [] ∧
    { runK1 with agenda := [.acceptSout 2] }.agenda = .acceptSout 2 :: [] ∧
    { runK1 with agenda := [.withdrawSin] }.agenda = .withdrawSin :: [] ∧
    { runK1 with agenda := [.withdrawKin] }.agenda = .withdrawKin :: [] ∧
    { runK1 with agenda := [.reset] }.agenda = .reset :: [] := by
  refine ⟨⟨rfl, rfl, rfl, rfl, rfl, rfl, rfl⟩, ⟨rfl, rfl, rfl, rfl, rfl⟩, ⟨rfl, rfl, rfl⟩, ?_⟩
  decide

theorem witness_IllegalWordCompletesWithIllegalCommand :
    State.reset.status.busy = false ∧ (∀ i, decode (0x4000 : Word) ≠ .ok i) ∧ (∀ i, decode (0x0000 : Word) ≠ .ok i) ∧
      (∀ i, decode (0x0408 : Word) ≠ .ok i) ∧ (∀ i, decode (0x1002 : Word) ≠ .ok i) :=
  ⟨rfl, fun _ => nofun, fun _ => nofun, fun _ => nofun, fun _ => nofun⟩

theorem witness_AcceptLatchesOperands :
    State.reset.status.busy = false ∧ decode (0x0001 : Word) = .ok (.modexp false) := ⟨rfl, rfl⟩

theorem witness_CmdWriteWhileBusySetsOnlyOvr : waitingRsa.status.busy = true := by decide +kernel

theorem witness_RegisterAccessesHaveOnlyTheirOwnEffects :
    { State.reset with agenda := [.regRead 0x01] }.agenda = .regRead 0x01 :: [] ∧
      (0x04 ≤ 0x04 ∧ 0x04 ≤ 0x0A) ∧ (0x04 ≤ 0x0A ∧ 0x0A ≤ 0x0A) ∧ (0x02 = 0x02 ∨ 0x0B ≤ 0x02) ∧
      (0x0B = 0x02 ∨ 0x0B ≤ 0x0B) ∧ ((0x04 : Nat) ≠ 0x01 ∧ (0x04 : Nat) ≠ 0x03 ∧ (0x0A : Nat) ≠ 0x04) := by decide

theorem witness_ReservedIndicesAndBitsReadZero :
    (0x0B = 0x0B ∨ 0x0F ≤ 0x0B) ∧ (0x0F = 0x0B ∨ 0x0F ≤ 0x0F) ∧ State.reset.status.busy = false := by decide

theorem witness_ErrcodeReadsClassAndCause :
    State.reset.errcode = none ∧ (State.reset.raise .containerShort).errcode = some .containerShort := ⟨rfl, rfl⟩

theorem witness_PartRegisterAccessIsRefused :
    { State.reset with agenda := [.partAccess 4 32] }.agenda = .partAccess 4 32 :: [] := rfl

theorem witness_OnlyACmdWriteStartsACommand :
    let s := { State.reset with agenda := [.regWrite 0x03 0x0001] }
    step s = .next (after (step s)) ∧ s.status.busy = false ∧ (after (step s)).status.busy = true :=
  ⟨next_after (by decide), by decide, by decide⟩

theorem witness_EveryStepKeepsTheInvariant :
    waitingRsa.inv = true ∧ step waitingRsa = .next (after (step waitingRsa)) ∧
      { waitingRsa with agenda := [.offerSin [0x41], .engine] }.inv = true :=
  ⟨by decide +kernel, next_after (by decide +kernel), by decide +kernel⟩

theorem witness_NoStepFaultsUnderTheInvariant : runK1.inv = true ∧ State.reset.inv = true := by decide

theorem witness_CommandsLeaveOtherRegistersAlone :
    exec (.modexp false) runK1 = .next (after (exec (.modexp false) runK1)) := next_after (by decide +kernel)

theorem witness_ResultsAreWrittenOnlyAtSuccess :
    (exec .encodeRsa waitingRsa = .next (after (exec .encodeRsa waitingRsa)) ∧
      (after (exec .encodeRsa waitingRsa)).ctx ≠ none) ∧
    (exec (.modexp false) runK1 = .next (after (exec (.modexp false) runK1)) ∧
      (after (exec (.modexp false) runK1)).ctx = none) ∧
    (exec .modinv runK1 = .next (after (exec .modinv runK1)) ∧
      exec .modinv (startOf 0x0003 (abm 0 0 7) .empty) =
        .next (after (exec .modinv (startOf 0x0003 (abm 0 0 7) .empty))) ∧
      (after (exec .modinv (startOf 0x0003 (abm 0 0 7) .empty))).ctx = none ∧
      (after (exec .modinv (startOf 0x0003 (abm 0 0 7) .empty))).errcode ≠ none) :=
  ⟨⟨next_after (by decide +kernel), by decide +kernel⟩, ⟨next_after (by decide +kernel), by decide +kernel⟩,
    next_after (by decide +kernel), next_after (by decide +kernel), by decide +kernel, by decide +kernel⟩

theorem witness_ResultRegistersChangeOnlyAtCompletion :
    (step runK1 = .next (after (step runK1)) ∧ (after (step runK1)).r0 ≠ runK1.r0) ∧
    (let s := { State.reset with r1 := 5, agenda := [.reset] }
     step s = .next (after (step s)) ∧ (after (step s)).r1 ≠ s.r1) :=
  ⟨⟨next_after (by decide +kernel), by decide +kernel⟩, next_after (by decide), by decide⟩

theorem witness_CommandsRaiseOnlyTheirOwnCauses :
    let s := startOf 0x2002 (abm 18 30 0) .empty
    exec (.egcd true) s = .next (after (exec (.egcd true) s)) ∧ (after (exec (.egcd true) s)).ctx = none ∧
      (after (exec (.egcd true) s)).errcode = some .egcdOrder :=
  ⟨next_after (by decide +kernel), by decide +kernel, by decide +kernel⟩

theorem witness_CommandsTouchOnlyTheirPorts :
    exec (.modexp false) runK1 = .next (after (exec (.modexp false) runK1)) ∧ usesStreams (.modexp false) = false ∧
      exec .encodeRsa waitingRsa = .next (after (exec .encodeRsa waitingRsa)) ∧ usesKin .encodeRsa = false ∧
      usesRnd .encodeRsa = false :=
  ⟨next_after (by decide +kernel), rfl, next_after (by decide +kernel), by decide, by decide⟩

theorem witness_StreamsMoveInOrder :
    let s := startOf 0x0308 (padOps 2 2) (offers [0x48, 0x69] [0xFF, 0x0F] [] 13)
    exec .encodeOtp s = .next (after (exec .encodeOtp s)) := next_after (by decide +kernel)

/-- Two machines that differ in every register, with the same running command. -/
theorem witness_RunningCommandsReadNoRegister :
    let u := { waitingRsa with ctrlIE := true, ops := abm 9 9 9, r0 := 5, r2 := 7 }
    exec .encodeRsa waitingRsa = .next (after (exec .encodeRsa waitingRsa)) ∧ u.ctx = waitingRsa.ctx ∧
      u.ports = waitingRsa.ports ∧ u.cfg = waitingRsa.cfg := ⟨next_after (by decide +kernel), rfl, rfl, rfl⟩

theorem witness_AWaitingEngineStandsStill :
    (exec .encodeRsa waitingRsa = .next (after (exec .encodeRsa waitingRsa)) ∧
      (after (exec .encodeRsa waitingRsa)).ctx ≠ none) ∧
    (waitingRsa.stuck = true ∧ { waitingRsa with agenda := [.waitDone] }.stuck = true) ∧ State.reset.final = true ∧
    (runFrom 1 1 runK1 = .final (after (step runK1)) ∧ runFrom 0 0 State.reset = .final State.reset) ∧
    (let s := { waitingRsa with agenda := [.reset] }
     s.agenda = .reset :: [] ∧ step s = .next (after (step s))) :=
  ⟨⟨next_after (by decide +kernel), by decide +kernel⟩, by decide +kernel, by decide +kernel, by decide +kernel, rfl,
    next_after (by decide +kernel)⟩

/-- The hypotheses are those of `witness_AWaitingEngineStandsStill`; here a supply completes what waited. -/
theorem witness_TheTimeOfSupplyDoesNotMatter :
    exec .encodeRsa waitingRsa = .next (after (exec .encodeRsa waitingRsa)) ∧
      (after (exec .encodeRsa waitingRsa)).ctx ≠ none ∧
      registersAfter (exec .encodeRsa (waitingRsa.supply (offers [0x41] [] [] 0))) = some [24, 1, 1, 0x2, 0] :=
  ⟨next_after (by decide +kernel), by decide +kernel, by decide +kernel⟩

/-- The first clause: the four events of a supply. -/
theorem witness_TheTimeOfSupplyDoesNotMatter_events :
    let x := offers [0x41] [0xFF] [7] 2
    { waitingRsa with agenda := [.offerSin x.sin, .offerKin x.kin, .offerRnd x.rnd, .acceptSout x.room] }.agenda =
      .offerSin x.sin :: .offerKin x.kin :: .offerRnd x.rnd :: .acceptSout x.room :: [] := rfl

theorem witness_InterruptFollowsCompletion :
    (exec (.modexp false) runK1 = .next (after (exec (.modexp false) runK1)) ∧
      (after (exec (.modexp false) runK1)).ctx = none) ∧ (0x2 : Word).getLsbD 1 = true :=
  ⟨⟨next_after (by decide +kernel), by decide +kernel⟩, by decide⟩

theorem witness_ModexpPowersModuloM :
    (runK1.AtStart ⟨0x0001, abm 2 16 17, .start⟩ ∧ (abm 2 16 17).m ≠ 0) ∧
    ((startOf 0x1001 (abm 0xFFFFFFFFFFFFFFFF 3 1) .empty).AtStart ⟨0x1001, abm 0xFFFFFFFFFFFFFFFF 3 1, .start⟩ ∧
      (abm 0xFFFFFFFFFFFFFFFF 3 1).m ≠ 0) ∧
    ((startOf 0x0001 (abm 5 3 0) .empty).AtStart ⟨0x0001, abm 5 3 0, .start⟩ ∧ (abm 5 3 0).m = 0) :=
  ⟨⟨⟨rfl, rfl⟩, by decide⟩, ⟨⟨rfl, rfl⟩, by decide⟩, ⟨rfl, rfl⟩, by decide⟩

theorem witness_EgcdChecksThenCompletes :
    ((startOf 0x0002 (abm 0 5 0) .empty).AtStart ⟨0x0002, abm 0 5 0, .start⟩ ∧ (abm 0 5 0).a = 0) ∧
    ((startOf 0x0002 (abm 5 0 0) .empty).AtStart ⟨0x0002, abm 5 0 0, .start⟩ ∧ (abm 5 0 0).a ≠ 0 ∧
      (abm 5 0 0).b = 0) ∧
    ((startOf 0x2002 (abm 1 2 0) .empty).AtStart ⟨0x2002, abm 1 2 0, .start⟩ ∧ (abm 1 2 0).a ≠ 0 ∧
      (abm 1 2 0).a < (abm 1 2 0).b) ∧
    ((startOf 0x2002 (abm 7 7 0) .empty).AtStart ⟨0x2002, abm 7 7 0, .start⟩ ∧ (abm 7 7 0).a ≠ 0 ∧
      (true = false → (abm 7 7 0).b ≠ 0) ∧ (true = true → (abm 7 7 0).b ≤ (abm 7 7 0).a)) ∧
    ((startOf 0x0002 (abm 1 1 0) .empty).AtStart ⟨0x0002, abm 1 1 0, .start⟩ ∧ (abm 1 1 0).a ≠ 0 ∧
      (false = false → (abm 1 1 0).b ≠ 0) ∧ (false = true → (abm 1 1 0).b ≤ (abm 1 1 0).a)) :=
  ⟨⟨⟨rfl, rfl⟩, by decide⟩, ⟨⟨rfl, rfl⟩, by decide, by decide⟩, ⟨⟨rfl, rfl⟩, by decide, by decide⟩,
    ⟨⟨rfl, rfl⟩, by decide, by decide, by decide⟩, ⟨rfl, rfl⟩, by decide, by decide, by decide⟩

theorem witness_EgcdSatisfiesTheBezoutIdentity : (¬ (0 = 0 ∧ 1 = 0) ∧ ¬ (1 = 0 ∧ 0 = 0)) ∧ 0 < 1 := by decide

theorem witness_EgcdCoefficientsAreBounded :
    (18446744073709551615 < 2 ^ 64 ∧ 0 < 2 ^ 64 ∧ ¬ (18446744073709551615 = 0 ∧ 0 = 0)) ∧ 0 < 1 ∧ 1 < 2 ∧
      (0 < 1 ∧ 1 < 2) := by decide

/-- For the legacy variant, `B = 0`; for the relaxed one, `A < B`. -/
theorem witness_EgcdRegistersHoldABezoutTriple :
    ((startOf 0x2002 (abm 5 0 0) .empty).AtStart ⟨0x2002, abm 5 0 0, .start⟩ ∧ (abm 5 0 0).a ≠ 0 ∧
      (true = false → (abm 5 0 0).b ≠ 0) ∧ (true = true → (abm 5 0 0).b ≤ (abm 5 0 0).a)) ∧
    ((startOf 0x0002 (abm 18 30 0) .empty).AtStart ⟨0x0002, abm 18 30 0, .start⟩ ∧ (abm 18 30 0).a ≠ 0 ∧
      (false = false → (abm 18 30 0).b ≠ 0) ∧ (false = true → (abm 18 30 0).b ≤ (abm 18 30 0).a)) :=
  ⟨⟨⟨rfl, rfl⟩, by decide, by decide, by decide⟩, ⟨rfl, rfl⟩, by decide, by decide, by decide⟩

theorem witness_ModinvInvertsCoprimeValues :
    ((startOf 0x0003 (abm 5 0 0) .empty).AtStart ⟨0x0003, abm 5 0 0, .start⟩ ∧ (abm 5 0 0).m = 0) ∧
    ((startOf 0x0003 (abm 0 0 1) .empty).AtStart ⟨0x0003, abm 0 0 1, .start⟩ ∧ (abm 0 0 1).m ≠ 0 ∧
      (abm 0 0 1).a = 0) ∧
    ((startOf 0x0003 (abm 7 0 7) .empty).AtStart ⟨0x0003, abm 7 0 7, .start⟩ ∧ (abm 7 0 7).m ≠ 0 ∧
      (abm 7 0 7).a ≠ 0 ∧ Nat.gcd (abm 7 0 7).a.toNat (abm 7 0 7).m.toNat ≠ 1) ∧
    ((startOf 0x0003 (abm 5 0 1) .empty).AtStart ⟨0x0003, abm 5 0 1, .start⟩ ∧ (abm 5 0 1).m ≠ 0 ∧
      (abm 5 0 1).a ≠ 0 ∧ Nat.gcd (abm 5 0 1).a.toNat (abm 5 0 1).m.toNat = 1) :=
  ⟨⟨⟨rfl, rfl⟩, by decide⟩, ⟨⟨rfl, rfl⟩, by decide, by decide⟩,
    ⟨⟨rfl, rfl⟩, by decide, by decide, by decide⟩, ⟨rfl, rfl⟩, by decide, by decide, by decide⟩

theorem witness_DecompositionIsOddTimesPowerOfTwo : 3 ≤ 3 ∧ 3 % 2 = 1 := by decide

/-- `n = 4`, the least modulus of a draw, and a draw that finds every word rejected. -/
theorem witness_DrawTakesTheFirstWordInRange :
    4 ≤ 4 ∧ randRange2 4 [0xFFFFFFFFFFFFFFFF] = (some 2, []) ∧ 4 ≤ 6 ∧ (randRange2 6 [3, 7]).1 = none := by decide

/-- `A = 1`; the last table prime; a multiple of it above the table; and the least `n` above the table, with
`rounds` 0. -/
theorem witness_PrimetestDecidesByTableAndWitnesses :
    (abm 1 0 0).a.toNat < 2 ∧ (abm 1013 0 0).a.toNat ∈ smallPrimes State.reset.cfg.nsp ∧
    ((abm 1026169 0 0).a.toNat ∉ smallPrimes State.reset.cfg.nsp ∧
      ∃ p ∈ smallPrimes State.reset.cfg.nsp, p ∣ (abm 1026169 0 0).a.toNat) ∧
    (2 ≤ (abm 1019 0 0).a.toNat ∧ (∀ p ∈ smallPrimes State.reset.cfg.nsp, ¬ p ∣ (abm 1019 0 0).a.toNat) ∧
      (abm 1019 0 0).b.toInt ≤ 0) ∧
    (startOf 0x0004 (abm 1019 0 0) .empty).cfg = State.reset.cfg := by decide +kernel

/-- The least odd `n` with a witness in range, at both ends of the range; 2 proves 9 composite, 8 lies outside. -/
theorem witness_PrimetestDecides_round :
    (3 ≤ 5 ∧ 5 % 2 = 1 ∧ 2 ≤ 2 ∧ 2 ≤ 5 - 2) ∧ (3 ≤ 5 ∧ 2 ≤ 3 ∧ 3 ≤ 5 - 2) ∧
      (3 ≤ 9 ∧ 9 % 2 = 1 ∧ 2 ≤ 9 - 2 ∧ witnessProves 9 2 = true) := by decide +kernel

theorem witness_PrimetestDecides_atStart :
    (startOf 0x0004 (abm 1 0 0) .empty).AtStart ⟨0x0004, abm 1 0 0, .start⟩ ∧
      (startOf 0x0004 (abm 1013 0 0) .empty).AtStart ⟨0x0004, abm 1013 0 0, .start⟩ ∧
      (startOf 0x0004 (abm 1026169 0 0) .empty).AtStart ⟨0x0004, abm 1026169 0 0, .start⟩ ∧
      (startOf 0x0004 (abm 1019 0 0) .empty).AtStart ⟨0x0004, abm 1019 0 0, .start⟩ :=
  ⟨⟨rfl, rfl⟩, ⟨rfl, rfl⟩, ⟨rfl, rfl⟩, rfl, rfl⟩

/-- The table part of the first clause is that of `witness_PrimetestDecidesByTableAndWitnesses`. -/
theorem witness_PrimetestRunsItsRandomRounds :
    0 < (abm 1019 1 0).b.toInt ∧ (⟨0x0004, abm 1019 1 0, .start⟩ : Ctx).pos = .start ∧
      (⟨0x0004, abm 1019 1 0, .primeDraw 0⟩ : Ctx).pos = .primeDraw 0 ∧
      (⟨0x0004, abm 1019 1 0, .primeDraw 1⟩ : Ctx).pos = .primeDraw (0 + 1) ∧
      randRange2 1019 [1020] = (none, []) ∧
      (randRange2 1038361 [0] = (some 2, []) ∧ witnessProves 1038361 2 = true) ∧
      (randRange2 1038361 [703, 9] = (some 705, [9]) ∧ witnessProves 1038361 705 = false) := by decide +kernel

/-- A prime of the table, and `runs` of both paths. -/
theorem witness_PrimesAreNeverCalledComposite :
    let s := startOf 0x0004 (abm 2 0 0) .empty
    s.cfg.wf = true ∧ s.ctx = some ⟨0x0004, abm 2 0 0, .start⟩ ∧ (abm 2 0 0).a.toNat.Prime ∧
      exec .primetest s = .next (after (exec .primetest s)) ∧ (after (exec .primetest s)).ctx = none :=
  ⟨by decide +kernel, rfl, Nat.prime_two, next_after (by decide +kernel), by decide +kernel⟩

/-- The second disjunct of the position, on a prime above the table. -/
theorem witness_PrimesAreNeverCalledComposite_random :
    let c : Ctx := ⟨0x0004, abm 1019 1 0, .primeDraw 1⟩
    let s := { startOf 0x0004 (abm 1019 1 0) (offers [] [] [0] 0) with ctx := some c }
    s.cfg.wf = true ∧ s.ctx = some c ∧ (∃ rounds, c.pos = .primeDraw rounds) ∧ c.ops.a.toNat.Prime ∧
      exec .primetest s = .next (after (exec .primetest s)) ∧ (after (exec .primetest s)).ctx = none :=
  ⟨by decide +kernel, rfl, ⟨1, rfl⟩, by show Nat.Prime 1019; norm_num, next_after (by decide +kernel),
    by decide +kernel⟩

/-- Parameters with a table so long that the property of rule R93 is provable. -/
def longTable : Params := { Params.standard with nsp := 2 ^ 33, detWitnesses := [] }

theorem witness_DeterministicPathIsExact :
    longTable.Exact ∧ { runK1 with cfg := longTable }.AtStart ⟨0x0001, abm 2 16 17, .start⟩ ∧
      { startOf 0x0004 (abm 2 0 0) .empty with cfg := longTable }.AtStart ⟨0x0004, abm 2 0 0, .start⟩ ∧
      (abm 2 0 0).b.toInt ≤ 0 ∧ (abm 2 0 0).a.toNat.Prime ∧ (abm 2 0x8000000000000000 0).b.toInt ≤ 0 ∧
      ¬ (abm 1 0 0).a.toNat.Prime :=
  ⟨exact_of_long_table (by show 2 ^ 32 ≤ 2 ^ 33; norm_num) rfl, ⟨rfl, rfl⟩, ⟨rfl, rfl⟩, by decide,
    Nat.prime_two, by decide, Nat.not_prime_one⟩

theorem witness_WidthsFitTheModulus :
    (1 ≤ 1 ∧ 1 < 2 ^ 64) ∧ (1 ≤ 18446744073709551615 ∧ 18446744073709551615 < 2 ^ 64) ∧
      ((plainWidth 255, cipherWidth 255), (plainWidth 256, cipherWidth 256), (plainWidth 257, cipherWidth 257)) =
        ((1, 1), (1, 1), (1, 2)) := by decide +kernel

theorem witness_RsaTransformsArePowers : (rsaEncode 1).m ≠ 0 ∧ (abm 0 0 1).m ≠ 0 := by decide

/-- Vectors X-17 (`s = 0`), X-19 (`gcd` 7) and C-12 (coprime). -/
theorem witness_ElgamalTransformsFollowTheRules :
    (elgDecode.m ≠ 0 ∧ [0, 0, 0, 0, 0, 0, 0, 0, 0x00, (0x05 : Byte)].length = 8 + cipherWidth elgDecode.uM ∧
      leDec [0, 0, 0, 0, 0, 0, 0, (0 : Byte)] ^ elgDecode.uB % elgDecode.uM = 0) ∧
    ((abm 0 3 469).m ≠ 0 ∧ [7, 0, 0, 0, 0, 0, 0, 0, 0x00, (0x05 : Byte)].length = 8 + cipherWidth (abm 0 3 469).uM ∧
      leDec [7, 0, 0, 0, 0, 0, 0, (0 : Byte)] ^ (abm 0 3 469).uB % (abm 0 3 469).uM ≠ 0 ∧
      Nat.gcd (leDec [7, 0, 0, 0, 0, 0, 0, (0 : Byte)] ^ (abm 0 3 469).uB % (abm 0 3 469).uM) (abm 0 3 469).uM ≠ 1) ∧
    ([0x1D, 0, 0, 0, 0, 0, 0, 0, 0x01, (0x0E : Byte)].length = 8 + cipherWidth elgDecode.uM ∧
      leDec [0x1D, 0, 0, 0, 0, 0, 0, (0 : Byte)] ^ elgDecode.uB % elgDecode.uM ≠ 0 ∧
      Nat.gcd (leDec [0x1D, 0, 0, 0, 0, 0, 0, (0 : Byte)] ^ elgDecode.uB % elgDecode.uM) elgDecode.uM = 1) := by
  decide +kernel

theorem witness_ThreePassTransformsArePowers : tpEncode.m ≠ 0 ∧ (abm 0 0 1).m ≠ 0 := by decide

theorem rsaKeysMatch (n k : Word) : KeysMatch .rsa (rsaEncode n) (rsaDecode k) :=
  ⟨rfl, 61, 53, by norm_num, by norm_num, by norm_num, rfl, by
    show Nat.ModEq _ (2753 * 17) 1
    decide⟩

theorem elgKeysMatch : KeysMatch .elg elgEncode elgDecode :=
  ⟨rfl, by show Nat.Prime 467; norm_num, by decide +kernel, by decide +kernel⟩

theorem tpKeysMatch : KeysMatch .tp tpEncode tpDecode :=
  ⟨rfl, by show Nat.Prime 257; norm_num, by show Nat.ModEq 256 (3 * 171) 1; decide,
    by show Nat.ModEq 256 (5 * 205) 1; decide⟩

theorem witness_RsaInverseUndoesForward :
    KeysMatch .rsa (rsaEncode 1) (rsaDecode 24) ∧ 3232 < (rsaEncode 1).uM := ⟨rsaKeysMatch 1 24, by decide⟩

theorem witness_ElgamalInverseUndoesForward : KeysMatch .elg elgEncode elgDecode ∧ 466 < elgEncode.uM :=
  ⟨elgKeysMatch, by decide⟩

theorem witness_ThreePassInverseUndoesForward :
    KeysMatch .tp tpEncode tpDecode ∧ 2 < tpEncode.uM ∧ 256 < tpEncode.uM := ⟨tpKeysMatch, by decide, by decide⟩

/-- Plaintext and room exactly as much as needed. -/
theorem witness_EncodeRsaEmitsTheContainer :
    (startOf 0x0008 (rsaEncode 3) (offers [0x48, 0x69, 0x21] [] [] 28)).AtStart ⟨0x0008, rsaEncode 3, .start⟩ ∧
      (rsaEncode 3).m ≠ 0 ∧ (rsaEncode 3).uLen ≤ [0x48, 0x69, (0x21 : Byte)].length ∧
      22 + blockCount (rsaEncode 3) * cipherWidth (rsaEncode 3).uM ≤ 28 := ⟨⟨rfl, rfl⟩, by decide +kernel⟩

theorem witness_EncodeTpEmitsTheContainer :
    (startOf 0x0208 tpEncode (offers [0x48] [] [] 24)).AtStart ⟨0x0208, tpEncode, .start⟩ ∧ tpEncode.m ≠ 0 ∧
      tpEncode.uLen ≤ [(0x48 : Byte)].length ∧ 22 + blockCount tpEncode * cipherWidth tpEncode.uM ≤ 24 :=
  ⟨⟨rfl, rfl⟩, by decide +kernel⟩

theorem witness_EncodeElgEmitsTheContainer :
    (startOf 0x0108 elgEncode (offers [0x48, 0x69] [] [211, 1000, 7, 99] 42)).AtStart
        ⟨0x0108, elgEncode, .start⟩ ∧
      4 ≤ elgEncode.uM ∧ elgEncode.uLen ≤ [0x48, (0x69 : Byte)].length ∧
      draws elgEncode.uM (blockCount elgEncode) [211, 1000, 7, 99] = some ([213, 9], [99]) ∧
      22 + blockCount elgEncode * (cipherWidth elgEncode.uM + 8) ≤ 42 := ⟨⟨rfl, rfl⟩, by decide +kernel⟩

theorem witness_EncodeRejectsBadModuliFirst :
    ((startOf 0x0008 (abm 0 17 0) .empty).AtStart ⟨0x0008, abm 0 17 0, .start⟩ ∧ (abm 0 17 0).m = 0) ∧
    ((startOf 0x0108 (abm 2 2 3) .empty).AtStart ⟨0x0108, abm 2 2 3, .start⟩ ∧ (abm 2 2 3).m ≠ 0 ∧
      (abm 2 2 3).uM < 4) := ⟨⟨⟨rfl, rfl⟩, by decide⟩, ⟨rfl, rfl⟩, by decide⟩

/-- Vectors X-6, X-2 and X-1 (with `LEN` 21 at the boundary), X-3, X-4 and X-7. -/
theorem witness_DecodeChecksTheHeaderInOrder :
    ((startOf 0x0009 (abm 0 2753 0) (offers goodRsa [] [] 0)).AtStart ⟨0x0009, abm 0 2753 0, .start⟩ ∧
      (abm 0 2753 0).m = 0) ∧
    ((startOf 0x0009 (rsaDecode 21) (offers goodRsa [] [] 0)).AtStart ⟨0x0009, rsaDecode 21, .start⟩ ∧
      (rsaDecode 21).m ≠ 0 ∧ (rsaDecode 21).uLen < 22 ∧ (rsaDecode 21).uLen ≤ goodRsa.length) ∧
    ((rsaDecode 22).m ≠ 0 ∧ 22 ≤ (rsaDecode 22).uLen ∧ 22 ≤ goodRsa.length ∧
      slice (0x00 :: goodRsa.tail) 0 4 ≠ (Params.standard.tag .rsa).bytes ∧
      slice goodRsa 0 4 = (Params.standard.tag .rsa).bytes ∧ leDec (slice goodRsa 6 14) ≠ (abm 0 0 3127).uM ∧
      leDec (slice goodRsa 6 14) = (rsaDecode 22).uM ∧
      slice (goodRsa.set 4 0x02) 4 6 ≠
        [BitVec.ofNat 8 (plainWidth (rsaDecode 22).uM), BitVec.ofNat 8 (cipherWidth (rsaDecode 22).uM)]) :=
  ⟨⟨⟨rfl, rfl⟩, by decide⟩, ⟨⟨rfl, rfl⟩, by decide⟩, by decide +kernel⟩

/-- A block one byte short, a block whose inverse fails (ElGamal, vector X-17) and one out of range (vector X-11). -/
theorem witness_DecodeChecksEachBlockInOrder :
    (0 < (⟨1, 1, 2, 2, 3⟩ : DecLocals).left ∧
      (⟨1, 1, 2, 2, 3⟩ : DecLocals).left < blockSize .rsa (rsaDecode 27).uM ∧ 1 ≤ [(0x07 : Byte)].length) ∧
    (blockSize .elg elgDecode.uM ≤ (⟨10, 1, 0, 0, 1⟩ : DecLocals).left ∧
      blockSize .elg elgDecode.uM ≤ [0, 0, 0, 0, 0, 0, 0, 0, 0, (5 : Byte)].length ∧
      inverse .elg elgDecode [0, 0, 0, 0, 0, 0, 0, 0, 0, (5 : Byte)] = .error .egcdRange) ∧
    (blockSize .rsa (rsaDecode 28).uM ≤ (⟨4, 2, 1, 1, 3⟩ : DecLocals).left ∧
      inverse .rsa (rsaDecode 28) [0x00, (0x02 : Byte)] = .ok 1027 ∧
      256 ^ plainWidth (rsaDecode 28).uM ≤ 1027) :=
  ⟨by decide +kernel, ⟨by decide +kernel, by decide +kernel, rfl⟩, by decide +kernel, rfl, by decide +kernel⟩

/-- The container of vector C-5: with `orig` 3 the first clause holds, with `orig` 4 the second. -/
theorem witness_DecodeRecoversThePlaintext :
    (startOf 0x0009 (rsaDecode 28) (offers goodRsa [] [] 3)).AtStart ⟨0x0009, rsaDecode 28, .start⟩ ∧
      (rsaDecode 28).m ≠ 0 ∧ 3 < 2 ^ 64 ∧
      List.Forall₂ (fun blk m => blk.length = blockSize .rsa (rsaDecode 28).uM ∧
        inverse .rsa (rsaDecode 28) blk = .ok m ∧ m < 256 ^ plainWidth (rsaDecode 28).uM)
        [[0x0B, 0xB8], [0x0C, 0x6B], [0x07, 0x3D]] [0x48, 0x69, 0x21] ∧
      (rsaDecode 28).uLen = 22 + 3 * blockSize .rsa (rsaDecode 28).uM ∧
      goodRsa = blockHeader State.reset.cfg .rsa (rsaDecode 28).uM 3 ++
        [[0x0B, 0xB8], [0x0C, 0x6B], [0x07, 0x3D]].flatten ++ [] ∧
      (([0x48, 0x69, 0x21].flatMap fun m => beEnc m (plainWidth (rsaDecode 28).uM)).take 3).length ≤ 3 ∧
      3 ≤ 3 * plainWidth (rsaDecode 28).uM ∧ 3 * plainWidth (rsaDecode 28).uM < 4 :=
  ⟨⟨rfl, rfl⟩, by decide, by decide,
    .cons ⟨by decide +kernel, rfl, by decide +kernel⟩ (.cons ⟨by decide +kernel, rfl, by decide +kernel⟩
      (.cons ⟨by decide +kernel, rfl, by decide +kernel⟩ .nil)), by decide +kernel⟩

theorem witness_EncodeOtpXorsTheKeyStream :
    ((startOf 0x0308 (padOps 5 4) .empty).AtStart ⟨0x0308, padOps 5 4, .start⟩ ∧
      (padOps 5 4).uKlen < (padOps 5 4).uLen) ∧
    ((startOf 0x0308 (padOps 2 2) (offers [0x48, 0x69] [0xFF, 0x0F] [] 14)).AtStart
        ⟨0x0308, padOps 2 2, .start⟩ ∧
      (padOps 2 2).uLen ≤ (padOps 2 2).uKlen ∧ (padOps 2 2).uLen ≤ [0x48, (0x69 : Byte)].length ∧
      (padOps 2 2).uLen ≤ [0xFF, (0x0F : Byte)].length ∧ 12 + (padOps 2 2).uLen ≤ 14) :=
  ⟨⟨⟨rfl, rfl⟩, by decide⟩, ⟨rfl, rfl⟩, by decide⟩

theorem witness_DecodeOtpChecksTheHeaderInOrder :
    ((startOf 0x0309 (padOps 11 2) (offers goodPad [] [] 0)).AtStart ⟨0x0309, padOps 11 2, .start⟩ ∧
      (padOps 11 2).uLen < 12 ∧ (padOps 11 2).uLen ≤ goodPad.length) ∧
    (12 ≤ (padOps 12 1).uLen ∧ 12 ≤ goodPad.length ∧ goodRsa.take 4 ≠ Params.standard.tagOtp.bytes ∧
      12 ≤ goodRsa.length ∧ goodPad.take 4 = Params.standard.tagOtp.bytes ∧
      (padOps 12 1).uKlen < leDec (slice (goodPad.take 12) 4 12)) := ⟨⟨⟨rfl, rfl⟩, by decide⟩, by decide +kernel⟩

/-- The container of vector C-20, with the payload's two bytes owed (first clause) or three (second clause). -/
theorem witness_DecodeOtpRecoversThePlaintext :
    ((startOf 0x0309 (padOps 14 2) (offers goodPad [0xFF, 0x0F] [] 2)).AtStart ⟨0x0309, padOps 14 2, .start⟩ ∧
      2 ≤ (padOps 14 2).uKlen ∧ (padOps 14 2).uLen = 12 + [0xB7, (0x66 : Byte)].length ∧
      goodPad = padHeader State.reset.cfg 2 ++ [0xB7, 0x66] ++ [] ∧ min 2 2 ≤ [0xFF, (0x0F : Byte)].length ∧
      2 ≤ [0xB7, (0x66 : Byte)].length) ∧
    (3 ≤ (padOps 14 3).uKlen ∧ [0xB7, (0x66 : Byte)].length < 3 ∧
      min 3 [0xB7, (0x66 : Byte)].length ≤ [0xFF, (0x0F : Byte)].length) :=
  ⟨⟨⟨rfl, rfl⟩, by decide +kernel⟩, by decide⟩

/-- The run of vector C-20, and the machine of vector C-21 that is given its container. -/
theorem witness_OneTimePadRoundTrip :
    let s := startOf 0x0308 (padOps 2 2) (offers [0x48, 0x69] [0xFF, 0x0F] [] 14)
    let u := startOf 0x0309 (padOps 14 2) (offers goodPad [0xFF, 0x0F] [] 2)
    (s.AtStart ⟨0x0308, padOps 2 2, .start⟩ ∧ u.AtStart ⟨0x0309, padOps 14 2, .start⟩) ∧
      exec .encodeOtp s = .next (after (exec .encodeOtp s)) ∧
      ((after (exec .encodeOtp s)).ctx = none ∧ (after (exec .encodeOtp s)).errcode = none ∧
        (after (exec .encodeOtp s)).ports.sout = s.ports.sout ++ goodPad ∧ u.cfg = s.cfg ∧
        (padOps 14 2).uLen = goodPad.length ∧ (padOps 2 2).uLen ≤ (padOps 14 2).uKlen ∧
        u.ports.sin = goodPad ++ [] ∧ s.ports.kin.take (padOps 2 2).uLen <+: u.ports.kin ∧
        (padOps 2 2).uLen ≤ u.ports.room) :=
  ⟨⟨⟨rfl, rfl⟩, rfl, rfl⟩, next_after (by decide +kernel), by decide +kernel⟩

/-- The runs of vectors C-5 and C-6. -/
theorem witness_BlockCodecRoundTrip :
    let s := startOf 0x0008 (rsaEncode 3) (offers [0x48, 0x69, 0x21] [] [] 28)
    let u := startOf 0x0009 (rsaDecode 28) (offers goodRsa [] [] 3)
    (s.AtStart ⟨0x0008, rsaEncode 3, .start⟩ ∧ u.AtStart ⟨0x0009, rsaDecode 28, .start⟩) ∧
      KeysMatch .rsa (rsaEncode 3) (rsaDecode 28) ∧
      exec (encodeCommand BlockTransform.rsa.transform) s = .next (after (exec .encodeRsa s)) ∧
      ((after (exec .encodeRsa s)).ctx = none ∧ (after (exec .encodeRsa s)).errcode = none ∧
        (after (exec .encodeRsa s)).ports.sout = s.ports.sout ++ goodRsa ∧ 256 ≤ (rsaEncode 3).uM ∧ u.cfg = s.cfg ∧
        (rsaDecode 28).uLen = goodRsa.length ∧ u.ports.sin = goodRsa ++ [] ∧ (rsaEncode 3).uLen ≤ u.ports.room) :=
  ⟨⟨⟨rfl, rfl⟩, rfl, rfl⟩, rsaKeysMatch 3 28, next_after (by decide +kernel), by decide +kernel⟩

/-- The same hypotheses for ElGamal (vectors C-11, C-12) and three-pass (C-14, C-15). -/
theorem witness_BlockCodecRoundTrip_others :
    let s := startOf 0x0108 elgEncode (offers [0x48, 0x69] [] [211, 1000, 7, 99] 42)
    let s' := startOf 0x0208 tpEncode (offers [0x48] [] [] 24)
    KeysMatch .elg elgEncode elgDecode ∧ KeysMatch .tp tpEncode tpDecode ∧
      exec .encodeElg s = .next (after (exec .encodeElg s)) ∧ exec .encodeTp s' = .next (after (exec .encodeTp s')) ∧
      ((after (exec .encodeElg s)).errcode = none ∧ (after (exec .encodeElg s)).ports.sout = goodElg ∧
        (after (exec .encodeTp s')).errcode = none ∧ (after (exec .encodeTp s')).ports.sout = goodTp ∧
        256 ≤ elgEncode.uM ∧ 256 ≤ tpEncode.uM ∧ elgDecode.uLen = goodElg.length ∧ tpDecode.uLen = goodTp.length) :=
  ⟨elgKeysMatch, tpKeysMatch, next_after (by decide +kernel), next_after (by decide +kernel), by decide +kernel⟩

end Sys2Proof.Tests
end

section
/-! PROOFS. What the register port does, said once per register or index, and what an event and a step can do. -/

namespace Sys2Proof.Machine

/-! ### Register indices -/

theorem Reg.ofIndex_eq_some_iff {i : Nat} {r : Reg} : Reg.ofIndex i = some r ↔ i = r.index := by
  constructor
  · intro h
    unfold Reg.ofIndex at h
    split at h <;> cases h <;> rfl
  · rintro rfl
    cases r <;> rfl

/-- Rules R27, R41: the reserved indices name no register. -/
theorem Reg.ofIndex_of_reserved {i : Nat} (h : i = 0x0B ∨ 0x0F ≤ i) : Reg.ofIndex i = none := by
  cases hi : Reg.ofIndex i with
  | none => rfl
  | some r =>
    obtain rfl := Reg.ofIndex_eq_some_iff.1 hi
    cases r <;> simp [Reg.index] at h

theorem regRead_of_reserved (s : State) {i : Nat} (h : i = 0x0B ∨ 0x0F ≤ i) : s.regRead i = 0 := by
  rw [State.regRead, Reg.ofIndex_of_reserved h]

theorem regWrite_of_reserved (s : State) (v : Word) {i : Nat} (h : i = 0x0B ∨ 0x0F ≤ i) : s.regWrite i v = s := by
  rw [State.regWrite, Reg.ofIndex_of_reserved h]

/-- When every register reads 0, so does every index. -/
theorem regRead_eq_zero {s : State} (h : ∀ r, s.reg r = 0) (i : Nat) : s.regRead i = 0 := by
  unfold State.regRead
  split
  · exact h _
  · rfl

/-! ### What each register reads as, and what a write to it does -/

@[simp] theorem regRead_ctrl (s : State) : s.regRead 0x00 = ctrlWord s.ctrlIE := rfl

@[simp] theorem regRead_status (s : State) : s.regRead 0x01 = s.status.word := rfl

@[simp] theorem regRead_errcode (s : State) : s.regRead 0x02 = errcodeWord s.errcode := rfl

@[simp] theorem regRead_cmd (s : State) : s.regRead 0x03 = s.cmd := rfl

@[simp] theorem regWrite_ctrl (s : State) (v : Word) : s.regWrite 0x00 v = { s with ctrlIE := v.getLsbD 0 } := rfl

@[simp] theorem regWrite_status (s : State) (v : Word) :
    s.regWrite 0x01 v = { s with status := s.status.hostWrite v } := rfl

@[simp] theorem regWrite_errcode (s : State) (v : Word) : s.regWrite 0x02 v = s := rfl

@[simp] theorem regWrite_cmd (s : State) (v : Word) : s.regWrite 0x03 v = s.writeCmd v := rfl

theorem writeCmd_idle {s : State} (h : s.status.busy = false) (w : Word) : s.writeCmd w = s.accept w := by
  simp [State.writeCmd, h]

theorem writeCmd_busy {s : State} (h : s.status.busy = true) (w : Word) :
    s.writeCmd w = { s with status := s.status.overrun } := by
  simp [State.writeCmd, h]

/-- Everything a host write can do: it is the `CMD` write, the write-1-to-clear of `STATUS`, or it touches only `CTRL`
and the operand registers. -/
theorem regWrite_cases (s : State) (i : Nat) (v : Word) :
    (i = 0x03 ∧ s.regWrite i v = s.writeCmd v) ∨
      s.regWrite i v = { s with status := s.status.hostWrite v } ∨
      ∃ ie ops, s.regWrite i v = { s with ctrlIE := ie, ops := ops } := by
  cases hi : Reg.ofIndex i with
  | none => exact .inr (.inr ⟨_, _, by rw [State.regWrite, hi]⟩)
  | some r =>
    obtain rfl := Reg.ofIndex_eq_some_iff.1 hi
    cases r with
    | cmd => exact .inl ⟨rfl, rfl⟩
    | status => exact .inr (.inl rfl)
    | _ => exact .inr (.inr ⟨_, _, rfl⟩)

/-- No host write reaches the results (rule R22). -/
theorem regWrite_results (s : State) (i : Nat) (v : Word) :
    (s.regWrite i v).r0 = s.r0 ∧ (s.regWrite i v).r1 = s.r1 ∧ (s.regWrite i v).r2 = s.r2 := by
  obtain ⟨-, h⟩ | h | ⟨ie, ops, h⟩ := regWrite_cases s i v
  · rw [h, State.writeCmd]
    split <;> exact ⟨rfl, rfl, rfl⟩
  · simp [h]
  · simp [h]

/-- No host write reaches the context of a running command (rule R31). -/
theorem regWrite_ctx_of_busy {s : State} (hb : s.status.busy = true) (i : Nat) (v : Word) :
    (s.regWrite i v).ctx = s.ctx := by
  obtain ⟨-, h⟩ | h | ⟨ie, ops, h⟩ := regWrite_cases s i v
  · rw [h, writeCmd_busy hb]
  · rw [h]
  · rw [h]

/-! ### The bits of the words computed at a read -/

theorem toWord_getLsbD_of_lt {n j k : Nat} (hn : n < 2 ^ j) (hk : j ≤ k) : (toWord n).getLsbD k = false := by
  have : n < 2 ^ k := lt_of_lt_of_le hn (Nat.pow_le_pow_right (by decide) hk)
  simp [toWord, BitVec.getLsbD_ofNat, Nat.testBit_lt_two_pow this]

/-- Rule R23: bits 63:1 of `CTRL` read 0. -/
theorem ctrlWord_reserved (ie : Bool) {k : Nat} (hk : 1 ≤ k) : (ctrlWord ie).getLsbD k = false :=
  toWord_getLsbD_of_lt (j := 1) (by cases ie <;> decide) hk

/-- Rule R24: bits 63:4 of `STATUS` read 0. -/
theorem status_word_reserved (t : Status) {k : Nat} (hk : 4 ≤ k) : t.word.getLsbD k = false := by
  refine toWord_getLsbD_of_lt (j := 4) ?_ hk
  have := t.busy.toNat_lt
  have := t.done.toNat_lt
  have := t.err.toNat_lt
  have := t.ovr.toNat_lt
  omega

/-- Rule R24: the four bits of `STATUS`. -/
theorem status_word_bits (t : Status) :
    t.word.getLsbD 0 = t.busy ∧ t.word.getLsbD 1 = t.done ∧ t.word.getLsbD 2 = t.err ∧ t.word.getLsbD 3 = t.ovr := by
  obtain ⟨busy, done, err, ovr⟩ := t
  revert busy done err ovr
  decide

/-- Rule R25: bits 63:11 of `ERRCODE` read 0. -/
theorem errcodeWord_reserved (e : Option Cause) {k : Nat} (hk : 11 ≤ k) : (errcodeWord e).getLsbD k = false := by
  cases e with
  | none => simp [errcodeWord]
  | some c => exact toWord_getLsbD_of_lt (j := 11) (by cases c <;> decide) hk

/-- The reserved bits of a value written to `STATUS` play no part (rule R27). -/
theorem hostWrite_masked (t : Status) (v : Word) : t.hostWrite (v &&& 0xA#64) = t.hostWrite v := by
  simp [Status.hostWrite]

/-! ### Moves -/

theorem step_of_empty {s : State} (h : s.agenda = []) : step s = engineTurn s := by
  simp [step, State.turn, h]

theorem step_of_waiting {s : State} {rest : List Event} (h : s.agenda = .waitDone :: rest)
    (hd : s.status.done = false) : step s = engineTurn s := by
  simp [step, State.turn, h, hd]

theorem step_of_waited {s : State} {rest : List Event} (h : s.agenda = .waitDone :: rest)
    (hd : s.status.done = true) : step s = .next { s with agenda := rest } := by
  simp [step, State.turn, h, hd]

theorem step_of_event {s : State} {e : Event} {rest : List Event} (h : s.agenda = e :: rest) (he : e ≠ .waitDone) :
    step s = { s with agenda := rest }.perform e := by
  cases e with
  | waitDone => exact absurd rfl he
  | _ => simp [step, State.turn, h]

/-- A step is the engine's turn, or another event off the head of the agenda. -/
theorem step_cases (s : State) :
    (∃ agenda, step s = engineTurn { s with agenda := agenda }) ∨
      ∃ e rest, s.agenda = e :: rest ∧ e ≠ .engine ∧ step s = { s with agenda := rest }.perform e := by
  cases ha : s.agenda with
  | nil => exact .inl ⟨s.agenda, step_of_empty ha⟩
  | cons e rest =>
    cases e with
    | engine => exact .inl ⟨rest, step_of_event ha nofun⟩
    | waitDone =>
      cases hd : s.status.done with
      | false => exact .inl ⟨s.agenda, step_of_waiting ha hd⟩
      | true => exact .inr ⟨_, rest, rfl, nofun, step_of_waited ha hd⟩
    | _ => exact .inr ⟨_, rest, rfl, nofun, step_of_event ha nofun⟩

/-- An event other than the engine's turn never faults. -/
theorem perform_ne_fault (s : State) {e : Event} (he : e ≠ .engine) (f : Fault) : s.perform e ≠ .fault f := by
  cases e with
  | engine => exact absurd rfl he
  | _ => simp [State.perform]

/-- Everything an event other than the engine's turn can do when it answers a next state: a host write, a reset, or a
change to the record of reads and the ports alone. -/
theorem perform_next {s t : State} {e : Event} (he : e ≠ .engine) (h : s.perform e = .next t) :
    (∃ i v, e = .regWrite i v ∧ t = s.regWrite i v) ∨ (e = .reset ∧ t = s.resetEngine) ∨
      ∃ readData ports, t = { s with readData := readData, ports := ports } := by
  cases e with
  | engine => exact absurd rfl he
  | partAccess address bits => cases h
  | regWrite i v => cases h; exact .inl ⟨i, v, rfl, rfl⟩
  | reset => cases h; exact .inr (.inl ⟨rfl, rfl⟩)
  | _ => cases h; exact .inr (.inr ⟨_, _, rfl⟩)

/-- Everything a step can do when it answers a next state. -/
theorem step_next {s t : State} (h : step s = .next t) :
    (∃ agenda, engineTurn { s with agenda := agenda } = .next t) ∨
      (∃ i v rest, s.agenda = .regWrite i v :: rest ∧ t = { s with agenda := rest }.regWrite i v) ∨
      (∃ rest, s.agenda = .reset :: rest ∧ t = { s with agenda := rest }.resetEngine) ∨
      ∃ agenda readData ports, t = { s with agenda := agenda, readData := readData, ports := ports } := by
  obtain ⟨agenda, hs⟩ | ⟨e, rest, ha, he, hs⟩ := step_cases s
  · exact .inl ⟨agenda, hs ▸ h⟩
  · obtain ⟨i, v, rfl, rfl⟩ | ⟨rfl, rfl⟩ | ⟨rd, q, rfl⟩ := perform_next he (hs ▸ h)
    · exact .inr (.inl ⟨i, v, rest, ha, rfl⟩)
    · exact .inr (.inr (.inl ⟨rest, ha, rfl⟩))
    · exact .inr (.inr (.inr ⟨rest, rd, q, rfl⟩))

/-! ### The engine's turn -/

theorem engineTurn_idle {s : State} (h : s.status.busy = false) : engineTurn s = .next s := by
  simp [engineTurn, h]

theorem engineTurn_command {s : State} {c : Ctx} {i : Instr} (hb : s.status.busy = true) (hc : s.ctx = some c)
    (hi : decode c.cmd = .ok i) : engineTurn s = exec i s := by
  simp [engineTurn, hb, hc, hi]

theorem engineTurn_illegal {s : State} {c : Ctx} {e : Reject} (hb : s.status.busy = true) (hc : s.ctx = some c)
    (he : decode c.cmd = .error e) : engineTurn s = .next (s.raise .illegalCommand) := by
  simp [engineTurn, hb, hc, he]

/-- Everything an engine's turn can do when it answers a next state: nothing when idle, the end of an illegal word, or
a run of the accepted command. -/
theorem engineTurn_next {s t : State} (h : engineTurn s = .next t) :
    (s.status.busy = false ∧ t = s) ∨
      (s.status.busy = true ∧ t = s.raise .illegalCommand) ∨
      ∃ c i, s.status.busy = true ∧ s.ctx = some c ∧ decode c.cmd = .ok i ∧ exec i s = .next t := by
  cases hb : s.status.busy with
  | false => rw [engineTurn_idle hb] at h; cases h; exact .inl ⟨rfl, rfl⟩
  | true =>
    cases hc : s.ctx with
    | none => simp [engineTurn, hb, hc] at h
    | some c =>
      cases hd : decode c.cmd with
      | error e => rw [engineTurn_illegal hb hc hd] at h; cases h; exact .inr (.inl ⟨rfl, rfl⟩)
      | ok i => rw [engineTurn_command hb hc hd] at h; exact .inr (.inr ⟨c, i, rfl, rfl, hd, h⟩)

/-- Everything a run of a command can do when it answers a next state, in short: it waits, completes, or completes with
error (rules R30, R32, R136). -/
theorem exec_next {i : Instr} {s t : State} (h : exec i s = .next t) :
    ∃ q, (∃ c, t = { s with ctx := some c, ports := q }) ∨
      (∃ x y z, t = { s with ports := q }.complete x y z) ∨ ∃ e, t = { s with ports := q }.raise e := by
  rw [exec_eq_runCommand] at h
  obtain ⟨c, -, q, ⟨p, -, rfl⟩ | ⟨x, y, z, -, rfl⟩ | ⟨e, -, rfl⟩⟩ := runCommand_next h
  · exact ⟨q, .inl ⟨_, rfl⟩⟩
  · exact ⟨q, .inr (.inl ⟨x, y, z, rfl⟩)⟩
  · exact ⟨q, .inr (.inr ⟨e, rfl⟩)⟩

end Sys2Proof.Machine
end

section
/-! PROOFS. The invariant of rule R30: a running command never leaves the positions its pseudocode can stand at. -/

namespace Sys2Proof.Machine

/-! ### Through the port operations of a run -/

/-- What holds of standing at a port operation, is kept by each operation and survives a wait holds of the whole run. -/
theorem drive_induct {line : Pos → Ports → Progress} {Q : Progress → Prop}
    (hline : ∀ p q, Q (.goes p q) → Q (line p q)) (hwait : ∀ p q, Q (.goes p q) → Q (.waits p q))
    (n : Nat) {p : Pos} {q : Ports} (h : Q (.goes p q)) : Q (drive line n p q) := by
  induction n generalizing p q with
  | zero => exact hwait p q h
  | succ n ih =>
    have hl := hline p q h
    cases hp : line p q with
    | goes p' q' => rw [drive_goes hp]; exact ih (hp ▸ hl)
    | _ => rw [drive_stops hp (by simp)]; exact hp ▸ hl

/-- The command goes on or waits only at an allowed position, and is never lost. -/
def Progress.StaysIn (ok : Pos → Bool) : Progress → Prop
  | .goes p _ => ok p = true
  | .waits p _ => ok p = true
  | .ends _ _ => True
  | .lost => False

section
variable (ok : Pos → Bool)

@[simp] theorem staysIn_goes (p : Pos) (q : Ports) : (Progress.goes p q).StaysIn ok ↔ ok p = true := Iff.rfl

@[simp] theorem staysIn_waits (p : Pos) (q : Ports) : (Progress.waits p q).StaysIn ok ↔ ok p = true := Iff.rfl

@[simp] theorem staysIn_ends (e : Ending) (q : Ports) : (Progress.ends e q).StaysIn ok := trivial

end

/-! ### The kernel's commands and `PRIMETEST` -/

theorem portless_staysIn (f : Operands → Except Cause (Word × Word × Word)) (cfg : Params) (o : Operands) {p : Pos}
    (q : Ports) (h : decide (p = .start) = true) :
    (portless f cfg o p q).StaysIn fun p => decide (p = .start) := by
  obtain rfl := of_decide_eq_true h
  simp only [portless, endWith]
  split <;> simp

theorem primetestPosOk_primeDraw {cfg : Params} {o : Operands} {r : Nat} :
    primetestPosOk cfg o (.primeDraw r) = true ↔
      (2 ≤ o.uA ∧ tableVerdict o.uA (smallPrimes cfg.nsp) = none ∧ 0 < o.rounds) ∧ r ≤ o.rounds.toNat := by
  simp [primetestPosOk, and_assoc]

theorem primetestLine_staysIn {cfg : Params} {o : Operands} {p : Pos} (q : Ports)
    (h : primetestPosOk cfg o p = true) : (primetestLine cfg o p q).StaysIn (primetestPosOk cfg o) := by
  cases p with
  | start =>
    simp only [primetestLine, primetestStart, verdict]
    split
    · simp
    · rename_i hA
      split
      · simp
      · rename_i ht
        split
        · rename_i hr
          exact primetestPosOk_primeDraw.2 ⟨⟨by omega, ht, hr⟩, le_rfl⟩
        · simp
  | primeDraw r =>
    cases r with
    | zero => simp [primetestLine, verdict]
    | succ r =>
      obtain ⟨hpath, hr⟩ := primetestPosOk_primeDraw.1 h
      simp only [primetestLine, verdict]
      split
      · exact h
      · split
        · simp
        · exact primetestPosOk_primeDraw.2 ⟨hpath, by omega⟩
  | _ => cases h

/-! ### `ENCODE` in block mode -/

theorem encLocalsOk_iff {o : Operands} {v : EncLocals} :
    encLocalsOk o v = true ↔
      v.remaining = o.uLen - v.blocks * plainWidth o.uM ∧ v.blocks ≤ ceilDiv o.uLen (plainWidth o.uM) := by
  simp [encLocalsOk]

/-- A block stepped past while plaintext is left keeps the locals in order. -/
theorem encLocalsOk_nextBlock {o : Operands} {v : EncLocals} (hv : encLocalsOk o v = true) (hr : 0 < v.remaining) :
    encLocalsOk o ⟨v.remaining - min (plainWidth o.uM) v.remaining, v.blocks + 1⟩ = true := by
  obtain ⟨hrem, -⟩ := encLocalsOk_iff.1 hv
  have hpw := plainWidth_pos o.uM
  have hsucc : (v.blocks + 1) * plainWidth o.uM = v.blocks * plainWidth o.uM + plainWidth o.uM := Nat.succ_mul ..
  refine encLocalsOk_iff.2 ⟨?_, (Nat.le_div_iff_mul_le hpw).2 ?_⟩ <;> simp only [hsucc] <;> omega

/-- The modulus that lets `ENCODE` past its first line (rule R105). -/
def EncodesUnder (t : BlockTransform) (o : Operands) : Prop := o.uM ≠ 0 ∧ (t = .elg → 4 ≤ o.uM)

theorem encodePosOk_encIn {t : BlockTransform} {o : Operands} {got : List Byte} {v : EncLocals} :
    encodePosOk t o (.encIn got v) = true ↔
      EncodesUnder t o ∧ encLocalsOk o v = true ∧ 0 < v.remaining ∧
        got.length < min (plainWidth o.uM) v.remaining := by
  simp [encodePosOk, EncodesUnder, and_assoc, imp_iff_not_or]

theorem encodePosOk_encOut {t : BlockTransform} {o : Operands} {pending : List Byte} {v : EncLocals} :
    encodePosOk t o (.encOut pending v) = true ↔ EncodesUnder t o ∧ encLocalsOk o v = true := by
  simp [encodePosOk, EncodesUnder, and_assoc, imp_iff_not_or]

theorem encodePosOk_encDraw {t : BlockTransform} {o : Operands} {m : Nat} {v : EncLocals} :
    encodePosOk t o (.encDraw m v) = true ↔
      t = .elg ∧ 4 ≤ o.uM ∧ encLocalsOk o v = true ∧ 0 < v.remaining ∧ m < 256 ^ plainWidth o.uM := by
  simp [encodePosOk, and_assoc]

theorem encodeLoop_staysIn {t : BlockTransform} {o : Operands} {v : EncLocals} (q : Ports) (hm : EncodesUnder t o)
    (hv : encLocalsOk o v = true) : (encodeLoop t o v q).StaysIn (encodePosOk t o) := by
  have hpw := plainWidth_pos o.uM
  simp only [encodeLoop]
  split
  · simp
  · exact encodePosOk_encIn.2 ⟨hm, hv, by omega, by rw [List.length_nil]; omega⟩

theorem encodeBlock_staysIn {t : BlockTransform} {o : Operands} {v : EncLocals} (q : Ports)
    (blk : Except Cause (List Byte)) (hm : EncodesUnder t o) (hv : encLocalsOk o v = true) (hr : 0 < v.remaining) :
    (encodeBlock o v q blk).StaysIn (encodePosOk t o) := by
  simp only [encodeBlock]
  split
  · exact encodePosOk_encOut.2 ⟨hm, encLocalsOk_nextBlock hv hr⟩
  · simp

/-- A chunk of at most `pw` bytes has a block value of `pw` bytes (rule R101). -/
theorem chunkValue_lt {pw : Nat} {chunk : List Byte} (h : chunk.length ≤ pw) : chunkValue pw chunk < 256 ^ pw := by
  have := beDec_lt (chunk ++ zeros (pw - chunk.length))
  rwa [List.length_append, zeros_length, Nat.add_sub_cancel' h] at this

theorem encodeChunk_staysIn {t : BlockTransform} {o : Operands} {m : Nat} {v : EncLocals} (q : Ports)
    (hm : EncodesUnder t o) (hv : encLocalsOk o v = true) (hr : 0 < v.remaining)
    (hlt : m < 256 ^ plainWidth o.uM) : (encodeChunk t o m v q).StaysIn (encodePosOk t o) := by
  cases t with
  | elg => exact encodePosOk_encDraw.2 ⟨rfl, hm.2 rfl, hv, hr, hlt⟩
  | _ => exact encodeBlock_staysIn q _ hm hv hr

/-- A `SinRead` never takes more than it asks for. -/
theorem sinRead_length_le {q : Ports} {n : Nat} {got : List Byte} (h : got.length ≤ n) :
    (q.sinRead n got).1.length ≤ n := by
  simp only [Ports.sinRead_fst, List.length_append, List.length_take]
  omega

theorem encodeLine_staysIn {t : BlockTransform} {cfg : Params} {o : Operands} {p : Pos} (q : Ports)
    (h : encodePosOk t o p = true) : (encodeLine t cfg o p q).StaysIn (encodePosOk t o) := by
  cases p with
  | start =>
    simp only [encodeLine]
    split
    · simp
    · rename_i hM
      split
      · simp
      · rename_i hElg
        exact encodePosOk_encOut.2 ⟨⟨hM, fun ht => by by_contra hlt; exact hElg ⟨ht, by omega⟩⟩,
          encLocalsOk_iff.2 ⟨by simp, Nat.zero_le _⟩⟩
  | encOut pending v =>
    obtain ⟨hm, hv⟩ := encodePosOk_encOut.1 h
    simp only [encodeLine]
    split
    · exact encodeLoop_staysIn _ hm hv
    · exact encodePosOk_encOut.2 ⟨hm, hv⟩
  | encIn got v =>
    obtain ⟨hm, hv, hr, hgot⟩ := encodePosOk_encIn.1 h
    simp only [encodeLine]
    split
    · rename_i hlt
      exact encodePosOk_encIn.2 ⟨hm, hv, hr, hlt⟩
    · exact encodeChunk_staysIn _ hm hv hr
        (chunkValue_lt ((sinRead_length_le hgot.le).trans (min_le_left _ _)))
  | encDraw m v =>
    obtain ⟨rfl, hM, hv, hr, -⟩ := encodePosOk_encDraw.1 h
    simp only [encodeLine, if_pos, encodeDraw]
    split
    · exact h
    · exact encodeBlock_staysIn _ _ ⟨by omega, fun _ => hM⟩ hv hr
  | _ => cases h

/-! ### `DECODE` in block mode -/

theorem decLocalsOk_iff {t : BlockTransform} {o : Operands} {v : DecLocals} :
    decLocalsOk t o v = true ↔
      hdrBlock + v.blocks * blockSize t o.uM + v.left = o.uLen ∧
        v.remaining = v.orig - v.blocks * plainWidth o.uM ∧ v.out + v.remaining = v.orig ∧ v.orig < 2 ^ 64 := by
  simp [decLocalsOk, and_assoc]

theorem decodePosOk_decHead {t : BlockTransform} {o : Operands} {got : List Byte} :
    decodePosOk t o (.decHead got) = true ↔ o.uM ≠ 0 ∧ got.length ≤ min o.uLen hdrBlock := by
  simp [decodePosOk]

theorem decodePosOk_decIn {t : BlockTransform} {o : Operands} {got : List Byte} {v : DecLocals} :
    decodePosOk t o (.decIn got v) = true ↔
      o.uM ≠ 0 ∧ decLocalsOk t o v = true ∧ 0 < v.left ∧ got.length < min v.left (blockSize t o.uM) := by
  simp [decodePosOk, and_assoc]

theorem decodePosOk_decOut {t : BlockTransform} {o : Operands} {pending : List Byte} {v : DecLocals} :
    decodePosOk t o (.decOut pending v) = true ↔ o.uM ≠ 0 ∧ decLocalsOk t o v = true := by
  simp [decodePosOk]

theorem decodeLoop_staysIn {t : BlockTransform} {o : Operands} {v : DecLocals} (q : Ports) (hM : o.uM ≠ 0)
    (hv : decLocalsOk t o v = true) : (decodeLoop v q).StaysIn (decodePosOk t o) := by
  have hbs := blockSize_pos t o.uM
  simp only [decodeLoop]
  split
  · split <;> simp
  · exact decodePosOk_decIn.2 ⟨hM, hv, by omega, by rw [List.length_nil]; omega⟩

/-- Eight bytes read little-endian are a 64-bit number. -/
theorem leDec_slice_lt (s : List Byte) (i : Nat) : leDec (slice s i (i + 8)) < 2 ^ 64 :=
  calc leDec (slice s i (i + 8)) < 256 ^ (slice s i (i + 8)).length := leDec_lt _
    _ ≤ 256 ^ 8 := Nat.pow_le_pow_right (by decide) (by simp only [slice, List.length_drop, List.length_take]; omega)
    _ = 2 ^ 64 := by norm_num

theorem decodeHeader_staysIn {t : BlockTransform} {cfg : Params} {o : Operands} (hdr : List Byte) (q : Ports)
    (hM : o.uM ≠ 0) (hlen : hdrBlock ≤ o.uLen) : (decodeHeader t cfg o hdr q).StaysIn (decodePosOk t o) := by
  have hlocals : decLocalsOk t o
      ⟨o.uLen - hdrBlock, leDec (slice hdr 14 22), 0, 0, leDec (slice hdr 14 22)⟩ = true :=
    decLocalsOk_iff.2 ⟨by simp only; omega, by simp, by simp, leDec_slice_lt hdr 14⟩
  simp only [decodeHeader]
  split
  · simp
  · split
    · simp
    · split
      · simp
      · exact decodeLoop_staysIn q hM hlocals

/-- A block consumed keeps the locals in order. -/
theorem decLocalsOk_nextBlock {t : BlockTransform} {o : Operands} {v : DecLocals} (hv : decLocalsOk t o v = true)
    (hleft : blockSize t o.uM ≤ v.left) :
    decLocalsOk t o
      { v with
        left := v.left - blockSize t o.uM
        remaining := v.remaining - min (plainWidth o.uM) v.remaining
        blocks := v.blocks + 1
        out := v.out + min (plainWidth o.uM) v.remaining } = true := by
  obtain ⟨htotal, hrem, hout, horig⟩ := decLocalsOk_iff.1 hv
  have hbs : (v.blocks + 1) * blockSize t o.uM = v.blocks * blockSize t o.uM + blockSize t o.uM := Nat.succ_mul ..
  have hpw : (v.blocks + 1) * plainWidth o.uM = v.blocks * plainWidth o.uM + plainWidth o.uM := Nat.succ_mul ..
  refine decLocalsOk_iff.2 ⟨?_, ?_, ?_, horig⟩ <;> simp only [hbs, hpw] <;> omega

theorem decodeBlock_staysIn {t : BlockTransform} {o : Operands} (blk : List Byte) {v : DecLocals} (q : Ports)
    (hM : o.uM ≠ 0) (hv : decLocalsOk t o v = true) (hleft : blockSize t o.uM ≤ v.left) :
    (decodeBlock t o blk v q).StaysIn (decodePosOk t o) := by
  simp only [decodeBlock]
  split
  · simp
  · split
    · simp
    · exact decodePosOk_decOut.2 ⟨hM, decLocalsOk_nextBlock hv hleft⟩

theorem decodeLine_staysIn {t : BlockTransform} {cfg : Params} {o : Operands} {p : Pos} (q : Ports)
    (h : decodePosOk t o p = true) : (decodeLine t cfg o p q).StaysIn (decodePosOk t o) := by
  cases p with
  | start =>
    simp only [decodeLine]
    split
    · simp
    · rename_i hM
      exact decodePosOk_decHead.2 ⟨hM, Nat.zero_le _⟩
  | decHead got =>
    obtain ⟨hM, -⟩ := decodePosOk_decHead.1 h
    simp only [decodeLine]
    split
    · rename_i hlt
      exact decodePosOk_decHead.2 ⟨hM, hlt.le⟩
    · split
      · simp
      · exact decodeHeader_staysIn _ _ hM (by omega)
  | decIn got v =>
    obtain ⟨hM, hv, hpos, -⟩ := decodePosOk_decIn.1 h
    simp only [decodeLine]
    split
    · rename_i hlt
      exact decodePosOk_decIn.2 ⟨hM, hv, hpos, hlt⟩
    · split
      · simp
      · exact decodeBlock_staysIn _ _ hM hv (by omega)
  | decOut pending v =>
    obtain ⟨hM, hv⟩ := decodePosOk_decOut.1 h
    simp only [decodeLine]
    split
    · exact decodeLoop_staysIn _ hM hv
    · exact decodePosOk_decOut.2 ⟨hM, hv⟩
  | _ => cases h

/-! ### `ENCODE.OTP` -/

theorem padPosOk_padIn {o : Operands} {left : Nat} :
    padPosOk o (.padIn left) = true ↔ o.uLen ≤ o.uKlen ∧ 0 < left ∧ left ≤ o.uLen := by
  simp [padPosOk, and_assoc]

theorem padPosOk_padKey {o : Operands} {b : Byte} {left : Nat} :
    padPosOk o (.padKey b left) = true ↔ o.uLen ≤ o.uKlen ∧ 0 < left ∧ left ≤ o.uLen := by
  simp [padPosOk, and_assoc]

theorem padPosOk_padOut {o : Operands} {pending : List Byte} {left : Nat} :
    padPosOk o (.padOut pending left) = true ↔ o.uLen ≤ o.uKlen ∧ left ≤ o.uLen := by
  simp [padPosOk]

theorem padLoop_staysIn {o : Operands} {left : Nat} (q : Ports) (hk : o.uLen ≤ o.uKlen) (hl : left ≤ o.uLen) :
    (padLoop o left q).StaysIn (padPosOk o) := by
  simp only [padLoop]
  split
  · simp
  · exact padPosOk_padIn.2 ⟨hk, by omega, hl⟩

theorem padLine_staysIn {cfg : Params} {o : Operands} {p : Pos} (q : Ports) (h : padPosOk o p = true) :
    (padLine cfg o p q).StaysIn (padPosOk o) := by
  cases p with
  | start =>
    simp only [padLine]
    split
    · simp
    · exact padPosOk_padOut.2 ⟨by omega, le_rfl⟩
  | padIn left =>
    simp only [padLine]
    split
    · exact h
    · exact padPosOk_padKey.2 (padPosOk_padIn.1 h)
  | padKey b left =>
    obtain ⟨hk, -, hl⟩ := padPosOk_padKey.1 h
    simp only [padLine]
    split
    · exact h
    · exact padPosOk_padOut.2 ⟨hk, by omega⟩
  | padOut pending left =>
    obtain ⟨hk, hl⟩ := padPosOk_padOut.1 h
    simp only [padLine]
    split
    · exact padLoop_staysIn _ hk hl
    · exact padPosOk_padOut.2 ⟨hk, hl⟩
  | _ => cases h

/-! ### `DECODE.OTP` -/

/-- The locals of `DECODE.OTP` after the payload bytes that are no longer left (rule R109). -/
def UnpadLocals (o : Operands) (v : DecLocals) : Prop :=
  hdrOtp + v.left ≤ o.uLen ∧ v.out = min v.orig (o.uLen - hdrOtp - v.left) ∧ v.out + v.remaining = v.orig ∧
    v.orig ≤ o.uKlen

theorem unpadLocalsOk_iff {o : Operands} {v : DecLocals} :
    unpadLocalsOk o v (o.uLen - hdrOtp - v.left) = true ↔ UnpadLocals o v := by
  simp only [unpadLocalsOk, UnpadLocals, Bool.and_eq_true, decide_eq_true_eq, and_assoc]
  refine and_congr_left fun _ => ?_
  omega

theorem unpadPosOk_unpadHead {o : Operands} {got : List Byte} :
    unpadPosOk o (.unpadHead got) = true ↔ got.length ≤ min o.uLen hdrOtp := by
  simp [unpadPosOk]

theorem unpadPosOk_unpadIn {o : Operands} {v : DecLocals} :
    unpadPosOk o (.unpadIn v) = true ↔ UnpadLocals o v ∧ 0 < v.left := by
  simp [unpadPosOk, unpadLocalsOk_iff]

/-- At `KinRead(1)` the payload byte is taken and its plaintext byte not yet produced. -/
theorem unpadPosOk_unpadKey {o : Operands} {c : Byte} {v : DecLocals} :
    unpadPosOk o (.unpadKey c v) = true ↔ 0 < v.remaining ∧ UnpadLocals o { v with left := v.left + 1 } := by
  have h := unpadLocalsOk_iff (o := o) (v := { v with left := v.left + 1 })
  simp only [← Nat.sub_sub] at h
  simp only [unpadPosOk, Bool.and_eq_true, decide_eq_true_eq, and_assoc, h]
  refine and_congr_right fun _ => and_iff_right_of_imp fun hv => ?_
  have := hv.1
  simp only at this
  omega

theorem unpadPosOk_unpadOut {o : Operands} {pending : List Byte} {v : DecLocals} :
    unpadPosOk o (.unpadOut pending v) = true ↔ UnpadLocals o v := by
  simp [unpadPosOk, unpadLocalsOk_iff]

theorem unpadLoop_staysIn {o : Operands} {v : DecLocals} (q : Ports) (hv : UnpadLocals o v) :
    (unpadLoop o v q).StaysIn (unpadPosOk o) := by
  simp only [unpadLoop]
  split
  · split <;> simp
  · exact unpadPosOk_unpadIn.2 ⟨hv, by omega⟩

theorem unpadHeader_staysIn {cfg : Params} {o : Operands} (hdr : List Byte) (q : Ports) (hlen : hdrOtp ≤ o.uLen) :
    (unpadHeader cfg o hdr q).StaysIn (unpadPosOk o) := by
  simp only [unpadHeader]
  split
  · simp
  · split
    · simp
    · refine unpadLoop_staysIn q ⟨?_, ?_, ?_, ?_⟩ <;> simp only <;> omega

/-- A surplus payload byte taken, when nothing is owed, keeps the locals in order. -/
theorem UnpadLocals.dropByte {o : Operands} {v : DecLocals} (hv : UnpadLocals o v) (h0 : v.remaining = 0) :
    UnpadLocals o { v with left := v.left - 1 } := by
  obtain ⟨htotal, hout, horig, hk⟩ := hv
  refine ⟨?_, ?_, horig, hk⟩ <;> simp only <;> omega

/-- A byte produced for the payload byte taken keeps the locals in order. -/
theorem UnpadLocals.produce {o : Operands} {v : DecLocals} (hv : UnpadLocals o { v with left := v.left + 1 })
    (hr : 0 < v.remaining) : UnpadLocals o { v with remaining := v.remaining - 1, out := v.out + 1 } := by
  obtain ⟨htotal, hout, horig, hk⟩ := hv
  simp only at htotal hout horig
  refine ⟨?_, ?_, ?_, hk⟩ <;> simp only <;> omega

theorem unpadLine_staysIn {cfg : Params} {o : Operands} {p : Pos} (q : Ports) (h : unpadPosOk o p = true) :
    (unpadLine cfg o p q).StaysIn (unpadPosOk o) := by
  cases p with
  | start => exact unpadPosOk_unpadHead.2 (Nat.zero_le _)
  | unpadHead got =>
    simp only [unpadLine]
    split
    · rename_i hlt
      exact unpadPosOk_unpadHead.2 hlt.le
    · split
      · simp
      · exact unpadHeader_staysIn _ _ (by omega)
  | unpadIn v =>
    obtain ⟨hv, hl⟩ := unpadPosOk_unpadIn.1 h
    simp only [unpadLine]
    split
    · exact h
    · split
      · rename_i hr
        exact unpadPosOk_unpadKey.2 ⟨hr, by rwa [Nat.sub_add_cancel hl]⟩
      · exact unpadLoop_staysIn _ (hv.dropByte (by omega))
  | unpadKey c v =>
    obtain ⟨hr, hv⟩ := unpadPosOk_unpadKey.1 h
    simp only [unpadLine]
    split
    · exact h
    · exact unpadPosOk_unpadOut.2 (hv.produce hr)
  | unpadOut pending v =>
    have hv := unpadPosOk_unpadOut.1 h
    simp only [unpadLine]
    split
    · exact unpadLoop_staysIn _ hv
    · exact unpadPosOk_unpadOut.2 hv
  | _ => cases h

/-! ### Every command, and the state -/

/-- Every port operation of every command keeps to the command's own positions. -/
theorem lineOf_staysIn {i : Instr} {cfg : Params} {o : Operands} {p : Pos} (q : Ports) (h : posOk cfg o i p = true) :
    (lineOf i cfg o p q).StaysIn (posOk cfg o i) := by
  cases i with
  | modexp signed => exact portless_staysIn _ cfg o q h
  | egcd legacy => exact portless_staysIn _ cfg o q h
  | modinv => exact portless_staysIn _ cfg o q h
  | primetest => exact primetestLine_staysIn q h
  | encodeRsa => exact encodeLine_staysIn q h
  | encodeElg => exact encodeLine_staysIn q h
  | encodeTp => exact encodeLine_staysIn q h
  | encodeOtp => exact padLine_staysIn q h
  | decodeRsa => exact decodeLine_staysIn q h
  | decodeElg => exact decodeLine_staysIn q h
  | decodeTp => exact decodeLine_staysIn q h
  | decodeOtp => exact unpadLine_staysIn q h

/-- A run from a position in order stays in order. -/
theorem drive_staysIn {i : Instr} {cfg : Params} {o : Operands} {p : Pos} (n : Nat) (q : Ports)
    (h : posOk cfg o i p = true) : (drive (lineOf i cfg o) n p q).StaysIn (posOk cfg o i) :=
  drive_induct (Q := Progress.StaysIn (posOk cfg o i)) (fun _ q hp => lineOf_staysIn q hp) (fun _ _ hp => hp) n h

theorem posOk_start (cfg : Params) (o : Operands) (i : Instr) : posOk cfg o i .start = true := by
  cases i <;> rfl

theorem Ctx.ok_of_start {cfg : Params} {c : Ctx} (h : c.pos = .start) : c.ok cfg = true := by
  simp only [Ctx.ok, h]
  split
  · exact posOk_start ..
  · rfl

theorem Ctx.ok_of_decode {cfg : Params} {c : Ctx} {i : Instr} (h : decode c.cmd = .ok i) :
    c.ok cfg = posOk cfg c.ops i c.pos := by
  simp [Ctx.ok, h]

/-- A context in order never faults. -/
theorem exec_ne_fault {i : Instr} {s : State} {c : Ctx} (hc : s.ctx = some c) (hi : decode c.cmd = .ok i)
    (hok : c.ok s.cfg = true) (f : Fault) : exec i s ≠ .fault f := by
  have hstay := drive_staysIn s.ports.turns s.ports (Ctx.ok_of_decode hi ▸ hok)
  rw [exec_eq_runCommand, runCommand_some hc]
  cases hd : drive (lineOf i s.cfg c.ops) s.ports.turns c.pos s.ports with
  | goes p q => exact (drive_ne_goes _ _ _ _ _ _ hd).elim
  | waits p q => simp
  | ends e q => cases e <;> simp
  | lost => rw [hd] at hstay; exact hstay.elim

/-! ### The invariant's parts -/

theorem State.ctxOk_none {s : State} (h : s.ctx = none) : s.ctxOk = true ↔ s.status.busy = false := by
  simp [State.ctxOk, h]

theorem State.ctxOk_some {s : State} {c : Ctx} (h : s.ctx = some c) :
    s.ctxOk = true ↔ s.status.busy = true ∧ c.cmd = s.cmd ∧ c.ok s.cfg = true := by
  simp [State.ctxOk, h, and_assoc]

theorem State.inv_iff (s : State) :
    s.inv = true ↔ s.ctxOk = true ∧ (s.status.busy = true → s.status.done = false ∧ s.status.err = false) ∧
      s.status.err = s.errcode.isSome := by
  simp only [State.inv, Bool.and_eq_true, decide_eq_true_eq]
  cases s.status.busy with
  | false => simp
  | true => simp; tauto

/-- An idle state is in order when `ERR` tells whether an error is recorded. -/
theorem State.inv_of_idle {s : State} (hc : s.ctx = none) (hb : s.status.busy = false)
    (he : s.status.err = s.errcode.isSome) : s.inv = true :=
  s.inv_iff.2 ⟨(State.ctxOk_none hc).2 hb, by simp [hb], he⟩

/-- In a busy state the invariant gives a context in order. -/
theorem State.inv_busy {s : State} (hs : s.inv = true) (hb : s.status.busy = true) :
    ∃ c, s.ctx = some c ∧ c.ok s.cfg = true := by
  obtain ⟨hctx, -, -⟩ := s.inv_iff.1 hs
  cases hc : s.ctx with
  | none => rw [State.ctxOk_none hc, hb] at hctx; cases hctx
  | some c => exact ⟨c, rfl, ((State.ctxOk_some hc).1 hctx).2.2⟩

/-! ### What keeps the invariant -/

theorem inv_complete (s : State) (x y z : Word) : (s.complete x y z).inv = true := State.inv_of_idle rfl rfl rfl

theorem inv_raise (s : State) (e : Cause) : (s.raise e).inv = true := State.inv_of_idle rfl rfl rfl

theorem inv_resetEngine (s : State) : s.resetEngine.inv = true := State.inv_of_idle rfl rfl rfl

theorem inv_accept (s : State) (w : Word) : (s.accept w).inv = true :=
  (s.accept w).inv_iff.2 ⟨(State.ctxOk_some rfl).2 ⟨rfl, rfl, Ctx.ok_of_start rfl⟩, fun _ => ⟨rfl, rfl⟩, rfl⟩

/-- A `STATUS` that keeps `BUSY` and `ERR` and sets no `DONE` keeps the invariant. -/
theorem inv_withStatus {s : State} {x : Status} (hs : s.inv = true) (hb : x.busy = s.status.busy)
    (he : x.err = s.status.err) (hd : s.status.done = false → x.done = false) :
    ({ s with status := x } : State).inv = true := by
  obtain ⟨hctx, hbusy, herr⟩ := s.inv_iff.1 hs
  refine (State.inv_iff _).2 ⟨?_, fun h => ?_, he.trans herr⟩
  · simpa only [State.ctxOk, hb] using hctx
  · obtain ⟨hdone, herr⟩ := hbusy (hb ▸ h)
    exact ⟨hd hdone, he.trans herr⟩

theorem inv_regWrite {s : State} (hs : s.inv = true) (i : Nat) (v : Word) : (s.regWrite i v).inv = true := by
  obtain ⟨-, h⟩ | h | ⟨ie, ops, h⟩ := regWrite_cases s i v
  · rw [h]
    cases hb : s.status.busy with
    | false => rw [writeCmd_idle hb]; exact inv_accept s v
    | true => rw [writeCmd_busy hb]; exact inv_withStatus hs rfl rfl id
  · rw [h]
    exact inv_withStatus hs rfl rfl fun hd => by simp [hd]
  · rw [h]
    exact hs

/-- A run of the accepted command keeps the invariant. -/
theorem inv_exec {i : Instr} {s t : State} {c : Ctx} (hs : s.inv = true) (hc : s.ctx = some c)
    (hi : decode c.cmd = .ok i) (h : exec i s = .next t) : t.inv = true := by
  obtain ⟨hctx, hbusy, herr⟩ := s.inv_iff.1 hs
  obtain ⟨hb, hcmd, hok⟩ := (State.ctxOk_some hc).1 hctx
  have hstay := drive_staysIn s.ports.turns s.ports (Ctx.ok_of_decode hi ▸ hok)
  rw [exec_eq_runCommand] at h
  obtain ⟨c', hc', q, ⟨p, hd, rfl⟩ | ⟨x, y, z, -, rfl⟩ | ⟨e, -, rfl⟩⟩ := runCommand_next h
  · obtain rfl : c = c' := Option.some.inj (hc.symm.trans hc')
    rw [hd] at hstay
    have hok' : ({ c with pos := p } : Ctx).ok s.cfg = true :=
      (Ctx.ok_of_decode (c := { c with pos := p }) hi).trans hstay
    exact (State.inv_iff _).2 ⟨(State.ctxOk_some (c := { c with pos := p }) rfl).2 ⟨hb, hcmd, hok'⟩, hbusy, herr⟩
  · exact inv_complete ..
  · exact inv_raise ..

theorem inv_engineTurn {s t : State} (hs : s.inv = true) (h : engineTurn s = .next t) : t.inv = true := by
  obtain ⟨-, rfl⟩ | ⟨-, rfl⟩ | ⟨c, i, -, hc, hi, hrun⟩ := engineTurn_next h
  · exact hs
  · exact inv_raise ..
  · exact inv_exec hs hc hi hrun

theorem engineTurn_ne_fault {s : State} (hs : s.inv = true) (f : Fault) : engineTurn s ≠ .fault f := by
  cases hb : s.status.busy with
  | false => simp [engineTurn_idle hb]
  | true =>
    obtain ⟨c, hc, hok⟩ := State.inv_busy hs hb
    cases hi : decode c.cmd with
    | error e => simp [engineTurn_illegal hb hc hi]
    | ok i => rw [engineTurn_command hb hc hi]; exact exec_ne_fault hc hi hok f

/-- Settles O16: after reset the engine is idle and no error is recorded. -/
theorem resetMeetsTheInvariant : Obligations.ResetMeetsTheInvariant := State.inv_of_idle rfl rfl rfl

/-- Settles O17: the engine's turn keeps a running command where its pseudocode can stand, and a host write, a reset
and the other events leave the context alone, end it, or start it at its first line. -/
theorem everyStepKeepsTheInvariant : Obligations.EveryStepKeepsTheInvariant := by
  intro s t hs h
  obtain ⟨agenda, hrun⟩ | ⟨i, v, rest, -, rfl⟩ | ⟨rest, -, rfl⟩ | ⟨agenda, readData, ports, rfl⟩ := step_next h
  · exact inv_engineTurn (s := { s with agenda := agenda }) hs hrun
  · exact inv_regWrite (s := { s with agenda := rest }) hs i v
  · exact inv_resetEngine _
  · exact hs

/-- Settles O18: only the engine's turn could fault, and it does not from a position in order. -/
theorem noStepFaultsUnderTheInvariant : Obligations.NoStepFaultsUnderTheInvariant := by
  intro s f hs
  obtain ⟨agenda, h⟩ | ⟨e, rest, -, he, h⟩ := step_cases s
  · rw [h]
    exact engineTurn_ne_fault (s := { s with agenda := agenda }) hs f
  · rw [h]
    exact perform_ne_fault _ he f

end Sys2Proof.Machine
end

section
/-! PROOFS. What a command leaves alone: registers, results, and the ports that are not its own. -/

namespace Sys2Proof.Machine

/-! ### The ports after a port operation -/

/-- The ports as the operation leaves them; none when the command is lost. -/
def Progress.ports : Progress → Option Ports
  | .goes _ q => some q
  | .waits _ q => some q
  | .ends _ q => some q
  | .lost => none

@[simp] theorem ports_goes (p : Pos) (q : Ports) : (Progress.goes p q).ports = some q := rfl

@[simp] theorem ports_waits (p : Pos) (q : Ports) : (Progress.waits p q).ports = some q := rfl

@[simp] theorem ports_ends (e : Ending) (q : Ports) : (Progress.ends e q).ports = some q := rfl

@[simp] theorem ports_lost : Progress.lost.ports = none := rfl

/-! The pieces of the pseudocode between port operations touch no port. -/

@[simp] theorem endWith_ports (r : Except Cause (Word × Word × Word)) (q : Ports) : (endWith r q).ports = some q := by
  unfold endWith
  split <;> rfl

@[simp] theorem verdict_ports (prime : Bool) (q : Ports) : (verdict prime q).ports = some q := rfl

@[simp] theorem primetestStart_ports (cfg : Params) (o : Operands) (q : Ports) :
    (primetestStart cfg o q).ports = some q := by
  unfold primetestStart
  split
  · rfl
  · split
    · rfl
    · split <;> rfl

@[simp] theorem encodeLoop_ports (t : BlockTransform) (o : Operands) (v : EncLocals) (q : Ports) :
    (encodeLoop t o v q).ports = some q := by
  unfold encodeLoop
  split <;> rfl

@[simp] theorem encodeBlock_ports (o : Operands) (v : EncLocals) (q : Ports) (blk : Except Cause (List Byte)) :
    (encodeBlock o v q blk).ports = some q := by
  unfold encodeBlock
  split <;> rfl

@[simp] theorem encodeChunk_ports (t : BlockTransform) (o : Operands) (m : Nat) (v : EncLocals) (q : Ports) :
    (encodeChunk t o m v q).ports = some q := by
  cases t with
  | elg => rfl
  | _ => exact encodeBlock_ports ..

@[simp] theorem decodeLoop_ports (v : DecLocals) (q : Ports) : (decodeLoop v q).ports = some q := by
  unfold decodeLoop
  split
  · split <;> rfl
  · rfl

@[simp] theorem decodeHeader_ports (t : BlockTransform) (cfg : Params) (o : Operands) (hdr : List Byte) (q : Ports) :
    (decodeHeader t cfg o hdr q).ports = some q := by
  unfold decodeHeader
  split
  · rfl
  · split
    · rfl
    · split
      · rfl
      · exact decodeLoop_ports ..

@[simp] theorem decodeBlock_ports (t : BlockTransform) (o : Operands) (blk : List Byte) (v : DecLocals) (q : Ports) :
    (decodeBlock t o blk v q).ports = some q := by
  unfold decodeBlock
  split
  · rfl
  · simp only [apply_ite Progress.ports, ports_ends, ports_goes, ite_self]

@[simp] theorem padLoop_ports (o : Operands) (left : Nat) (q : Ports) : (padLoop o left q).ports = some q := by
  unfold padLoop
  split <;> rfl

@[simp] theorem unpadLoop_ports (o : Operands) (v : DecLocals) (q : Ports) : (unpadLoop o v q).ports = some q := by
  unfold unpadLoop
  split
  · split <;> rfl
  · rfl

@[simp] theorem unpadHeader_ports (cfg : Params) (o : Operands) (hdr : List Byte) (q : Ports) :
    (unpadHeader cfg o hdr q).ports = some q := by
  unfold unpadHeader
  split
  · rfl
  · simp only [apply_ite Progress.ports, ports_ends, unpadLoop_ports, ite_self]

/-! ### What one port operation does to the ports -/

/-- What a port operation of the command `i` may make of the ports: nothing, or what the one primitive it stands at does,
on a port that is the command's own (rules R33, R34, R43 to R45, R47). -/
inductive PortUse (i : Instr) (q : Ports) : Ports → Prop where
  | untouched : PortUse i q q
  | sinRead {n : Nat} {got : List Byte} : usesStreams i = true → PortUse i q (q.sinRead n got).2
  | soutWrite {pending r : List Byte} {q' : Ports} :
    usesStreams i = true → q.soutWrite pending = (r, q') → PortUse i q q'
  | kinByte {k : Byte} {kin : List Byte} : usesKin i = true → q.kin = k :: kin → PortUse i q { q with kin := kin }
  | draw {n : Nat} {a : Option Nat} {q' : Ports} : usesRnd i = true → q.randRange2 n = (a, q') → PortUse i q q'

/-- `SinRead(1)` of one byte offered. -/
theorem PortUse.sinByte {i : Instr} {q : Ports} {b : Byte} {sin : List Byte} (hi : usesStreams i = true)
    (h : q.sin = b :: sin) : PortUse i q { q with sin := sin } := by
  simpa [sinRead_fresh, h] using PortUse.sinRead (q := q) (n := 1) (got := []) hi

section
variable {i : Instr} {cfg : Params} {o : Operands}

theorem portless_portUse (f : Operands → Except Cause (Word × Word × Word)) (p : Pos) (q : Ports) :
    ∀ q' ∈ (portless f cfg o p q).ports, PortUse i q q' := by
  cases p with
  | start => simpa [portless] using PortUse.untouched
  | _ => simp [portless]

theorem primetestLine_portUse (p : Pos) (q : Ports) :
    ∀ q' ∈ (primetestLine cfg o p q).ports, PortUse .primetest q q' := by
  cases p with
  | start => simpa [primetestLine] using PortUse.untouched
  | primeDraw r =>
    cases r with
    | zero => simpa [primetestLine] using PortUse.untouched
    | succ r =>
      simp only [primetestLine]
      split
      · rename_i hd
        simpa using PortUse.draw rfl hd
      · rename_i hd
        split <;> simpa using PortUse.draw rfl hd
  | _ => simp [primetestLine]

theorem encodeLine_portUse {t : BlockTransform} (hi : usesStreams i = true) (ht : t = .elg → usesRnd i = true) (p : Pos)
    (q : Ports) : ∀ q' ∈ (encodeLine t cfg o p q).ports, PortUse i q q' := by
  cases p with
  | start =>
    simp only [encodeLine]
    split
    · simpa using PortUse.untouched
    · split <;> simpa using PortUse.untouched
  | encOut pending v =>
    simp only [encodeLine]
    split <;> rename_i hw <;> simpa using PortUse.soutWrite hi hw
  | encIn got v =>
    simp only [encodeLine]
    split <;> simpa using PortUse.sinRead hi
  | encDraw m v =>
    simp only [encodeLine]
    split
    · rename_i helg
      simp only [encodeDraw]
      split <;> rename_i hd <;> simpa using PortUse.draw (ht helg) hd
    · simp
  | _ => simp [encodeLine]

theorem decodeLine_portUse {t : BlockTransform} (hi : usesStreams i = true) (p : Pos) (q : Ports) :
    ∀ q' ∈ (decodeLine t cfg o p q).ports, PortUse i q q' := by
  cases p with
  | start =>
    simp only [decodeLine]
    split <;> simpa using PortUse.untouched
  | decHead got =>
    simp only [decodeLine]
    split
    · simpa using PortUse.sinRead hi
    · split <;> simpa using PortUse.sinRead hi
  | decIn got v =>
    simp only [decodeLine]
    split
    · simpa using PortUse.sinRead hi
    · split <;> simpa using PortUse.sinRead hi
  | decOut pending v =>
    simp only [decodeLine]
    split <;> rename_i hw <;> simpa using PortUse.soutWrite hi hw
  | _ => simp [decodeLine]

theorem padLine_portUse (p : Pos) (q : Ports) : ∀ q' ∈ (padLine cfg o p q).ports, PortUse .encodeOtp q q' := by
  cases p with
  | start =>
    simp only [padLine]
    split <;> simpa using PortUse.untouched
  | padIn left =>
    simp only [padLine]
    split
    · simpa using PortUse.untouched
    · rename_i hs
      simpa using PortUse.sinByte rfl hs
  | padKey b left =>
    simp only [padLine]
    split
    · simpa using PortUse.untouched
    · rename_i hk
      simpa using PortUse.kinByte rfl hk
  | padOut pending left =>
    simp only [padLine]
    split <;> rename_i hw <;> simpa using PortUse.soutWrite rfl hw
  | _ => simp [padLine]

theorem unpadLine_portUse (p : Pos) (q : Ports) : ∀ q' ∈ (unpadLine cfg o p q).ports, PortUse .decodeOtp q q' := by
  cases p with
  | start => simpa [unpadLine] using PortUse.untouched
  | unpadHead got =>
    simp only [unpadLine]
    split
    · simpa using PortUse.sinRead rfl
    · split <;> simpa using PortUse.sinRead rfl
  | unpadIn v =>
    simp only [unpadLine]
    split
    · simpa using PortUse.untouched
    · rename_i hs
      split <;> simpa using PortUse.sinByte rfl hs
  | unpadKey c v =>
    simp only [unpadLine]
    split
    · simpa using PortUse.untouched
    · rename_i hk
      simpa using PortUse.kinByte rfl hk
  | unpadOut pending v =>
    simp only [unpadLine]
    split <;> rename_i hw <;> simpa using PortUse.soutWrite rfl hw
  | _ => simp [unpadLine]

end

/-- Every port operation of every command uses at most one port, and one of its own. -/
theorem lineOf_portUse (i : Instr) (cfg : Params) (o : Operands) (p : Pos) (q : Ports) :
    ∀ q' ∈ (lineOf i cfg o p q).ports, PortUse i q q' := by
  cases i with
  | modexp signed => exact portless_portUse (cfg := cfg) _ p q
  | egcd legacy => exact portless_portUse (cfg := cfg) _ p q
  | modinv => exact portless_portUse (cfg := cfg) _ p q
  | primetest => exact primetestLine_portUse p q
  | encodeRsa => exact encodeLine_portUse (t := .rsa) rfl nofun p q
  | encodeElg => exact encodeLine_portUse rfl (fun _ => rfl) p q
  | encodeTp => exact encodeLine_portUse (t := .tp) rfl nofun p q
  | encodeOtp => exact padLine_portUse p q
  | decodeRsa => exact decodeLine_portUse rfl p q
  | decodeElg => exact decodeLine_portUse rfl p q
  | decodeTp => exact decodeLine_portUse rfl p q
  | decodeOtp => exact unpadLine_portUse p q

/-- A preorder on ports that every port operation of a command respects is respected by a run of it. -/
theorem exec_ports {i : Instr} {R : Ports → Ports → Prop} (hrefl : ∀ q, R q q)
    (htrans : ∀ q₁ q₂ q₃, R q₁ q₂ → R q₂ q₃ → R q₁ q₃) (huse : ∀ q q', PortUse i q q' → R q q')
    {s t : State} (h : exec i s = .next t) : R s.ports t.ports := by
  have hdrive : ∀ c : Ctx, ∀ q' ∈ (drive (lineOf i s.cfg c.ops) s.ports.turns c.pos s.ports).ports, R s.ports q' := fun c =>
    drive_induct (Q := fun r => ∀ q' ∈ r.ports, R s.ports q')
      (fun p q hq q' hq' => htrans _ _ _ (hq q rfl) (huse _ _ (lineOf_portUse i s.cfg c.ops p q q' hq')))
      (fun _ _ hq => hq) _ (by simpa using hrefl s.ports)
  rw [exec_eq_runCommand] at h
  obtain ⟨c, -, q, ⟨p, hd, rfl⟩ | ⟨x, y, z, hd, rfl⟩ | ⟨e, hd, rfl⟩⟩ := runCommand_next h <;>
    exact hdrive c q (by rw [hd]; rfl)

/-- The ports that are not the command's own are the same. -/
structure SameForeignPorts (i : Instr) (q q' : Ports) : Prop where
  streams : usesStreams i = false → q'.sin = q.sin ∧ q'.sout = q.sout ∧ q'.room = q.room
  kin : usesKin i = false → q'.kin = q.kin
  rnd : usesRnd i = false → q'.rnd = q.rnd

theorem SameForeignPorts.refl (i : Instr) (q : Ports) : SameForeignPorts i q q :=
  ⟨fun _ => ⟨rfl, rfl, rfl⟩, fun _ => rfl, fun _ => rfl⟩

theorem SameForeignPorts.trans {i : Instr} (q₁ q₂ q₃ : Ports) (h : SameForeignPorts i q₁ q₂)
    (h' : SameForeignPorts i q₂ q₃) : SameForeignPorts i q₁ q₃ where
  streams hi := by
    obtain ⟨hsin, hsout, hroom⟩ := h.streams hi
    obtain ⟨hsin', hsout', hroom'⟩ := h'.streams hi
    exact ⟨hsin'.trans hsin, hsout'.trans hsout, hroom'.trans hroom⟩
  kin hi := (h'.kin hi).trans (h.kin hi)
  rnd hi := (h'.rnd hi).trans (h.rnd hi)

theorem PortUse.sameForeignPorts {i : Instr} (q q' : Ports) (h : PortUse i q q') : SameForeignPorts i q q' := by
  cases h with
  | untouched => exact .refl i q
  | sinRead hi => exact ⟨fun hn => by simp [hi] at hn, fun _ => rfl, fun _ => rfl⟩
  | soutWrite hi h => cases h; exact ⟨fun hn => by simp [hi] at hn, fun _ => rfl, fun _ => rfl⟩
  | kinByte hi h => exact ⟨fun _ => ⟨rfl, rfl, rfl⟩, fun hn => by simp [hi] at hn, fun _ => rfl⟩
  | draw hi h => cases h; exact ⟨fun _ => ⟨rfl, rfl, rfl⟩, fun _ => rfl, fun hn => by simp [hi] at hn⟩

/-- Settles O23: every port operation of a run uses a port of the command's own. -/
theorem commandsTouchOnlyTheirPorts : Obligations.CommandsTouchOnlyTheirPorts := by
  intro i s t h
  obtain ⟨hstreams, hkin, hrnd⟩ :=
    exec_ports (SameForeignPorts.refl i) SameForeignPorts.trans PortUse.sameForeignPorts h
  exact ⟨hstreams, hkin, hrnd⟩

/-! ### Registers and results -/

/-- Settles O19: a wait writes `ctx` and the ports, a completion besides them the results, `ERRCODE` and `STATUS`. -/
theorem commandsLeaveOtherRegistersAlone : Obligations.CommandsLeaveOtherRegistersAlone := by
  intro i s t h
  obtain ⟨q, ⟨c, rfl⟩ | ⟨x, y, z, rfl⟩ | ⟨e, rfl⟩⟩ := exec_next h
  · simp
  · simp
  · simp

/-- Settles O20: a run that waits keeps its context, so the clauses about an ended command are about completions. -/
theorem resultsAreWrittenOnlyAtSuccess : Obligations.ResultsAreWrittenOnlyAtSuccess := by
  intro i s t h
  obtain ⟨q, ⟨c, rfl⟩ | ⟨x, y, z, rfl⟩ | ⟨e, rfl⟩⟩ := exec_next h
  · simp
  · simp
  · simp

/-- A run of a command that changes a result has completed without error. -/
theorem exec_results_change {i : Instr} {s t : State} (h : exec i s = .next t)
    (hne : t.r0 ≠ s.r0 ∨ t.r1 ≠ s.r1 ∨ t.r2 ≠ s.r2) :
    t.status = s.status.completed ∧ t.errcode = none ∧ t.ctx = none := by
  obtain ⟨q, ⟨c, rfl⟩ | ⟨x, y, z, rfl⟩ | ⟨e, rfl⟩⟩ := exec_next h
  · simp at hne
  · exact ⟨rfl, rfl, rfl⟩
  · simp at hne

/-- Settles O21: of all moves only reset and a run of the accepted command write a result. -/
theorem resultRegistersChangeOnlyAtCompletion : Obligations.ResultRegistersChangeOnlyAtCompletion := by
  intro s t h hne
  obtain ⟨agenda, hrun⟩ | ⟨i, v, rest, -, rfl⟩ | ⟨rest, ha, -⟩ | ⟨agenda, readData, ports, rfl⟩ := step_next h
  · obtain ⟨-, rfl⟩ | ⟨-, rfl⟩ | ⟨c, i, hb, -, -, hexec⟩ := engineTurn_next hrun
    · simp at hne
    · simp at hne
    · obtain ⟨hst, herr, hctx⟩ := exec_results_change hexec hne
      exact .inr ⟨hb, by simp [hst], by simp [hst], by simp [hst], herr, hctx⟩
  · obtain ⟨h0, h1, h2⟩ := regWrite_results { s with agenda := rest } i v
    simp [h0, h1, h2] at hne
  · exact .inl ⟨rest, ha⟩
  · simp at hne

/-- An engine's turn never starts a command. -/
theorem engineTurn_idle_after {s t : State} (h : engineTurn s = .next t) (hb : s.status.busy = false) :
    t.status.busy = false := by
  rw [engineTurn_idle hb] at h
  cases h
  exact hb

/-- Settles O15: of all moves only the `CMD` write of an idle engine sets `BUSY`. -/
theorem onlyACmdWriteStartsACommand : Obligations.OnlyACmdWriteStartsACommand := by
  intro s t h hidle hbusy
  obtain ⟨agenda, hrun⟩ | ⟨i, v, rest, ha, rfl⟩ | ⟨rest, -, rfl⟩ | ⟨agenda, readData, ports, rfl⟩ := step_next h
  · exact absurd hbusy (by simp [engineTurn_idle_after hrun hidle])
  · obtain ⟨rfl, hw⟩ | hw | ⟨ie, ops, hw⟩ := regWrite_cases { s with agenda := rest } i v
    · rw [hw, writeCmd_idle (s := { s with agenda := rest }) hidle]
      exact ⟨v, rest, ha, rfl, rfl⟩
    · simp [hw, hidle] at hbusy
    · simp [hw, hidle] at hbusy
  · cases hbusy
  · simp [hidle] at hbusy

end Sys2Proof.Machine
end

section
/-! PROOFS. The statements about single operations: the step, accept, the register port, reset, the interrupt line. -/

namespace Sys2Proof.Machine

/-! ### The step, by the agenda's head -/

/-- Whatever the engine's turn answers at `s`, with and without the event `engine` on the agenda, is what the step
answers in the three situations where the turn is the engine's. -/
theorem step_of_engineTurn {s : State} {f : State → Host.Outcome State Fault Refusal}
    (h : ∀ agenda, engineTurn { s with agenda := agenda } = f { s with agenda := agenda }) :
    (s.agenda = [] → step s = f s) ∧
      (∀ rest, s.agenda = .engine :: rest → step s = f { s with agenda := rest }) ∧
      (∀ rest, s.agenda = .waitDone :: rest → s.status.done = false → step s = f s) :=
  ⟨fun ha => (step_of_empty ha).trans (h s.agenda), fun rest ha => (step_of_event ha nofun).trans (h rest),
    fun _ ha hd => (step_of_waiting ha hd).trans (h s.agenda)⟩

/-- Settles O4: by the agenda's head, and at the engine's turn by what the turn answers. -/
theorem stepRunsTheAcceptedCommand : Obligations.StepRunsTheAcceptedCommand := by
  refine ⟨fun s c i hb hc hi => ?_, fun s c e hb hc he => ?_, fun s hb => ?_, fun s rest =>
    ⟨step_of_waited, fun i v ha => ?_, fun i ha => ?_, fun bs ha => ?_, fun bs ha => ?_, fun ws ha => ?_,
      fun n ha => ?_, fun ha => ?_, fun ha => ?_, fun ha => ?_⟩⟩
  · exact step_of_engineTurn fun agenda => engineTurn_command (s := { s with agenda := agenda }) hb hc hi
  · exact step_of_engineTurn (f := fun s => .next (s.raise .illegalCommand)) fun agenda =>
      engineTurn_illegal (s := { s with agenda := agenda }) hb hc he
  · exact step_of_engineTurn (f := .next) fun agenda => engineTurn_idle (s := { s with agenda := agenda }) hb
  all_goals exact step_of_event ha nofun

/-! ### Accept -/

/-- Settles O6: while `BUSY` no host write reaches the context. -/
theorem acceptLatchesOperands : Obligations.AcceptLatchesOperands := by
  intro s w hidle t
  exact ⟨writeCmd_idle hidle w, fun i hi => engineTurn_command rfl rfl hi, regWrite_ctx_of_busy rfl⟩

/-! ### What the register port answers -/

/-- Settles O8: the four bits one by one, and the reserved bits above them. -/
theorem statusReadsItsBitsAndClearsByOne : Obligations.StatusReadsItsBitsAndClearsByOne := by
  intro s v
  obtain ⟨hbusy, hdone, herr, hovr⟩ := status_word_bits s.status
  refine ⟨fun k => ?_, rfl⟩
  rw [regRead_status]
  match k with
  | 0 => simpa using hbusy
  | 1 => simpa using hdone
  | 2 => simpa using herr
  | 3 => simpa using hovr
  | k + 4 => simp [status_word_reserved s.status (Nat.le_add_left 4 k)]

/-- Settles O10: reserved indices name no register, and reserved bits lie above the numbers the words are made of. -/
theorem reservedIndicesAndBitsReadZero : Obligations.ReservedIndicesAndBitsReadZero := by
  intro s v
  refine ⟨fun i hi => ⟨regRead_of_reserved s hi, regWrite_of_reserved s v hi⟩,
    fun k hk => ctrlWord_reserved s.ctrlIE hk, ?_, fun k hk => status_word_reserved s.status hk, ?_,
    fun k hk => errcodeWord_reserved s.errcode hk, rfl, fun hidle => ?_⟩
  · simp
  · simp [hostWrite_masked]
  · simp [writeCmd_idle hidle]

/-- Settles O11, cause by cause. -/
theorem errcodeReadsClassAndCause : Obligations.ErrcodeReadsClassAndCause := by
  refine ⟨fun s h => ?_, fun s e h => ?_⟩
  · rw [regRead_errcode, h, errcodeWord]
  · rw [regRead_errcode, h]
    cases e <;> rfl

/-! ### Reset -/

theorem reg_resetEngine (s : State) (r : Reg) : s.resetEngine.reg r = 0 := by
  cases r <;> rfl

/-- Settles O12: reset zeroes every register and leaves an idle engine, which accepts. -/
theorem resetClearsTheEngineAndLeavesThePorts : Obligations.ResetClearsTheEngineAndLeavesThePorts := fun s =>
  ⟨regRead_eq_zero (reg_resetEngine s), rfl, rfl, rfl, rfl, rfl, fun _ => ⟨rfl, rfl⟩⟩

/-- Settles O13: the state after reset is one that reset leaves as it is. -/
theorem stateAfterResetReadsZero : Obligations.StateAfterResetReadsZero :=
  ⟨regRead_eq_zero (reg_resetEngine State.reset), rfl, rfl⟩

/-! ### The interrupt line -/

/-- Settles O28: both completions set `DONE`, and accept, reset and the `STATUS` write clear it. -/
theorem interruptFollowsCompletion : Obligations.InterruptFollowsCompletion := by
  refine ⟨fun i s t h hc => ?_, fun s v hv => ?_, fun s w => ?_, fun s => rfl, fun s v => ⟨rfl, rfl⟩⟩
  · obtain ⟨q, ⟨c, rfl⟩ | ⟨x, y, z, rfl⟩ | ⟨e, rfl⟩⟩ := exec_next h
    · cases hc
    · simp [State.irq]
    · simp [State.irq]
  · simp [State.irq, hv]
  · simp [State.irq]

end Sys2Proof.Machine
end

section
/-! PROOFS. Why the time of supply does not matter: a port operation supplied with more does what it would have done,
and one that waited goes on, once supplied, as if the supply had been there before. -/

namespace Sys2Proof.Machine

/-! ### The ports once supplied -/

/-- A supply of nothing. -/
@[simp] theorem Ports.supply_empty (q : Ports) : q.supply .empty = q := by
  simp [Ports.supply, Ports.empty]

@[simp] theorem State.supply_empty (s : State) : s.supply .empty = s := by
  simp [State.supply]

theorem sinRead_supply_of_done {q : Ports} {n : Nat} {got : List Byte} (h : ¬ (q.sinRead n got).1.length < n)
    (x : Ports) :
    (q.supply x).sinRead n got = ((q.sinRead n got).1, (q.sinRead n got).2.supply x) := by
  have hlen : n - got.length ≤ q.sin.length := (sinRead_done h) ▸ Nat.le_add_left ..
  simp [Ports.sinRead, Ports.supply, List.take_append_of_le_length hlen, List.drop_append_of_le_length hlen]

/-- A `SinRead` that waited goes on behind the bytes it has taken. -/
theorem sinRead_supply_of_short {q : Ports} {n : Nat} {got : List Byte} (h : (q.sinRead n got).1.length < n)
    (x : Ports) :
    ((q.sinRead n got).2.supply x).sinRead n (q.sinRead n got).1 = (q.supply x).sinRead n got := by
  have hall : q.sin.length ≤ n - got.length := List.drop_eq_nil_iff.1 (sinRead_short h)
  simp [Ports.sinRead, Ports.supply, List.take_append, List.drop_append, List.take_of_length_le hall,
    List.drop_eq_nil_of_le hall, Nat.sub_sub]

theorem soutWrite_supply_of_done {q : Ports} {pending : List Byte} (h : pending.length ≤ q.room) (x : Ports) :
    (q.supply x).soutWrite pending = ([], (q.soutWrite pending).2.supply x) := by
  rw [soutWrite_done h, soutWrite_done (h.trans (Nat.le_add_right ..))]
  simp only [Ports.supply, Nat.sub_add_comm h]

/-- A `SoutWrite` that waited goes on with the bytes it still owes. -/
theorem soutWrite_supply_of_waits {q : Ports} {pending : List Byte} (h : q.room < pending.length) (x : Ports) :
    ((q.soutWrite pending).2.supply x).soutWrite (q.soutWrite pending).1 = (q.supply x).soutWrite pending := by
  have hroom : x.room - (pending.length - q.room) = q.room + x.room - pending.length := by omega
  simp [Ports.soutWrite, Ports.supply, List.take_add, hroom, Nat.sub_eq_zero_of_le h.le]

/-- Words offered behind those that gave a draw are left as they are. -/
theorem randRange2_append_of_some {n a : Nat} {ws : List Word} (h : (randRange2 n ws).1 = some a) (xs : List Word) :
    randRange2 n (ws ++ xs) = (some a, (randRange2 n ws).2 ++ xs) := by
  induction ws with
  | nil => cases h
  | cons w ws ih =>
    simp only [List.cons_append, randRange2] at h ⊢
    split
    · rename_i hw
      rw [if_pos hw] at h
      exact congrArg (·, ws ++ xs) h
    · rename_i hw
      rw [if_neg hw] at h
      exact ih h

/-- A draw that failed is made from the words offered behind. -/
theorem randRange2_append_of_none {n : Nat} {ws : List Word} (h : (randRange2 n ws).1 = none) (xs : List Word) :
    randRange2 n (ws ++ xs) = randRange2 n xs := by
  induction ws with
  | nil => rfl
  | cons w ws ih =>
    simp only [List.cons_append, randRange2] at h ⊢
    split
    · rename_i hw
      rw [if_pos hw] at h
      cases h
    · rename_i hw
      rw [if_neg hw] at h
      exact ih h

theorem randRange2_supply_of_some {q : Ports} {n a : Nat} (h : (q.randRange2 n).1 = some a) (x : Ports) :
    (q.supply x).randRange2 n = (some a, (q.randRange2 n).2.supply x) := by
  simp [Ports.randRange2, Ports.supply, randRange2_append_of_some h]

theorem randRange2_supply_of_none {q : Ports} {n : Nat} (h : (q.randRange2 n).1 = none) (x : Ports) :
    ((q.randRange2 n).2.supply x).randRange2 n = (q.supply x).randRange2 n := by
  simp [Ports.randRange2, Ports.supply, randRange2_append_of_none h, randRange2_none h]

/-! ### What a port operation comes to once supplied -/

/-- What the outcome of a port operation becomes when the environment then supplies `x`: an operation that waits is
done again, every other outcome stands, with the supply on the ports. -/
def Progress.resume (line : Pos → Ports → Progress) (x : Ports) : Progress → Progress
  | .goes p q => .goes p (q.supply x)
  | .waits p q => line p (q.supply x)
  | .ends e q => .ends e (q.supply x)
  | .lost => .lost

/-- Supplying after a port operation and resuming is supplying before it. -/
def Resumes (line : Pos → Ports → Progress) : Prop :=
  ∀ p q x, (line p q).resume line x = line p (q.supply x)

section
variable (line : Pos → Ports → Progress) (x : Ports)

@[simp] theorem resume_goes (p : Pos) (q : Ports) : (Progress.goes p q).resume line x = .goes p (q.supply x) := rfl

@[simp] theorem resume_waits (p : Pos) (q : Ports) : (Progress.waits p q).resume line x = line p (q.supply x) := rfl

@[simp] theorem resume_ends (e : Ending) (q : Ports) : (Progress.ends e q).resume line x = .ends e (q.supply x) := rfl

@[simp] theorem resume_lost : Progress.lost.resume line x = .lost := rfl

/-! The pieces of the pseudocode between port operations never wait, and what they lead to does not depend on the
ports. -/

@[simp] theorem endWith_resume (r : Except Cause (Word × Word × Word)) (q : Ports) :
    (endWith r q).resume line x = endWith r (q.supply x) := by
  unfold endWith
  split <;> rfl

@[simp] theorem verdict_resume (prime : Bool) (q : Ports) :
    (verdict prime q).resume line x = verdict prime (q.supply x) := rfl

@[simp] theorem primetestStart_resume (cfg : Params) (o : Operands) (q : Ports) :
    (primetestStart cfg o q).resume line x = primetestStart cfg o (q.supply x) := by
  unfold primetestStart
  split
  · rfl
  · split
    · rfl
    · split <;> rfl

@[simp] theorem encodeLoop_resume (t : BlockTransform) (o : Operands) (v : EncLocals) (q : Ports) :
    (encodeLoop t o v q).resume line x = encodeLoop t o v (q.supply x) := by
  unfold encodeLoop
  split <;> rfl

@[simp] theorem encodeBlock_resume (o : Operands) (v : EncLocals) (q : Ports) (blk : Except Cause (List Byte)) :
    (encodeBlock o v q blk).resume line x = encodeBlock o v (q.supply x) blk := by
  unfold encodeBlock
  split <;> rfl

@[simp] theorem encodeChunk_resume (t : BlockTransform) (o : Operands) (m : Nat) (v : EncLocals) (q : Ports) :
    (encodeChunk t o m v q).resume line x = encodeChunk t o m v (q.supply x) := by
  cases t with
  | elg => rfl
  | _ => exact encodeBlock_resume ..

@[simp] theorem decodeLoop_resume (v : DecLocals) (q : Ports) :
    (decodeLoop v q).resume line x = decodeLoop v (q.supply x) := by
  unfold decodeLoop
  split
  · split <;> rfl
  · rfl

@[simp] theorem decodeHeader_resume (t : BlockTransform) (cfg : Params) (o : Operands) (hdr : List Byte) (q : Ports) :
    (decodeHeader t cfg o hdr q).resume line x = decodeHeader t cfg o hdr (q.supply x) := by
  simp only [decodeHeader, apply_ite (Progress.resume line x), resume_ends, decodeLoop_resume]

@[simp] theorem decodeBlock_resume (t : BlockTransform) (o : Operands) (blk : List Byte) (v : DecLocals) (q : Ports) :
    (decodeBlock t o blk v q).resume line x = decodeBlock t o blk v (q.supply x) := by
  unfold decodeBlock
  split
  · rfl
  · simp only [apply_ite (Progress.resume line x), resume_ends, resume_goes]

@[simp] theorem padLoop_resume (o : Operands) (left : Nat) (q : Ports) :
    (padLoop o left q).resume line x = padLoop o left (q.supply x) := by
  unfold padLoop
  split <;> rfl

@[simp] theorem unpadLoop_resume (o : Operands) (v : DecLocals) (q : Ports) :
    (unpadLoop o v q).resume line x = unpadLoop o v (q.supply x) := by
  unfold unpadLoop
  split
  · split <;> rfl
  · rfl

@[simp] theorem unpadHeader_resume (cfg : Params) (o : Operands) (hdr : List Byte) (q : Ports) :
    (unpadHeader cfg o hdr q).resume line x = unpadHeader cfg o hdr (q.supply x) := by
  simp only [unpadHeader, apply_ite (Progress.resume line x), resume_ends, unpadLoop_resume]

end

/-! ### The three primitives that keep their place while they wait -/

/-- A `SinRead(n)` that stands at `wait got` while it waits and goes on with `k` once the bytes are there. -/
def sinThen (n : Nat) (wait : List Byte → Pos) (k : List Byte → Ports → Progress) (got : List Byte) (q : Ports) :
    Progress :=
  if (q.sinRead n got).1.length < n then .waits (wait (q.sinRead n got).1) (q.sinRead n got).2
  else k (q.sinRead n got).1 (q.sinRead n got).2

/-- A `SoutWrite` that stands at `wait pending` while it waits and goes on with `k` once all is accepted. -/
def soutThen (wait : List Byte → Pos) (k : Ports → Progress) (pending : List Byte) (q : Ports) : Progress :=
  match q.soutWrite pending with
  | ([], q') => k q'
  | (pending', q') => .waits (wait pending') q'

/-- A `RandRange2(n)` that stands at `p` while it waits and goes on with `k` once a value is drawn. -/
def drawThen (n : Nat) (p : Pos) (k : Nat → Ports → Progress) (q : Ports) : Progress :=
  match q.randRange2 n with
  | (none, q') => .waits p q'
  | (some a, q') => k a q'

theorem soutThen_of_done {wait : List Byte → Pos} {k : Ports → Progress} {pending : List Byte} {q q' : Ports}
    (h : q.soutWrite pending = ([], q')) : soutThen wait k pending q = k q' := by
  rw [soutThen, h]

theorem soutThen_of_waits {wait : List Byte → Pos} {k : Ports → Progress} {pending : List Byte} {q : Ports}
    (h : q.room < pending.length) :
    soutThen wait k pending q = .waits (wait (q.soutWrite pending).1) (q.soutWrite pending).2 := by
  unfold soutThen
  split
  · rename_i hw
    have := List.drop_eq_nil_iff.1 (congrArg Prod.fst hw)
    omega
  · rename_i hw
    rw [hw]

theorem drawThen_of_none {n : Nat} {p : Pos} {k : Nat → Ports → Progress} {q : Ports}
    (h : (q.randRange2 n).1 = none) : drawThen n p k q = .waits p (q.randRange2 n).2 := by
  rw [drawThen, ← Prod.eta (q.randRange2 n), h]

theorem drawThen_of_some {n a : Nat} {p : Pos} {k : Nat → Ports → Progress} {q q' : Ports}
    (h : q.randRange2 n = (some a, q')) : drawThen n p k q = k a q' := by
  rw [drawThen, h]

section
variable {line : Pos → Ports → Progress} {x : Ports}

theorem sinThen_resume {n : Nat} {wait : List Byte → Pos} {k : List Byte → Ports → Progress} {got : List Byte}
    {q : Ports} (hline : ∀ got q, line (wait got) q = sinThen n wait k got q)
    (hk : ∀ bs q, (k bs q).resume line x = k bs (q.supply x)) :
    (sinThen n wait k got q).resume line x = sinThen n wait k got (q.supply x) := by
  by_cases h : (q.sinRead n got).1.length < n
  · simp only [sinThen, h, if_true, resume_waits, hline, sinRead_supply_of_short h]
  · simp only [sinThen, h, if_false, hk, sinRead_supply_of_done h]

theorem soutThen_resume {wait : List Byte → Pos} {k : Ports → Progress} {pending : List Byte} {q : Ports}
    (hline : ∀ pending q, line (wait pending) q = soutThen wait k pending q)
    (hk : ∀ q, (k q).resume line x = k (q.supply x)) :
    (soutThen wait k pending q).resume line x = soutThen wait k pending (q.supply x) := by
  by_cases h : q.room < pending.length
  · rw [soutThen_of_waits h, resume_waits, hline, soutThen, soutThen, soutWrite_supply_of_waits h]
  · have hle := Nat.le_of_not_lt h
    rw [soutThen_of_done (soutWrite_done hle), hk, soutThen_of_done (soutWrite_supply_of_done hle x),
      soutWrite_done hle]

theorem drawThen_resume {n : Nat} {p : Pos} {k : Nat → Ports → Progress} {q : Ports}
    (hline : ∀ q, line p q = drawThen n p k q) (hk : ∀ a q, (k a q).resume line x = k a (q.supply x)) :
    (drawThen n p k q).resume line x = drawThen n p k (q.supply x) := by
  cases h : (q.randRange2 n).1 with
  | none => rw [drawThen_of_none h, resume_waits, hline, drawThen, drawThen, randRange2_supply_of_none h]
  | some a => rw [drawThen_of_some (Prod.ext h rfl), hk, drawThen_of_some (randRange2_supply_of_some h x)]

end

/-! ### Every command resumes -/

theorem portless_resumes (f : Operands → Except Cause (Word × Word × Word)) (cfg : Params) (o : Operands) :
    Resumes (portless f cfg o) := by
  intro p q x
  cases p with
  | start => exact endWith_resume ..
  | _ => rfl

theorem primetestLine_primeDraw (cfg : Params) (o : Operands) (r : Nat) (q : Ports) :
    primetestLine cfg o (.primeDraw (r + 1)) q =
      drawThen o.uA (.primeDraw (r + 1))
        (fun a q => if witnessProves o.uA a then verdict false q else .goes (.primeDraw r) q) q := rfl

theorem primetestLine_resumes (cfg : Params) (o : Operands) : Resumes (primetestLine cfg o) := by
  intro p q x
  cases p with
  | start => exact primetestStart_resume ..
  | primeDraw r =>
    cases r with
    | zero => rfl
    | succ r =>
      refine drawThen_resume (primetestLine_primeDraw cfg o r) fun a q => ?_
      split <;> rfl
  | _ => rfl

section
variable (t : BlockTransform) (cfg : Params) (o : Operands)

theorem encodeLine_encOut (v : EncLocals) (pending : List Byte) (q : Ports) :
    encodeLine t cfg o (.encOut pending v) q = soutThen (.encOut · v) (encodeLoop t o v) pending q := rfl

theorem encodeLine_encIn (v : EncLocals) (got : List Byte) (q : Ports) :
    encodeLine t cfg o (.encIn got v) q =
      sinThen (min (plainWidth o.uM) v.remaining) (.encIn · v)
        (fun bs => encodeChunk t o (chunkValue (plainWidth o.uM) bs) v) got q := rfl

theorem encodeLine_encDraw (m : Nat) (v : EncLocals) (q : Ports) :
    encodeLine .elg cfg o (.encDraw m v) q =
      drawThen o.uM (.encDraw m v) (fun k q => encodeBlock o v q (forwardElg o m k)) q := rfl

theorem encodeLine_resumes : Resumes (encodeLine t cfg o) := by
  intro p q x
  cases p with
  | start => simp only [encodeLine, apply_ite (Progress.resume _ x), resume_ends, resume_goes]
  | encOut pending v => exact soutThen_resume (encodeLine_encOut t cfg o v) (encodeLoop_resume _ x t o v)
  | encIn got v => exact sinThen_resume (encodeLine_encIn t cfg o v) fun bs q => encodeChunk_resume ..
  | encDraw m v =>
    cases t with
    | elg => exact drawThen_resume (encodeLine_encDraw cfg o m v) fun k q => encodeBlock_resume ..
    | _ => rfl
  | _ => rfl

theorem decodeLine_decHead (got : List Byte) (q : Ports) :
    decodeLine t cfg o (.decHead got) q =
      sinThen (min o.uLen hdrBlock) .decHead
        (fun hdr q => if o.uLen < hdrBlock then .ends (.failure .truncated) q else decodeHeader t cfg o hdr q) got q :=
  rfl

theorem decodeLine_decIn (v : DecLocals) (got : List Byte) (q : Ports) :
    decodeLine t cfg o (.decIn got v) q =
      sinThen (min v.left (blockSize t o.uM)) (.decIn · v)
        (fun blk q =>
          if v.left < blockSize t o.uM then .ends (.failure .truncated) q else decodeBlock t o blk v q) got q :=
  rfl

theorem decodeLine_decOut (v : DecLocals) (pending : List Byte) (q : Ports) :
    decodeLine t cfg o (.decOut pending v) q = soutThen (.decOut · v) (decodeLoop v) pending q := rfl

theorem decodeLine_resumes : Resumes (decodeLine t cfg o) := by
  intro p q x
  cases p with
  | start => simp only [decodeLine, apply_ite (Progress.resume _ x), resume_ends, resume_goes]
  | decHead got =>
    refine sinThen_resume (decodeLine_decHead t cfg o) fun hdr q => ?_
    simp only [apply_ite (Progress.resume _ x), resume_ends, decodeHeader_resume]
  | decIn got v =>
    refine sinThen_resume (decodeLine_decIn t cfg o v) fun blk q => ?_
    simp only [apply_ite (Progress.resume _ x), resume_ends, decodeBlock_resume]
  | decOut pending v => exact soutThen_resume (decodeLine_decOut t cfg o v) (decodeLoop_resume _ x v)
  | _ => rfl

theorem padLine_padOut (left : Nat) (pending : List Byte) (q : Ports) :
    padLine cfg o (.padOut pending left) q = soutThen (.padOut · left) (padLoop o left) pending q := rfl

theorem padLine_resumes : Resumes (padLine cfg o) := by
  intro p q x
  cases p with
  | start => simp only [padLine, apply_ite (Progress.resume _ x), resume_ends, resume_goes]
  | padIn left => cases hs : q.sin <;> simp [padLine, hs, Ports.supply]
  | padKey b left => cases hk : q.kin <;> simp [padLine, hk, Ports.supply]
  | padOut pending left => exact soutThen_resume (padLine_padOut cfg o left) (padLoop_resume _ x o left)
  | _ => rfl

theorem unpadLine_unpadHead (got : List Byte) (q : Ports) :
    unpadLine cfg o (.unpadHead got) q =
      sinThen (min o.uLen hdrOtp) .unpadHead
        (fun hdr q => if o.uLen < hdrOtp then .ends (.failure .truncated) q else unpadHeader cfg o hdr q) got q :=
  rfl

theorem unpadLine_unpadOut (v : DecLocals) (pending : List Byte) (q : Ports) :
    unpadLine cfg o (.unpadOut pending v) q = soutThen (.unpadOut · v) (unpadLoop o v) pending q := rfl

theorem unpadLine_resumes : Resumes (unpadLine cfg o) := by
  intro p q x
  cases p with
  | unpadHead got =>
    refine sinThen_resume (unpadLine_unpadHead cfg o) fun hdr q => ?_
    simp only [apply_ite (Progress.resume _ x), resume_ends, unpadHeader_resume]
  | unpadIn v =>
    cases hs : q.sin <;> simp [unpadLine, hs, Ports.supply, apply_ite (Progress.resume _ x)]
  | unpadKey c v => cases hk : q.kin <;> simp [unpadLine, hk, Ports.supply]
  | unpadOut pending v => exact soutThen_resume (unpadLine_unpadOut cfg o v) (unpadLoop_resume _ x o v)
  | _ => rfl

end

/-- Every port operation of every command resumes. -/
theorem lineOf_resumes (i : Instr) (cfg : Params) (o : Operands) : Resumes (lineOf i cfg o) := by
  cases i with
  | modexp signed => exact portless_resumes _ cfg o
  | egcd legacy => exact portless_resumes _ cfg o
  | modinv => exact portless_resumes _ cfg o
  | primetest => exact primetestLine_resumes cfg o
  | encodeRsa => exact encodeLine_resumes .rsa cfg o
  | encodeElg => exact encodeLine_resumes .elg cfg o
  | encodeTp => exact encodeLine_resumes .tp cfg o
  | encodeOtp => exact padLine_resumes cfg o
  | decodeRsa => exact decodeLine_resumes .rsa cfg o
  | decodeElg => exact decodeLine_resumes .elg cfg o
  | decodeTp => exact decodeLine_resumes .tp cfg o
  | decodeOtp => exact unpadLine_resumes cfg o

/-! ### A whole run resumes -/

/-- Two runs that stand at port operations with the same outcome go the same way. -/
theorem drive_eq_of_line_eq {line : Pos → Ports → Progress} (hl : Descends line) {n m : Nat} {p p' : Pos}
    {q q' : Ports} (h : line p q = line p' q') (hn : q.potential p < n) (hm : q'.potential p' < m) :
    drive line n p q = drive line m p' q' := by
  obtain ⟨n, rfl⟩ := Nat.exists_eq_add_one_of_ne_zero (Nat.ne_zero_of_lt hn)
  obtain ⟨m, rfl⟩ := Nat.exists_eq_add_one_of_ne_zero (Nat.ne_zero_of_lt hm)
  cases hp : line p q with
  | goes p₁ q₁ =>
    have hp' := h.symm.trans hp
    have := hl _ _ _ _ hp
    have := hl _ _ _ _ hp'
    rw [drive_goes hp, drive_goes hp']
    exact drive_turns hl (by omega) (by omega)
  | _ => rw [drive_stops hp (by simp), drive_stops (h.symm.trans hp) (by simp)]

/-- A run that waited and is then supplied goes the way of a run supplied from the beginning. -/
theorem drive_supply_of_waits {line : Pos → Ports → Progress} (hl : Descends line) (hr : Resumes line) {n N M : Nat}
    {p p' : Pos} {q q' x : Ports} (hn : q.potential p < n) (h : drive line n p q = .waits p' q')
    (hN : (q.supply x).potential p < N) (hM : (q'.supply x).potential p' < M) :
    drive line M p' (q'.supply x) = drive line N p (q.supply x) := by
  induction n generalizing N p q with
  | zero => exact absurd hn (Nat.not_lt_zero _)
  | succ n ih =>
    have hx := hr p q x
    cases hp : line p q with
    | goes p₁ q₁ =>
      rw [hp, resume_goes] at hx
      rw [drive_goes hp] at h
      have := hl _ _ _ _ hp
      have := hl _ _ _ _ hx.symm
      obtain ⟨N, rfl⟩ := Nat.exists_eq_add_one_of_ne_zero (Nat.ne_zero_of_lt hN)
      rw [drive_goes hx.symm]
      exact ih (by omega) h (by omega)
    | waits p₁ q₁ =>
      rw [hp, resume_waits] at hx
      rw [drive_stops hp (by simp)] at h
      cases h
      exact drive_eq_of_line_eq hl hx hM hN
    | _ => rw [drive_stops hp (by simp)] at h; cases h

/-- A command that waited and is then supplied goes on to the outcome it would have had with the supply from the
beginning (rule R46). -/
theorem exec_supply_of_waits {i : Instr} {s t : State} (h : exec i s = .next t) (hc : t.ctx ≠ none) (x : Ports) :
    exec i (t.supply x) = exec i (s.supply x) := by
  rw [exec_eq_runCommand] at h ⊢
  obtain ⟨c, hctx, q, ⟨p, hd, rfl⟩ | ⟨a, b, d, -, rfl⟩ | ⟨e, -, rfl⟩⟩ := runCommand_next h
  · have hrun := drive_supply_of_waits (x := x) (lineOf_descends i s.cfg c.ops) (lineOf_resumes i s.cfg c.ops)
      (potential_lt_turns ..) hd (potential_lt_turns ..) (potential_lt_turns ..)
    rw [exec_eq_runCommand, runCommand_some (s := s.supply x) hctx, runCommand_some rfl]
    simp only [State.supply, hrun]
    cases drive (lineOf i s.cfg c.ops) (s.ports.supply x).turns c.pos (s.ports.supply x) with
    | ends e r => cases e <;> rfl
    | _ => rfl
  · exact absurd rfl hc
  · exact absurd rfl hc

end Sys2Proof.Machine
end

section
/-! PROOFS. The statements about the ports in a run, about where a run ends, and about register accesses. -/

namespace Sys2Proof.Machine

/-! ### Runs of the machine -/

theorem run_next {s t : State} (h : step s = .next t) (k : Nat) : core.run (k + 1) s = core.run k t := by
  simp [Host.Core.run, core, h]

theorem run_of_fixed {s : State} (h : step s = .next s) (k : Nat) : core.run k s = .next s := by
  induction k with
  | zero => rfl
  | succ k ih => rw [run_next h, ih]

theorem step_of_final {s : State} (h : s.final = true) : step s = .next s := by
  obtain ⟨hagenda, hidle⟩ := s.final_iff.1 h
  rw [step_of_empty hagenda, engineTurn_idle hidle]

/-- A run comes to a final end only in the state it stands in. -/
theorem runEnd_final {s t : State} {owed : Nat} (h : s.runEnd owed = some (.final t)) : t = s ∧ s.final = true := by
  unfold State.runEnd at h
  split at h
  · rename_i hf
    split at h <;> cases h
    exact ⟨rfl, hf⟩
  · split at h <;> cases h

theorem runFrom_final {k owed : Nat} {s t : State} (h : runFrom k owed s = .final t) :
    t.final = true ∧ ∃ j, j ≤ k ∧ core.run j s = .next t := by
  induction k generalizing owed s with
  | zero =>
    cases he : s.runEnd owed with
    | none => simp [runFrom, he] at h
    | some e =>
      rw [runFrom_of_runEnd he] at h
      obtain ⟨rfl, hf⟩ := runEnd_final (h ▸ he)
      exact ⟨hf, 0, le_rfl, rfl⟩
  | succ k ih =>
    cases he : s.runEnd owed with
    | none =>
      cases hs : step s with
      | next u =>
        rw [runFrom_next he hs] at h
        obtain ⟨hf, j, hj, hrun⟩ := ih h
        exact ⟨hf, j + 1, Nat.succ_le_succ hj, (run_next hs j).trans hrun⟩
      | _ => simp [runFrom, he, hs] at h
    | some e =>
      rw [runFrom_of_runEnd he] at h
      obtain ⟨rfl, hf⟩ := runEnd_final (h ▸ he)
      exact ⟨hf, 0, Nat.zero_le _, rfl⟩

/-- Reset ends a command without a completion (rule R150). -/
theorem owedAfter_resetEngine (owed : Nat) (s : State) (rest : List Event) :
    owedAfter owed s { s with agenda := rest }.resetEngine = owed := by
  simp [owedAfter, Status.zero]

/-- Settles O26: a waiting command resumed with a supply of nothing does again what it did, and a stuck or final state
is one its own step leaves as it is. -/
theorem aWaitingEngineStandsStill : Obligations.AWaitingEngineStandsStill := by
  refine ⟨fun i s t h hc => ?_, fun s hs => ?_, fun s hs => ?_, fun k owed s t => runFrom_final,
    fun owed s t rest ha h => ?_⟩
  · simpa [h] using exec_supply_of_waits h hc .empty
  · obtain ⟨hbusy, hstep⟩ := s.stuck_iff.1 hs
    exact ⟨hbusy, by simp [State.final, hbusy], run_of_fixed hstep⟩
  · obtain ⟨hagenda, hidle⟩ := s.final_iff.1 hs
    exact ⟨hagenda, hidle, run_of_fixed (step_of_final hs)⟩
  · rw [step_of_event ha nofun] at h
    cases h
    exact owedAfter_resetEngine owed s rest

/-- Settles O27: the four events put the supply on the ports, and a run that waited resumes as one supplied before. -/
theorem theTimeOfSupplyDoesNotMatter : Obligations.TheTimeOfSupplyDoesNotMatter := by
  refine ⟨fun s x rest ha => ?_, fun i s t x h hc => exec_supply_of_waits h hc x⟩
  rw [run_next (step_of_event ha nofun)]
  rfl

/-! ### The order of the streams -/

/-- What a command may make of the ports: bytes and words leave at the front, and what is appended to `SOUT` uses up
the consumer's readiness. -/
structure MovesInOrder (q q' : Ports) : Prop where
  sin : q'.sin <:+ q.sin
  kin : q'.kin <:+ q.kin
  rnd : q'.rnd <:+ q.rnd
  sout : q.sout <+: q'.sout
  room : q'.sout.length + q'.room = q.sout.length + q.room

theorem MovesInOrder.refl (q : Ports) : MovesInOrder q q :=
  ⟨List.suffix_rfl, List.suffix_rfl, List.suffix_rfl, List.prefix_rfl, rfl⟩

theorem MovesInOrder.trans (q₁ q₂ q₃ : Ports) (h : MovesInOrder q₁ q₂) (h' : MovesInOrder q₂ q₃) :
    MovesInOrder q₁ q₃ :=
  ⟨h'.sin.trans h.sin, h'.kin.trans h.kin, h'.rnd.trans h.rnd, h.sout.trans h'.sout, h'.room.trans h.room⟩

theorem PortUse.movesInOrder {i : Instr} (q q' : Ports) (h : PortUse i q q') : MovesInOrder q q' := by
  cases h with
  | untouched => exact .refl q
  | sinRead => exact { MovesInOrder.refl q with sin := List.drop_suffix .. }
  | soutWrite _ h =>
    cases h
    refine { MovesInOrder.refl q with sout := List.prefix_append .., room := ?_ }
    simp only [List.length_append, List.length_take]
    omega
  | kinByte _ h => exact { MovesInOrder.refl q with kin := h ▸ List.suffix_cons .. }
  | draw _ h => cases h; exact { MovesInOrder.refl q with rnd := randRange2_suffix .. }

/-- Settles O24: every port operation of a run moves the streams in order. -/
theorem streamsMoveInOrder : Obligations.StreamsMoveInOrder := by
  intro i s t h
  obtain ⟨hsin, hkin, hrnd, hsout, hroom⟩ :=
    exec_ports MovesInOrder.refl MovesInOrder.trans PortUse.movesInOrder h
  exact ⟨hsin, hkin, hrnd, hsout, hroom⟩

/-! ### What a running command reads -/

/-- Settles O25: the way a run goes is computed from the context, the ports and the parameters. -/
theorem runningCommandsReadNoRegister : Obligations.RunningCommandsReadNoRegister := by
  intro i s t u h hctx hports hcfg
  rw [exec_eq_runCommand] at h ⊢
  obtain ⟨c, hc, q, ⟨p, hd, rfl⟩ | ⟨x, y, z, hd, rfl⟩ | ⟨e, hd, rfl⟩⟩ := runCommand_next h
  all_goals
    rw [runCommand_some (hctx.trans hc), hcfg, hports, hd]
    refine ⟨_, rfl, ?_⟩
    simp

/-! ### Register accesses -/

/-- Settles O14: the event has no meaning. -/
theorem partRegisterAccessIsRefused : Obligations.PartRegisterAccessIsRefused :=
  fun _ _ _ _ ha => step_of_event ha nofun

/-- A write to an operand register is read back. -/
theorem regRead_regWrite_operand (s : State) (v : Word) {i : Nat} (h : 0x04 ≤ i) (h' : i ≤ 0x0A) :
    (s.regWrite i v).regRead i = v := by
  interval_cases i <;> rfl

/-- Rule R23: `CTRL` keeps bit 0 of what is written. -/
theorem ctrlWord_getLsbD_zero (v : Word) : ctrlWord (v.getLsbD 0) = v &&& 1#64 := by
  rw [BitVec.and_one_eq_setWidth_ofBool_getLsbD]
  cases v.getLsbD 0 <;> rfl

/-- The read-only registers and the reserved indices ignore a write. -/
theorem regWrite_of_readOnly (s : State) (v : Word) {i : Nat} (h : i = 0x02 ∨ 0x0B ≤ i) : s.regWrite i v = s := by
  by_cases hr : i = 0x0B ∨ 0x0F ≤ i
  · exact regWrite_of_reserved s v hr
  · have : i = 0x02 ∨ i = 0x0C ∨ i = 0x0D ∨ i = 0x0E := by omega
    obtain rfl | rfl | rfl | rfl := this <;> rfl

/-- A write to a register other than `CMD` and `STATUS` changes no other register. -/
theorem reg_regWrite_of_ne (s : State) (v : Word) {r r' : Reg} (hs : r ≠ .status) (hc : r ≠ .cmd) (hne : r' ≠ r) :
    (s.regWrite r.index v).reg r' = s.reg r' := by
  cases r with
  | status => exact absurd rfl hs
  | cmd => exact absurd rfl hc
  | _ => cases r' <;> simp [State.regWrite, Reg.index, Reg.ofIndex, State.reg] at hne ⊢

theorem regRead_regWrite_of_ne (s : State) (v : Word) {i j : Nat} (hs : i ≠ 0x01) (hc : i ≠ 0x03) (hne : j ≠ i) :
    (s.regWrite i v).regRead j = s.regRead j := by
  cases hi : Reg.ofIndex i with
  | none => rw [State.regWrite, hi]
  | some r =>
    obtain rfl := Reg.ofIndex_eq_some_iff.1 hi
    unfold State.regRead
    split
    · rename_i r' hj
      obtain rfl := Reg.ofIndex_eq_some_iff.1 hj
      refine reg_regWrite_of_ne s v ?_ ?_ ?_ <;> rintro rfl
      · exact hs rfl
      · exact hc rfl
      · exact hne rfl
    · rfl

/-- Settles O9: the writes index by index, and what else a write could reach from what a host write can do. -/
theorem registerAccessesHaveOnlyTheirOwnEffects : Obligations.RegisterAccessesHaveOnlyTheirOwnEffects := by
  intro s i v
  refine ⟨fun rest ha => ⟨_, step_of_event ha nofun⟩, regRead_regWrite_operand s v, ctrlWord_getLsbD_zero v,
    regWrite_of_readOnly s v, fun hs hc => ⟨fun j => regRead_regWrite_of_ne s v hs hc, ?_⟩⟩
  obtain ⟨rfl, -⟩ | h | ⟨ie, ops, h⟩ := regWrite_cases s i v
  · exact absurd rfl hc
  · simp [h]
  · simp [h]

end Sys2Proof.Machine
end

section
/-! PROOFS. The command word: what its fields say, that decoding and encoding undo each other, and which words are
illegal. -/

namespace Sys2Proof.Machine

/-! ### The fields of a command word (rule R60) -/

theorem ofBool_getLsbD (w : Word) (k : Nat) : BitVec.ofBool (w.getLsbD k) = w.extractLsb' k 1 := by
  ext j hj
  obtain rfl : j = 0 := by omega
  simp

/-- A word with the reserved bits clear is put together from its four other fields. -/
theorem commandWord_fields {w : Word} (h : fieldReserved w = 0#50) :
    commandWord (fieldOpc w) (fieldT w) (fieldS w) (fieldV w) = w := by
  rw [commandWord, ← h, fieldReserved, fieldV, fieldS, fieldT, fieldOpc, ofBool_getLsbD, ofBool_getLsbD]
  iterate 4 rw [BitVec.extractLsb'_append_extractLsb'_eq_extractLsb' (by rfl)]
  exact BitVec.extractLsb'_eq_self

theorem fieldReserved_eq_zero_iff {w : Word} : fieldReserved w = 0#50 ↔ w.toNat < 2 ^ 14 := by
  have := w.isLt
  rw [fieldReserved, ← BitVec.toNat_inj, BitVec.extractLsb'_toNat, Nat.shiftRight_eq_div_pow]
  simp only [BitVec.toNat_ofNat]
  omega

/-- `T` selects a transform unless it is reserved, 4 to 15. -/
theorem exists_transformOf_iff {t : BitVec 4} : (∃ x, transformOf t = some x) ↔ t.toNat < 4 := by
  rw [← Option.isSome_iff_exists]
  revert t
  decide

/-- The codec commands of a transform have its `T` in their words. -/
theorem commandWord_of_transformOf {t : BitVec 4} {x : Transform} (h : transformOf t = some x) :
    commandWord 0x08#8 t false false = encode (encodeCommand x) ∧
      commandWord 0x09#8 t false false = encode (decodeCommand x) := by
  unfold transformOf at h
  split_ifs at h with ht ht ht ht
  all_goals cases h; exact ⟨ht ▸ rfl, ht ▸ rfl⟩

/-! ### What decodes to a command (rule R62) -/

theorem ite_error_eq_ok_iff {c : Prop} [Decidable c] {e : Reject} {i j : Instr} :
    (if c then Except.ok i else Except.error e) = Except.ok j ↔ c ∧ i = j := by
  split_ifs with h <;> simp [h]

theorem decodeCodec_eq_ok_iff {t : BitVec 4} {s v : Bool} {command : Transform → Instr} {i : Instr} :
    decodeCodec t s v command = .ok i ↔ (∃ x, transformOf t = some x ∧ command x = i) ∧ s = false ∧ v = false := by
  cases s <;> cases v <;> cases h : transformOf t <;> simp [decodeCodec, h]

/-- Everything that decodes to a command, one line per operation code. -/
theorem decode_eq_ok_iff {w : Word} {i : Instr} : decode w = .ok i ↔ fieldReserved w = 0#50 ∧
    (fieldOpc w = 0x01#8 ∧ fieldT w = 0#4 ∧ fieldV w = false ∧ .modexp (fieldS w) = i ∨
      fieldOpc w = 0x02#8 ∧ fieldT w = 0#4 ∧ fieldS w = false ∧ .egcd (fieldV w) = i ∨
      fieldOpc w = 0x03#8 ∧ fieldT w = 0#4 ∧ fieldS w = false ∧ fieldV w = false ∧ .modinv = i ∨
      fieldOpc w = 0x04#8 ∧ fieldT w = 0#4 ∧ fieldS w = false ∧ fieldV w = false ∧ .primetest = i ∨
      fieldOpc w = 0x08#8 ∧ (∃ x, transformOf (fieldT w) = some x ∧ encodeCommand x = i) ∧ fieldS w = false ∧
        fieldV w = false ∨
      fieldOpc w = 0x09#8 ∧ (∃ x, transformOf (fieldT w) = some x ∧ decodeCommand x = i) ∧ fieldS w = false ∧
        fieldV w = false) := by
  unfold decode
  split_ifs with hr h1 h2 h3 h4 h8 h9
  all_goals simp_all [ite_error_eq_ok_iff, decodeCodec_eq_ok_iff, and_assoc]

/-- The same, without saying which command it is. -/
theorem exists_decode_eq_ok_iff {w : Word} : (∃ i, decode w = .ok i) ↔ fieldReserved w = 0#50 ∧
    (fieldOpc w = 0x01#8 ∧ fieldT w = 0#4 ∧ fieldV w = false ∨
      fieldOpc w = 0x02#8 ∧ fieldT w = 0#4 ∧ fieldS w = false ∨
      fieldOpc w = 0x03#8 ∧ fieldT w = 0#4 ∧ fieldS w = false ∧ fieldV w = false ∨
      fieldOpc w = 0x04#8 ∧ fieldT w = 0#4 ∧ fieldS w = false ∧ fieldV w = false ∨
      fieldOpc w = 0x08#8 ∧ (fieldT w).toNat < 4 ∧ fieldS w = false ∧ fieldV w = false ∨
      fieldOpc w = 0x09#8 ∧ (fieldT w).toNat < 4 ∧ fieldS w = false ∧ fieldV w = false) := by
  simp only [decode_eq_ok_iff, exists_and_left, exists_and_right, exists_or, exists_eq', and_true,
    exists_comm (α := Instr), exists_transformOf_iff]

/-! ### Decoding and encoding -/

theorem decode_encode (i : Instr) : decode (encode i) = .ok i := by
  cases i with
  | modexp signed => cases signed <;> rfl
  | egcd legacy => cases legacy <;> rfl
  | _ => rfl

theorem eq_encode_of_decode {w : Word} {i : Instr} (h : decode w = .ok i) : w = encode i := by
  obtain ⟨hr, h⟩ := decode_eq_ok_iff.1 h
  rw [← commandWord_fields hr]
  obtain ⟨ho, ht, hv, rfl⟩ | ⟨ho, ht, hs, rfl⟩ | ⟨ho, ht, hs, hv, rfl⟩ | ⟨ho, ht, hs, hv, rfl⟩ |
    ⟨ho, ⟨x, hx, rfl⟩, hs, hv⟩ | ⟨ho, ⟨x, hx, rfl⟩, hs, hv⟩ := h
  · rw [ho, ht, hv, encode]
  · rw [ho, ht, hs, encode]
  · rw [ho, ht, hs, hv, encode]
  · rw [ho, ht, hs, hv, encode]
  · rw [ho, hs, hv, (commandWord_of_transformOf hx).1]
  · rw [ho, hs, hv, (commandWord_of_transformOf hx).2]

/-- Settles O1: the fields of a word that decodes are those of the command's own word. -/
theorem decodeAcceptsExactlyTheCommandWords : Obligations.DecodeAcceptsExactlyTheCommandWords := by
  intro w i
  exact ⟨eq_encode_of_decode, fun h => h ▸ decode_encode i⟩

/-- A table row with one free bit `k`: the word is the row's match, with bit `k` as it stands. -/
theorem and_not_twoPow_eq_iff {w m : Word} {k : Nat} (hm : m &&& ~~~BitVec.twoPow 64 k = m) :
    w &&& ~~~BitVec.twoPow 64 k = m ↔ w = m ||| if w.getLsbD k then BitVec.twoPow 64 k else 0#64 := by
  rw [← BitVec.and_twoPow]
  constructor
  · rintro rfl
    rw [← BitVec.and_or_distrib_left, BitVec.or_comm, BitVec.or_not_self, BitVec.and_allOnes]
  · intro h
    rw [h, BitVec.and_or_distrib_right, hm, BitVec.and_assoc, BitVec.and_not_self]
    simp

theorem masked_modexp_iff (w : Word) :
    w &&& 0xFFFFFFFFFFFFEFFF#64 = 0x0001#64 ↔ w = encode (.modexp (w.getLsbD 12)) :=
  (and_not_twoPow_eq_iff (k := 12) rfl).trans (by cases w.getLsbD 12 <;> rfl)

theorem masked_egcd_iff (w : Word) :
    w &&& 0xFFFFFFFFFFFFDFFF#64 = 0x0002#64 ↔ w = encode (.egcd (w.getLsbD 13)) :=
  (and_not_twoPow_eq_iff (k := 13) rfl).trans (by cases w.getLsbD 13 <;> rfl)

/-- Settles O2: each row matches exactly the word of its command. -/
theorem opcodeTableRowsTellTheCommand : Obligations.OpcodeTableRowsTellTheCommand := by
  intro w
  have row (i : Instr) : w = encode i ↔ decode w = .ok i := (decodeAcceptsExactlyTheCommandWords w i).symm
  exact ⟨(masked_modexp_iff w).trans (row _), (masked_egcd_iff w).trans (row _), row .modinv, row .primetest,
    row .encodeRsa, row .encodeElg, row .encodeTp, row .encodeOtp, row .decodeRsa, row .decodeElg, row .decodeTp,
    row .decodeOtp, fun w' i h h' => (eq_encode_of_decode h).trans (eq_encode_of_decode h').symm⟩

/-- Settles O3: six of the words are encodings; the all-zero word has `OPC` 0. -/
theorem sampleCommandWordsDecode : Obligations.SampleCommandWordsDecode :=
  ⟨decode_encode (.modexp true), decode_encode (.egcd true), decode_encode .modinv, decode_encode .primetest,
    decode_encode .encodeTp, decode_encode .decodeOtp, rfl⟩

/-! ### Illegal words (rule R63) -/

/-- An illegal word is accepted, and ends at the engine's turn. -/
theorem engineTurn_regWrite_illegal {s : State} {w : Word} (hidle : s.status.busy = false)
    (h : ∀ i, decode w ≠ .ok i) :
    engineTurn (s.regWrite 0x03 w) = .next ((s.accept w).raise .illegalCommand) := by
  rw [regWrite_cmd, writeCmd_idle hidle]
  cases hd : decode w with
  | ok i => exact absurd hd (h i)
  | error e => exact engineTurn_illegal rfl (State.accept_ctx ..) hd

/-- Settles O5: the first clause by the operation code, one of the six or none. -/
theorem illegalWordCompletesWithIllegalCommand : Obligations.IllegalWordCompletesWithIllegalCommand := by
  refine ⟨fun w => ?_, fun s w => engineTurn_regWrite_illegal⟩
  rw [← not_iff_not]
  simp only [ne_eq, not_forall, not_not, exists_decode_eq_ok_iff, fieldReserved_eq_zero_iff]
  by_cases h : fieldOpc w ∈ [0x01#8, 0x02#8, 0x03#8, 0x04#8, 0x08#8, 0x09#8]
  · simp only [List.mem_cons, List.not_mem_nil, or_false] at h
    obtain h | h | h | h | h | h := h <;> simp +contextual [h]
  · simp_all

end Sys2Proof.Machine
end

section
/-! PROOFS. What the kernel's functions compute: `modpow` the closed power of 40_kernel.md rule R82, `egcd` a Bezout
triple whose coefficients are small, and `modinv` the inverse. -/

namespace Sys2Proof.Machine

/-! ### The floor remainder (rule R9) -/

theorem floorMod_cast (a : Int) {m : Nat} (h : m ≠ 0) : (floorMod a m : Int) = a % m :=
  Int.toNat_of_nonneg (Int.emod_nonneg a (mod_cast h))

theorem floorMod_lt (a : Int) {m : Nat} (h : m ≠ 0) : floorMod a m < m := by
  rw [← Int.ofNat_lt, floorMod_cast a h]
  exact Int.emod_lt_of_pos a (mod_cast Nat.pos_of_ne_zero h)

/-! ### `modpow` (rules R74, R83) -/

/-- One bit of the exponent: the product goes into the result at an odd exponent, and the base is squared. -/
theorem square_multiply_modEq (m r b e : Nat) :
    (if e % 2 = 1 then mulmod r b m else r) * mulmod b b m ^ (e / 2) ≡ r * b ^ e [MOD m] := by
  have hsq : mulmod b b m ^ (e / 2) ≡ b ^ (2 * (e / 2)) [MOD m] := by
    rw [pow_mul, pow_two]
    exact (Nat.mod_modEq (b * b) m).pow (e / 2)
  split
  · rename_i hodd
    have he : r * b ^ e = r * b * b ^ (2 * (e / 2)) := by
      rw [mul_assoc, ← pow_succ', Nat.two_mul_div_two_add_one_of_odd (Nat.odd_iff.2 hodd)]
    rw [he]
    exact (Nat.mod_modEq (r * b) m).mul hsq
  · rename_i heven
    rw [Nat.two_mul_div_two_of_even (Nat.even_iff.2 (by omega))] at hsq
    exact hsq.mul_left r

/-- With a turn for each bit of the exponent, the loop multiplies its result by the power. -/
theorem powLoop_eq {m turns r b e : Nat} (hr : r < m) (he : e < 2 ^ turns) :
    powLoop m turns r b e = r * b ^ e % m := by
  induction turns generalizing r b e with
  | zero =>
    obtain rfl : e = 0 := by simpa using he
    simp [powLoop, Nat.mod_eq_of_lt hr]
  | succ turns ih =>
    rw [powLoop_succ]
    split
    · simp [*, Nat.mod_eq_of_lt hr]
    · have hr' : (if e % 2 = 1 then mulmod r b m else r) < m := by
        split
        · exact Nat.mod_lt _ (by omega)
        · exact hr
      rw [ih hr' (by omega)]
      exact square_multiply_modEq m r b e

/-- `modpow` is the closed power (rule R82, property 1), `0^0` being 1. -/
theorem powMod_cast (base : Int) (e : Nat) {m : Nat} (h : m ≠ 0) : (powMod base e m : Int) = base ^ e % m := by
  have hloop : powMod base e m = 1 % m * floorMod base m ^ e % m :=
    powLoop_eq (Nat.mod_lt 1 (Nat.pos_of_ne_zero h)) (lt_two_pow_bitlength e)
  have hbase : (floorMod base m : Int) ≡ base [ZMOD m] := floorMod_cast base h ▸ Int.mod_modEq base m
  rw [hloop, Nat.mod_mul_mod, one_mul]
  push_cast
  exact hbase.pow e

/-! ### The iteration of `egcd` (rule R78) -/

/-- A second remainder of zero ends the iteration. -/
@[simp] theorem egcdLoop_zero_right (turns : Nat) (first : Nat × Int × Int) (s t : Int) :
    egcdLoop turns first (0, s, t) = first := by
  cases turns <;> rfl

/-- A turn of the iteration leaves the remainder of the division. -/
theorem egcdLoop_of_pos {r1 : Nat} (h : 0 < r1) (turns r0 : Nat) (s0 t0 s1 t1 : Int) :
    egcdLoop (turns + 1) (r0, s0, t0) (r1, s1, t1) =
      egcdLoop turns (r1, s1, t1) (r0 % r1, s0 - (r0 / r1 : Nat) * s1, t0 - (r0 / r1 : Nat) * t1) := by
  rw [egcdLoop_succ, if_neg h.ne', Nat.mod_def, Nat.mul_comm r1]

/-- The loop works on both triples linearly: it weighs the coefficients it starts from with those it would give from
the unit coefficients. -/
theorem egcdLoop_linear (turns r0 r1 : Nat) (s0 t0 s1 t1 : Int) :
    egcdLoop turns (r0, s0, t0) (r1, s1, t1) =
      ((egcdLoop turns (r0, 1, 0) (r1, 0, 1)).1,
        (egcdLoop turns (r0, 1, 0) (r1, 0, 1)).2.1 * s0 + (egcdLoop turns (r0, 1, 0) (r1, 0, 1)).2.2 * s1,
        (egcdLoop turns (r0, 1, 0) (r1, 0, 1)).2.1 * t0 + (egcdLoop turns (r0, 1, 0) (r1, 0, 1)).2.2 * t1) := by
  induction turns generalizing r0 r1 s0 t0 s1 t1 with
  | zero => simp [egcdLoop]
  | succ turns ih =>
    obtain rfl | hr := Nat.eq_zero_or_pos r1
    · simp
    · rw [egcdLoop_of_pos hr, egcdLoop_of_pos hr, ih, ih (s0 := 0)]
      ext <;> simp only <;> ring

/-- Turns beyond the second remainder make no difference. -/
theorem egcdLoop_turns {n m r1 : Nat} (hn : r1 ≤ n) (hm : r1 ≤ m) (r0 : Nat) (s0 t0 s1 t1 : Int) :
    egcdLoop n (r0, s0, t0) (r1, s1, t1) = egcdLoop m (r0, s0, t0) (r1, s1, t1) := by
  obtain rfl | hr := Nat.eq_zero_or_pos r1
  · simp
  induction n generalizing m r0 r1 s0 t0 s1 t1 with
  | zero => omega
  | succ n ih =>
    obtain ⟨m, rfl⟩ := Nat.exists_eq_succ_of_ne_zero (hr.trans_le hm).ne'
    have hlt := Nat.mod_lt r0 hr
    rw [egcdLoop_of_pos hr, egcdLoop_of_pos hr]
    obtain hz | hpos := Nat.eq_zero_or_pos (r0 % r1)
    · simp [hz]
    · exact ih (by omega) (by omega) _ _ _ _ _ hpos

theorem egcd_zero_right (a : Nat) : egcd a 0 = (a, 1, 0) := rfl

/-- One turn with the quotient `a div b`: the pair of `(b, a mod b)` gives the pair of `(a, b)`. -/
theorem egcd_of_pos (a : Nat) {b : Nat} (h : 0 < b) :
    egcd a b =
      ((egcd b (a % b)).1, (egcd b (a % b)).2.2,
        (egcd b (a % b)).2.1 - ((a / b : Nat) : Int) * (egcd b (a % b)).2.2) := by
  have hlt := Nat.mod_lt a h
  obtain ⟨n, rfl⟩ := Nat.exists_eq_succ_of_ne_zero h.ne'
  rw [egcd, egcdLoop_of_pos h, egcdLoop_linear, egcdLoop_turns (Nat.le_of_lt_succ hlt) le_rfl]
  ext <;> simp only [egcd] <;> ring

/-- Where `b` divides `a`, the first turn ends the iteration. -/
theorem egcd_of_dvd {a b : Nat} (h : 0 < b) (hd : b ∣ a) : egcd a b = (b, 0, 1) := by
  simp [egcd_of_pos a h, Nat.mod_eq_zero_of_dvd hd, egcd_zero_right]

/-- A first turn with quotient 0 swaps the triples (rule R79). -/
theorem egcd_of_lt {a b : Nat} (h : a < b) : egcd a b = ((egcd b a).1, (egcd b a).2.2, (egcd b a).2.1) := by
  rw [egcd_of_pos a (by omega), Nat.mod_eq_of_lt h, Nat.div_eq_of_lt h]
  simp

/-! ### The triple of `egcd` -/

/-- Induction along the remainders of Euclid's algorithm, in the order of the arguments of `egcd`. -/
theorem euclid_induction {P : Nat → Nat → Prop} (zero : ∀ a, P a 0) (turn : ∀ a b, 0 < b → P b (a % b) → P a b)
    (a b : Nat) : P a b :=
  Nat.gcd.induction (P := fun b a => P a b) b a zero fun b a => turn a b

theorem egcd_fst (a b : Nat) : (egcd a b).1 = Nat.gcd a b := by
  induction a, b using euclid_induction with
  | zero a => simp [egcd_zero_right]
  | turn a b hb ih => rw [egcd_of_pos a hb, ih, Nat.gcd_comm b, ← Nat.gcd_rec, Nat.gcd_comm]

/-- The Bezout identity, which a turn keeps because `a = b * (a div b) + a mod b`. -/
theorem egcd_bezout (a b : Nat) :
    (a : Int) * (egcd a b).2.1 + (b : Int) * (egcd a b).2.2 = ((egcd a b).1 : Int) := by
  induction a, b using euclid_induction with
  | zero a => simp [egcd_zero_right]
  | turn a b hb ih =>
    have hdiv : (a : Int) = b * (a / b : Nat) + (a % b : Nat) := mod_cast (Nat.div_add_mod a b).symm
    rw [egcd_of_pos a hb, ← ih]
    linear_combination (egcd b (a % b)).2.2 * hdiv

/-- The size of the coefficients (rule R79) where the iteration takes more than one turn. A turn keeps it by the
triangle inequality, since the coefficient it computes is `x - (a div b) * y`. -/
theorem egcd_coefficients_le {a b : Nat} (hb : 0 < b) (hd : ¬ b ∣ a) :
    2 * (egcd a b).1 * (egcd a b).2.1.natAbs ≤ b ∧ 2 * (egcd a b).1 * (egcd a b).2.2.natAbs ≤ a := by
  induction a, b using euclid_induction with
  | zero a => omega
  | turn a b _ ih =>
    have hr : 0 < a % b := Nat.pos_of_ne_zero fun h => hd (Nat.dvd_of_mod_eq_zero h)
    have hlt := Nat.mod_lt a hb
    rw [egcd_of_pos a hb]
    by_cases hrd : a % b ∣ b
    · have hhalf : 2 * (a % b) ≤ b := by
        have := Nat.le_of_dvd (by omega) (Nat.dvd_sub hrd dvd_rfl)
        omega
      have hquot := (Nat.mul_le_mul_right (a / b) hhalf).trans (Nat.mul_div_le a b)
      simp only [egcd_of_dvd hr hrd, Int.natAbs_one, mul_one, zero_sub, Int.natAbs_neg, Int.natAbs_natCast]
      exact ⟨hhalf, hquot⟩
    · obtain ⟨hx, hy⟩ := ih hr hrd
      refine ⟨hy, ?_⟩
      set g := (egcd b (a % b)).1
      set x := (egcd b (a % b)).2.1
      set y := (egcd b (a % b)).2.2
      calc 2 * g * (x - (a / b : Nat) * y).natAbs
          ≤ 2 * g * (x.natAbs + a / b * y.natAbs) := by
            gcongr
            exact (Int.natAbs_sub_le ..).trans_eq (by rw [Int.natAbs_mul, Int.natAbs_natCast])
        _ = 2 * g * x.natAbs + a / b * (2 * g * y.natAbs) := by ring
        _ ≤ a % b + a / b * b := by gcongr
        _ = a := Nat.mod_add_div' a b

/-- The size of the coefficients (rule R79), the special cases included. -/
theorem egcd_coefficients_le_max {a b : Nat} (h : ¬ (a = 0 ∧ b = 0)) :
    (egcd a b).2.1.natAbs ≤ max 1 (b / (2 * (egcd a b).1)) ∧
      (egcd a b).2.2.natAbs ≤ max 1 (a / (2 * (egcd a b).1)) := by
  obtain rfl | hb := Nat.eq_zero_or_pos b
  · simp [egcd_zero_right]
  by_cases hd : b ∣ a
  · simp [egcd_of_dvd hb hd]
  · have hg : 0 < 2 * (egcd a b).1 := by
      rw [egcd_fst]
      exact Nat.mul_pos two_pos (Nat.gcd_pos_of_pos_right a hb)
    obtain ⟨hx, hy⟩ := egcd_coefficients_le hb hd
    rw [Nat.mul_comm] at hx hy
    exact ⟨le_max_of_le_right ((Nat.le_div_iff_mul_le hg).2 hx), le_max_of_le_right ((Nat.le_div_iff_mul_le hg).2 hy)⟩

theorem egcd_fst_lt {a b n : Nat} (ha : a < n) (hb : b < n) : (egcd a b).1 < n := by
  rw [egcd_fst]
  obtain rfl | hpos := Nat.eq_zero_or_pos b
  · simpa using ha
  · exact (Nat.gcd_le_right a hpos).trans_lt hb

/-- For 64-bit numbers the coefficients can be written in two's complement (rule R79). -/
theorem egcd_coefficients_lt {a b : Nat} (ha : a < 2 ^ 64) (hb : b < 2 ^ 64) (h : ¬ (a = 0 ∧ b = 0)) :
    (egcd a b).2.1.natAbs < 2 ^ 63 ∧ (egcd a b).2.2.natAbs < 2 ^ 63 := by
  have hhalf {v : Nat} (hv : v < 2 ^ 64) (g : Nat) : max 1 (v / (2 * g)) < 2 ^ 63 := by
    have := Nat.div_le_self (v / 2) g
    rw [← Nat.div_div_eq_div_mul]
    omega
  obtain ⟨hx, hy⟩ := egcd_coefficients_le_max h
  exact ⟨hx.trans_lt (hhalf hb _), hy.trans_lt (hhalf ha _)⟩

/-- `sint64(tc64(z)) = z` for the numbers a register can hold (00_scope.md rule R9). -/
theorem toInt_tc64 {z : Int} (h : z.natAbs < 2 ^ 63) : (tc64 z).toInt = z :=
  BitVec.toInt_ofInt_eq_self (by decide) (by omega) (by omega)

/-! ### `modinv` (rule R81) -/

/-- The first Bezout coefficient of coprime numbers, reduced, is the inverse (rule R82, property 2). -/
theorem mul_floorMod_egcd {v m : Nat} (hm : m ≠ 0) (h : Nat.gcd v m = 1) :
    v * floorMod (egcd v m).2.1 m % m = 1 % m := by
  have hbez := egcd_bezout v m
  rw [egcd_fst, h] at hbez
  have hfloor : (floorMod (egcd v m).2.1 m : Int) ≡ (egcd v m).2.1 [ZMOD m] :=
    floorMod_cast _ hm ▸ Int.mod_modEq _ _
  have key : (v : Int) * floorMod (egcd v m).2.1 m ≡ 1 [ZMOD m] :=
    (hfloor.mul_left v).trans (Int.modEq_iff_dvd.2 ⟨(egcd v m).2.2, by push_cast at hbez; linarith⟩)
  exact_mod_cast key

theorem modinv_value_zero {m : Nat} (hm : m ≠ 0) : modinv 0 m = .error .egcdRange := modinv_of_pos hm 0

theorem modinv_of_gcd_ne_one {v m : Nat} (hm : m ≠ 0) (hv : v ≠ 0) (h : Nat.gcd v m ≠ 1) :
    modinv v m = .error .notCoprime := by
  rw [modinv_of_pos hm, if_neg hv, egcd_fst, if_pos h]

theorem modinv_of_gcd_eq_one {v m : Nat} (hm : m ≠ 0) (hv : v ≠ 0) (h : Nat.gcd v m = 1) :
    modinv v m = .ok (floorMod (egcd v m).2.1 m) := by
  rw [modinv_of_pos hm, if_neg hv, egcd_fst, if_neg (not_not.2 h)]

end Sys2Proof.Machine
end

section
/-! PROOFS. The statements about the numeric kernel: how its commands end, and what their pseudocode answers. -/

namespace Sys2Proof.Machine

/-! ### Running a command of the kernel -/

/-- A command without a port operation ends at its first line. -/
theorem exec_of_portless {i : Instr} {f : Operands → Except Cause (Word × Word × Word)} {s : State} {c : Ctx}
    (hi : lineOf i = portless f) (h : s.AtStart c) : exec i s = s.settle c (endWith (f c.ops) s.ports) := by
  obtain ⟨hctx, hpos⟩ := h
  rw [exec_eq_runCommand, runCommand_some hctx, hpos, hi]
  congr 1
  refine drive_stops rfl fun p q => ?_
  rcases f c.ops with e | ⟨x, y, z⟩ <;> simp [endWith]

theorem exec_of_portless_ok {i : Instr} {f : Operands → Except Cause (Word × Word × Word)} {s : State} {c : Ctx}
    {x y z : Word} (hi : lineOf i = portless f) (h : s.AtStart c) (hf : f c.ops = .ok (x, y, z)) :
    exec i s = .next (s.complete x y z) := by
  rw [exec_of_portless hi h, hf]
  rfl

theorem exec_of_portless_error {i : Instr} {f : Operands → Except Cause (Word × Word × Word)} {s : State} {c : Ctx}
    {e : Cause} (hi : lineOf i = portless f) (h : s.AtStart c) (hf : f c.ops = .error e) :
    exec i s = .next (s.raise e) := by
  rw [exec_of_portless hi h, hf]
  rfl

/-! ### The pseudocode of the three commands -/

theorem uA_eq_zero_iff (o : Operands) : o.uA = 0 ↔ o.a = 0 := BitVec.toNat_inj (y := 0#64)

theorem uB_eq_zero_iff (o : Operands) : o.uB = 0 ↔ o.b = 0 := BitVec.toNat_inj (y := 0#64)

theorem uM_eq_zero_iff (o : Operands) : o.uM = 0 ↔ o.m = 0 := BitVec.toNat_inj (y := 0#64)

theorem modexpResult_of_uM_eq_zero (signed : Bool) {o : Operands} (hm : o.uM = 0) :
    modexpResult signed o = .error .modulusZero := by
  rw [modexpResult, hm]
  rfl

theorem modexpResult_of_uM_ne_zero (signed : Bool) {o : Operands} (hm : o.uM ≠ 0) :
    modexpResult signed o = .ok (BitVec.ofInt 64 (o.base signed ^ o.uB % o.uM), 0, 0) := by
  rw [modexpResult, modpow_of_pos hm, ← powMod_cast _ _ hm, BitVec.ofInt_natCast]
  rfl

/-- The operands that the checks of rule R77 let through. -/
theorem egcdResult_ok {legacy : Bool} {o : Operands} (ha : o.uA ≠ 0) (hb : legacy = false → o.uB ≠ 0)
    (hab : legacy = true → o.uB ≤ o.uA) :
    egcdResult legacy o =
      .ok (toWord (egcd o.uA o.uB).1, tc64 (egcd o.uA o.uB).2.1, tc64 (egcd o.uA o.uB).2.2) := by
  cases legacy with
  | false => simp [egcdResult, ha, hb rfl]
  | true => simp [egcdResult, ha, hab rfl]

theorem modinvResult_of_error {o : Operands} {e : Cause} (h : modinv o.uA o.uM = .error e) :
    modinvResult o = .error e := by
  rw [modinvResult, h]
  rfl

theorem modinvResult_of_ok {o : Operands} {r : Nat} (h : modinv o.uA o.uM = .ok r) :
    modinvResult o = .ok (toWord r, 0, 0) := by
  rw [modinvResult, h]
  rfl

/-! ### The statements -/

/-- Settles O31, along the remainders of Euclid's algorithm. -/
theorem egcdSatisfiesTheBezoutIdentity : Obligations.EgcdSatisfiesTheBezoutIdentity :=
  ⟨fun a b _ => ⟨egcd_fst a b, egcd_bezout a b⟩, egcd_zero_right, fun a _ => egcd_of_pos a⟩

/-- Settles O32: where the iteration takes more than one turn, each turn keeps the bound. -/
theorem egcdCoefficientsAreBounded : Obligations.EgcdCoefficientsAreBounded := by
  refine ⟨fun a b ha hb h => ?_, fun a ha => ?_, fun b hb => ?_, fun a b _ => egcd_of_lt⟩
  · obtain ⟨hx, hy⟩ := egcd_coefficients_le_max h
    exact ⟨egcd_fst_lt ha hb, hx, hy, egcd_coefficients_lt ha hb h⟩
  · exact ⟨egcd_zero_right a, egcd_of_dvd ha dvd_rfl, egcd_of_dvd one_pos (one_dvd a)⟩
  · rw [egcd_of_lt hb, egcd_of_dvd one_pos (one_dvd b)]

/-- Settles O29: the loop's power, written to `R0`, is the closed one. -/
theorem modexpPowersModuloM : Obligations.ModexpPowersModuloM := by
  refine ⟨decode_encode (.modexp false), decode_encode (.modexp true), fun signed s c h => ?_⟩
  simp only [ne_eq, ← uM_eq_zero_iff]
  exact ⟨fun hm => exec_of_portless_error rfl h (modexpResult_of_uM_eq_zero signed hm),
    fun hm => exec_of_portless_ok rfl h (modexpResult_of_uM_ne_zero signed hm)⟩

/-- Settles O30, check by check. -/
theorem egcdChecksThenCompletes : Obligations.EgcdChecksThenCompletes := by
  refine ⟨decode_encode (.egcd false), decode_encode (.egcd true), fun legacy s c h => ?_⟩
  simp only [ne_eq, ← uA_eq_zero_iff, ← uB_eq_zero_iff]
  refine ⟨fun ha => ?_, ?_, ?_, fun ha hb hab => ?_⟩
  · exact exec_of_portless_error rfl h (if_pos ha)
  · rintro ha rfl hb
    exact exec_of_portless_error (f := egcdResult false) rfl h (by simp [egcdResult, ha, hb])
  · rintro ha rfl (hab : c.ops.uA < c.ops.uB)
    exact exec_of_portless_error (f := egcdResult true) rfl h (by simp [egcdResult, ha, hab])
  · exact exec_of_portless_ok rfl h (egcdResult_ok ha hb hab)

/-- Settles O33: the triple fits the result registers, so the host reads back the one `egcd` gives. -/
theorem egcdRegistersHoldABezoutTriple : Obligations.EgcdRegistersHoldABezoutTriple := by
  intro legacy s c h ha hb hab
  obtain ⟨-, -, hegcd⟩ := egcdChecksThenCompletes
  obtain ⟨-, -, -, hexec⟩ := hegcd legacy s c h
  obtain ⟨hx, hy⟩ := egcd_coefficients_lt c.ops.a.isLt c.ops.b.isLt fun ⟨hz, _⟩ => ha ((uA_eq_zero_iff c.ops).1 hz)
  have hg : (toWord (egcd c.ops.a.toNat c.ops.b.toNat).1).toNat = (egcd c.ops.a.toNat c.ops.b.toNat).1 :=
    Nat.mod_eq_of_lt (egcd_fst_lt c.ops.a.isLt c.ops.b.isLt)
  refine ⟨_, hexec ha hb hab, rfl, rfl, hg.trans (egcd_fst ..), ?_⟩
  change _ * (tc64 _).toInt + _ * (tc64 _).toInt = ((toWord _).toNat : Int)
  rw [toInt_tc64 hx, toInt_tc64 hy, hg, egcd_bezout]

/-- Settles O34, check by check, with the reduced Bezout coefficient as the inverse. -/
theorem modinvInvertsCoprimeValues : Obligations.ModinvInvertsCoprimeValues := by
  refine ⟨decode_encode .modinv, fun s c h => ?_⟩
  simp only [ne_eq, ← uM_eq_zero_iff, ← uA_eq_zero_iff]
  refine ⟨fun hm => ?_, fun hm ha => ?_, fun hm ha hg => ?_, fun hm ha hg => ?_⟩
  · exact exec_of_portless_error rfl h (modinvResult_of_error (by rw [hm, modinv_zero]))
  · exact exec_of_portless_error rfl h (modinvResult_of_error (by rw [ha, modinv_value_zero hm]))
  · exact exec_of_portless_error rfl h (modinvResult_of_error (modinv_of_gcd_ne_one hm ha hg))
  · exact ⟨_, floorMod_lt _ hm, mul_floorMod_egcd hm hg,
      exec_of_portless_ok rfl h (modinvResult_of_ok (modinv_of_gcd_eq_one hm ha hg))⟩

end Sys2Proof.Machine
end

section
/-! PROOFS. What the pieces of the primality test compute: the table of 41_primality.md rule R89, the decomposition of
rule R90, the witness round of rule R91 and the draw of rule R92. -/

namespace Sys2Proof.Machine

/-! ### The table (rule R89) -/

/-- Trial division from a `d` below which nothing divides `c` finds no divisor only of a prime. -/
theorem prime_of_noDivisorFrom {fuel d c : Nat} (hc : 2 ≤ c) (hd : d ≤ c.minFac) (hf : c < d + fuel)
    (h : noDivisorFrom fuel d c = true) : c.Prime := by
  induction fuel generalizing d with
  | zero => have := Nat.minFac_le (n := c) (by omega); omega
  | succ fuel ih =>
    simp only [noDivisorFrom] at h
    split at h
    · by_contra hp
      have hsq := Nat.minFac_sq_le_self (by omega) hp
      nlinarith
    · split at h
      · cases h
      · rename_i hdvd
        have hne : d ≠ c.minFac := fun he => hdvd (Nat.mod_eq_zero_of_dvd (he ▸ c.minFac_dvd))
        exact ih (by omega) (by omega) h

theorem noDivisorFrom_two_iff {c : Nat} (hc : 2 ≤ c) : noDivisorFrom c 2 c = true ↔ c.Prime :=
  ⟨prime_of_noDivisorFrom hc (Nat.minFac_prime (by omega)).two_le (by omega),
    fun hp => noDivisorFrom_of_prime hp c 2 le_rfl⟩

/-- By Bertrand's postulate the next prime is at most twice as large. -/
theorem nth_prime_le_two_pow (k : Nat) : Nat.nth Nat.Prime k ≤ 2 ^ (k + 1) := by
  induction k with
  | zero => simp [Nat.nth_prime_zero_eq_two]
  | succ k ih =>
    obtain ⟨p, hp, hlt, hle⟩ := Nat.bertrand _ (Nat.prime_nth_prime k).ne_zero
    have hnext : Nat.nth Nat.Prime (k + 1) ≤ p := by
      by_contra hc
      exact absurd (Nat.le_nth_of_lt_nth_succ (not_le.1 hc) hp) (not_le.2 hlt)
    omega

/-- A search that goes far enough finds the primes from `c` on, as Mathlib numbers them. -/
theorem primesFrom_eq {fuel need c : Nat} (hc : 2 ≤ c)
    (hf : ∀ k < need, Nat.nth Nat.Prime (Nat.count Nat.Prime c + k) < c + fuel) :
    primesFrom fuel need c = (List.range need).map fun k => Nat.nth Nat.Prime (Nat.count Nat.Prime c + k) := by
  induction fuel generalizing need c with
  | zero =>
    cases need with
    | zero => rfl
    | succ need =>
      exact absurd (hf 0 need.succ_pos) (not_lt.2 (Nat.le_nth_count Nat.infinite_setOfPred_prime c))
  | succ fuel ih =>
    cases need with
    | zero => rfl
    | succ need =>
      simp only [primesFrom, noDivisorFrom_two_iff hc]
      have hcount := Nat.count_succ Nat.Prime c
      split
      · rename_i hp
        rw [if_pos hp] at hcount
        have hshift (k : Nat) : Nat.count Nat.Prime (c + 1) + k = Nat.count Nat.Prime c + (k + 1) := by omega
        rw [ih (by omega) fun k hk => by rw [hshift]; have := hf (k + 1) (by omega); omega]
        simp [List.range_succ_eq_map, Nat.nth_count hp, hshift]
      · rename_i hp
        rw [if_neg hp, add_zero] at hcount
        rw [ih (by omega) fun k hk => by rw [hcount]; have := hf k hk; omega, hcount]

theorem smallPrimes_eq (nsp : Nat) : smallPrimes nsp = (List.range nsp).map (Nat.nth Nat.Prime) := by
  have hcount : Nat.count Nat.Prime 2 = 0 := by decide
  have hreach : ∀ k < nsp, Nat.nth Nat.Prime (Nat.count Nat.Prime 2 + k) < 2 + 2 ^ nsp := fun k hk => by
    have := nth_prime_le_two_pow k
    have := Nat.pow_le_pow_right (n := 2) (by decide) (Nat.succ_le_of_lt hk)
    rw [hcount, zero_add]
    omega
  rw [smallPrimes]
  simpa only [hcount, zero_add] using primesFrom_eq le_rfl hreach

/-- The table holds the primes below its successor prime. -/
theorem mem_smallPrimes_iff {p nsp : Nat} : p ∈ smallPrimes nsp ↔ p.Prime ∧ p < Nat.nth Nat.Prime nsp := by
  have hmono := Nat.nth_strictMono Nat.infinite_setOfPred_prime
  simp only [smallPrimes_eq, List.mem_map, List.mem_range]
  constructor
  · rintro ⟨k, hk, rfl⟩
    exact ⟨Nat.prime_nth_prime k, hmono hk⟩
  · rintro ⟨hp, hlt⟩
    rw [← Nat.nth_count hp] at hlt
    exact ⟨Nat.count Nat.Prime p, hmono.lt_iff_lt.1 hlt, Nat.nth_count hp⟩

theorem leastReaching_eq (p : Params) : p.leastReaching = Nat.nth Nat.Prime p.nsp := by
  simp [Params.leastReaching, smallPrimes_eq, List.range_succ]

/-! ### What the table decides (rule R94, step 1) -/

/-- Whatever its order, a table of primes accepts its members and rejects their other multiples. -/
theorem tableVerdict_eq {n : Nat} {table : List Nat} (ht : ∀ p ∈ table, p.Prime) :
    tableVerdict n table =
      if n ∈ table then some true else if ∃ p ∈ table, p ∣ n then some false else none := by
  induction table with
  | nil => rfl
  | cons q table ih =>
    rw [tableVerdict, ih fun p hp => ht p (List.mem_cons_of_mem _ hp)]
    by_cases hq : n = q
    · simp [hq]
    · by_cases hdvd : q ∣ n
      · have hmem : n ∉ table := fun hn =>
          hq ((Nat.prime_dvd_prime_iff_eq (ht q (by simp)) (ht n (by simp [hn]))).1 hdvd).symm
        simp [hq, hmem, hdvd, Nat.mod_eq_zero_of_dvd]
      · simp [hq, hdvd, ← Nat.dvd_iff_mod_eq_zero]

theorem tableVerdict_smallPrimes (n nsp : Nat) :
    tableVerdict n (smallPrimes nsp) =
      if n ∈ smallPrimes nsp then some true
      else if ∃ p ∈ smallPrimes nsp, p ∣ n then some false else none :=
  tableVerdict_eq fun _ hp => (mem_smallPrimes_iff.1 hp).1

theorem tableVerdict_none_of_not_dvd {n nsp : Nat} (h : ∀ p ∈ smallPrimes nsp, ¬ p ∣ n) :
    tableVerdict n (smallPrimes nsp) = none := by
  rw [tableVerdict_smallPrimes, if_neg fun hn => h n hn dvd_rfl, if_neg fun ⟨p, hp, hd⟩ => h p hp hd]

/-- No table prime divides a prime that is not in the table. -/
theorem not_dvd_prime_of_not_mem {n nsp : Nat} (hn : n.Prime) (h : n ∉ smallPrimes nsp) :
    ∀ p ∈ smallPrimes nsp, ¬ p ∣ n := fun _ hp hd =>
  h ((Nat.prime_dvd_prime_iff_eq (mem_smallPrimes_iff.1 hp).1 hn).1 hd ▸ hp)

/-- The prime after the table's last is the least number that the table leaves to the witness rounds. -/
theorem nth_prime_le_of_tableVerdict_none {n nsp : Nat} (hn : 2 ≤ n) (h : tableVerdict n (smallPrimes nsp) = none) :
    Nat.nth Nat.Prime nsp ≤ n := by
  by_contra hlt
  have := Nat.minFac_le (n := n) (by omega)
  exact not_dvd_of_tableVerdict_none h n.minFac
    (mem_smallPrimes_iff.2 ⟨Nat.minFac_prime (by omega), by omega⟩) n.minFac_dvd

theorem tableVerdict_nth_prime (nsp : Nat) : tableVerdict (Nat.nth Nat.Prime nsp) (smallPrimes nsp) = none :=
  tableVerdict_none_of_not_dvd <| not_dvd_prime_of_not_mem (Nat.prime_nth_prime nsp) fun h =>
    lt_irrefl _ (mem_smallPrimes_iff.1 h).2

/-! ### The decomposition (rule R90) -/

/-- Given a halving for each factor 2, only the odd part is left. -/
theorem halve_mul_two_pow {fuel d k : Nat} (hd : d % 2 = 1) (hk : k ≤ fuel) (s : Nat) :
    halve fuel (d * 2 ^ k) s = (d, s + k) := by
  induction k generalizing fuel s with
  | zero => cases fuel <;> simp [halve, hd]
  | succ k ih =>
    obtain ⟨fuel, rfl⟩ := Nat.exists_eq_add_one_of_ne_zero (n := fuel) (by omega)
    rw [pow_succ, ← mul_assoc, halve, if_pos (Nat.mul_mod_left _ 2), Nat.mul_div_cancel _ two_pos, ih (by omega)]
    congr 1
    omega

/-- However `n - 1` is written as an odd number times a power of two, that is the decomposition. -/
theorem decompose_eq {n d s : Nat} (h : n - 1 = d * 2 ^ s) (hd : d % 2 = 1) : decompose n = (d, s) := by
  have hs : s ≤ bitlength (n - 1) := by
    by_contra hlt
    have hbits := bitlength_le_iff.1 (Nat.le_of_lt (Nat.lt_of_not_le hlt))
    have := Nat.le_mul_of_pos_left (2 ^ s) (by omega : 0 < d)
    omega
  rw [decompose, h, halve_mul_two_pow hd (h ▸ hs), Nat.zero_add]

theorem decompose_spec {n : Nat} (hn : 2 ≤ n) :
    n - 1 = (decompose n).1 * 2 ^ (decompose n).2 ∧ (decompose n).1 % 2 = 1 := by
  obtain ⟨s, d, hd, h⟩ := Nat.exists_eq_two_pow_mul_odd (n := n - 1) (by omega)
  rw [mul_comm] at h
  rw [decompose_eq h (Nat.odd_iff.1 hd)]
  exact ⟨h, Nat.odd_iff.1 hd⟩

theorem decompose_snd_pos {n : Nat} (hn : 3 ≤ n) (hodd : n % 2 = 1) : 1 ≤ (decompose n).2 := by
  obtain ⟨h, hd⟩ := decompose_spec (n := n) (by omega)
  by_contra hs
  rw [show (decompose n).2 = 0 by omega] at h
  omega

/-! ### The witness round (rule R91) -/

theorem powMod_natCast (a e : Nat) {n : Nat} (hn : n ≠ 0) : powMod a e n = a ^ e % n := by
  exact_mod_cast powMod_cast a e hn

/-- Leaving the squaring loop early at 1 loses nothing: every further square is 1 too, and `n - 1` is not. -/
theorem squaringRounds_eq_false_iff {n k x : Nat} (hn : 3 ≤ n) :
    squaringRounds n k x = false ↔ ∃ r < k, x ^ 2 ^ (r + 1) % n = n - 1 := by
  induction k generalizing x with
  | zero => simp [squaringRounds]
  | succ k ih =>
    have hsq : x ^ 2 ^ (0 + 1) % n = mulmod x x n := by rw [zero_add, pow_one, pow_two, mulmod]
    have hsqs (r : Nat) : x ^ 2 ^ (r + 1 + 1) % n = mulmod x x n ^ 2 ^ (r + 1) % n := by
      rw [mulmod, ← Nat.pow_mod, ← pow_two, ← pow_mul, ← pow_succ']
    rw [Nat.exists_lt_succ_left]
    simp only [hsq, hsqs, squaringRounds]
    split
    · simp [*]
    · split
      · rename_i hne hone
        rw [hone] at hne
        simp [hone, hne, Nat.mod_eq_of_lt (show 1 < n by omega)]
      · simp [*]

/-- For an odd `n` a witness fails to prove `n` composite exactly when its powers reach 1 or `n - 1` as they would
modulo a prime. -/
theorem witnessProves_eq_false_iff {n a : Nat} (hn : 3 ≤ n) (hodd : n % 2 = 1) :
    witnessProves n a = false ↔
      a ^ (decompose n).1 % n = 1 ∨ ∃ r < (decompose n).2, a ^ ((decompose n).1 * 2 ^ r) % n = n - 1 := by
  obtain ⟨s, hs⟩ := Nat.exists_eq_add_of_le' (decompose_snd_pos hn hodd)
  have hpow (r : Nat) :
      a ^ ((decompose n).1 * 2 ^ r) % n = (a ^ (decompose n).1 % n) ^ 2 ^ r % n := by
    rw [pow_mul, Nat.pow_mod]
  rw [hs, Nat.exists_lt_succ_left]
  simp only [hpow, witnessProves, provesComposite, powMod_natCast a _ (show n ≠ 0 by omega), hs,
    Nat.add_sub_cancel]
  split
  · rename_i h
    simpa [← or_assoc] using Or.inl h
  · rename_i h
    rw [squaringRounds_eq_false_iff hn]
    simp [← or_assoc, h]

/-- The last element of the chain of squares is 1, so going down it is 1 until it is -1. -/
theorem eq_one_or_pow_eq_neg_one {R : Type} [CommRing R] [NoZeroDivisors R] {x : R} {s : Nat} (h : x ^ 2 ^ s = 1) :
    x = 1 ∨ ∃ r < s, x ^ 2 ^ r = -1 := by
  induction s with
  | zero => simpa using h
  | succ s ih =>
    rw [pow_succ, pow_mul, pow_two] at h
    rcases mul_self_eq_one_iff.1 h with h | h
    · exact (ih h).imp_right fun ⟨r, hr, hx⟩ => ⟨r, by omega, hx⟩
    · exact .inr ⟨s, by omega, h⟩

/-- By Fermat's theorem no witness in range proves a prime composite (rule R95, property 1). -/
theorem witnessProves_of_prime {n a : Nat} (hn : n.Prime) (ha : 2 ≤ a) (ha' : a ≤ n - 2) :
    witnessProves n a = false := by
  have : Fact n.Prime := ⟨hn⟩
  have hodd : n % 2 = 1 := hn.eq_two_or_odd.resolve_left (by omega)
  have ha0 : (a : ZMod n) ≠ 0 := fun h =>
    Nat.not_dvd_of_pos_of_lt (by omega) (by omega) ((ZMod.natCast_eq_zero_iff a n).1 h)
  have hmod {x y : Nat} (hy : y < n) (h : (x : ZMod n) = y) : x % n = y :=
    ((ZMod.natCast_eq_natCast_iff' x y n).1 h).trans (Nat.mod_eq_of_lt hy)
  have hfermat := ZMod.pow_card_sub_one_eq_one ha0
  rw [(decompose_spec hn.two_le).1, pow_mul] at hfermat
  refine (witnessProves_eq_false_iff (by omega) hodd).2
    ((eq_one_or_pow_eq_neg_one hfermat).imp (fun h => ?_) fun ⟨r, hr, h⟩ => ⟨r, hr, ?_⟩)
  · exact hmod (by omega) (by push_cast; exact h)
  · refine hmod (by omega) ?_
    rw [Nat.cast_sub hn.one_le, pow_mul]
    push_cast
    rw [h]
    simp

/-! ### The draw (rule R92) -/

/-- A draw that succeeds takes the rejected words and the first one in range. -/
theorem randRange2_eq_some {n a : Nat} {words rest : List Word} (h : randRange2 n words = (some a, rest)) :
    ∃ rejected w, words = rejected ++ w :: rest ∧ a = 2 + w.toNat % 2 ^ bitlength (n - 4) ∧
      w.toNat % 2 ^ bitlength (n - 4) < n - 3 ∧ ∀ u ∈ rejected, n - 3 ≤ u.toNat % 2 ^ bitlength (n - 4) := by
  induction words with
  | nil => cases h
  | cons w words ih =>
    rw [randRange2, Nat.sub_sub] at h
    split at h
    · rename_i hw
      cases h
      exact ⟨[], w, rfl, rfl, hw, by simp⟩
    · rename_i hw
      obtain ⟨rejected, v, rfl, ha, hv, hrej⟩ := ih h
      exact ⟨w :: rejected, v, rfl, ha, hv, List.forall_mem_cons.2 ⟨Nat.le_of_not_lt hw, hrej⟩⟩

theorem randRange2_range {n a : Nat} {words rest : List Word} (h : randRange2 n words = (some a, rest)) :
    2 ≤ a ∧ a ≤ n - 2 := by
  obtain ⟨-, w, -, rfl, hw, -⟩ := randRange2_eq_some h
  omega

/-- A draw that fails has rejected every word. -/
theorem randRange2_none_rejects {n : Nat} {words : List Word} (h : (randRange2 n words).1 = none) :
    ∀ u ∈ words, n - 3 ≤ u.toNat % 2 ^ bitlength (n - 4) := by
  induction words with
  | nil => simp
  | cons w words ih =>
    rw [randRange2, Nat.sub_sub] at h
    split at h
    · cases h
    · rename_i hw
      exact List.forall_mem_cons.2 ⟨Nat.le_of_not_lt hw, ih h⟩

end Sys2Proof.Machine
end

section
/-! PROOFS. The statements about primality: how `PRIMETEST` goes through its draws, and what its verdicts say. -/

namespace Sys2Proof.Machine

/-! ### One port operation of a running command -/

/-- Where the command stood and what was on its ports play no part in what a run leads to. -/
theorem settle_moved (s : State) (c : Ctx) (p : Pos) (q : Ports) (r : Progress) :
    { s with ctx := some { c with pos := p }, ports := q }.settle { c with pos := p } r = s.settle c r := by
  cases r with
  | ends e q => cases e <;> rfl
  | _ => rfl

section
variable {i : Instr} {s : State} {c : Ctx}

/-- A port operation that finishes only moves the command on. -/
theorem exec_of_line_goes {p : Pos} {q : Ports} (h : s.ctx = some c)
    (hl : lineOf i s.cfg c.ops c.pos s.ports = .goes p q) :
    exec i s = exec i { s with ctx := some { c with pos := p }, ports := q } := by
  have hd := lineOf_descends i s.cfg c.ops
  have hlt := hd _ _ _ _ hl
  have hturns := potential_lt_turns s.ports c.pos
  obtain ⟨n, hn⟩ := Nat.exists_eq_add_one_of_ne_zero (Nat.ne_zero_of_lt hturns)
  rw [exec_eq_runCommand, exec_eq_runCommand, runCommand_some h, runCommand_some rfl, settle_moved, hn, drive_goes hl]
  exact congrArg _ (drive_turns hd (by omega) (potential_lt_turns q p))

/-- A port operation that does not finish is where the run stops. -/
theorem exec_of_line_stops {r : Progress} (h : s.ctx = some c) (hl : lineOf i s.cfg c.ops c.pos s.ports = r)
    (hr : ∀ p q, r ≠ .goes p q) : exec i s = s.settle c r := by
  rw [exec_eq_runCommand, runCommand_some h]
  exact congrArg _ (drive_stops hl hr)

/-- A command that waits at once changes no more than its ports. -/
theorem exec_of_line_waits {q : Ports} (h : s.ctx = some c)
    (hl : lineOf i s.cfg c.ops c.pos s.ports = .waits c.pos q) : exec i s = .next { s with ports := q } := by
  rw [exec_of_line_stops h hl (by simp), settle_waits, ← h]

end

/-! ### `PRIMETEST` (rule R94) -/

theorem exec_primetest_of_verdict {s : State} {c : Ctx} {prime : Bool} {q : Ports} (h : s.ctx = some c)
    (hl : primetestLine s.cfg c.ops c.pos s.ports = verdict prime q) :
    exec .primetest s = .next ({ s with ports := q }.complete (if prime then 1 else 0) 0 0) :=
  exec_of_line_stops (i := .primetest) h hl (by simp [verdict])

/-- Step 1 at its end, or the deterministic path: the ports stay as they are. -/
theorem exec_primetest_of_start {s : State} {c : Ctx} {prime : Bool} (h : s.AtStart c)
    (hv : primetestStart s.cfg c.ops s.ports = verdict prime s.ports) :
    exec .primetest s = .next (s.complete (if prime then 1 else 0) 0 0) := by
  obtain ⟨hctx, hpos⟩ := h
  exact exec_primetest_of_verdict hctx (by rw [hpos]; exact hv)

theorem primetestStart_of_lt_two {cfg : Params} {o : Operands} (q : Ports) (h : o.uA < 2) :
    primetestStart cfg o q = verdict false q := if_pos h

theorem primetestStart_of_table {cfg : Params} {o : Operands} {prime : Bool} (q : Ports) (h : 2 ≤ o.uA)
    (ht : tableVerdict o.uA (smallPrimes cfg.nsp) = some prime) : primetestStart cfg o q = verdict prime q := by
  rw [primetestStart, if_neg (not_lt.2 h), ht]

theorem primetestStart_of_rounds {cfg : Params} {o : Operands} (q : Ports) (h : 2 ≤ o.uA)
    (ht : tableVerdict o.uA (smallPrimes cfg.nsp) = none) :
    primetestStart cfg o q =
      if 0 < o.rounds then .goes (.primeDraw o.rounds.toNat) q else verdict (deterministicVerdict cfg o.uA) q := by
  rw [primetestStart, if_neg (not_lt.2 h), ht]

theorem deterministicVerdict_eq_true_iff {cfg : Params} {n : Nat} :
    deterministicVerdict cfg n = true ↔ ¬ ∃ a ∈ cfg.detWitnesses, witnessProves n a = true := by
  simp [deterministicVerdict]

theorem primetestLine_of_none {cfg : Params} {o : Operands} {r : Nat} {q : Ports} {rest : List Word}
    (h : randRange2 o.uA q.rnd = (none, rest)) :
    primetestLine cfg o (.primeDraw (r + 1)) q = .waits (.primeDraw (r + 1)) { q with rnd := rest } := by
  rw [primetestLine_primeDraw, drawThen_of_none (congrArg Prod.fst h), Ports.randRange2, h]

theorem primetestLine_of_some {cfg : Params} {o : Operands} {r a : Nat} {q : Ports} {rest : List Word}
    (h : randRange2 o.uA q.rnd = (some a, rest)) :
    primetestLine cfg o (.primeDraw (r + 1)) q =
      if witnessProves o.uA a then verdict false { q with rnd := rest }
      else .goes (.primeDraw r) { q with rnd := rest } := by
  rw [primetestLine_primeDraw, drawThen_of_some (a := a) (by rw [Ports.randRange2, h])]

/-! ### A prime is never called composite (rule R95, property 1) -/

/-- Every verdict that `PRIMETEST` reaches is 1; the positions are its own. -/
def Progress.CallsPrime : Progress → Prop
  | .goes p _ => p = .start ∨ ∃ rounds, p = .primeDraw rounds
  | .waits _ _ => True
  | .ends e _ => e = .success 1 0 0
  | .lost => False

theorem verdict_true_callsPrime (q : Ports) : (verdict true q).CallsPrime := rfl

/-- The witnesses are in order exactly when each is in range for the prime after the table's last, the least number
that needs them. -/
theorem witnessesOk_iff {p : Params} : p.witnessesOk = true ↔
    ∀ a ∈ p.detWitnesses, 2 ≤ a ∧
      ∀ n, 2 ≤ n → n < 2 ^ 64 → tableVerdict n (smallPrimes p.nsp) = none → a < n - 1 := by
  simp only [Params.witnessesOk, leastReaching_eq, List.all_eq_true, Bool.and_eq_true, Bool.or_eq_true,
    decide_eq_true_eq]
  refine forall₂_congr fun a _ => and_congr_right fun _ => ⟨fun hleast n hn h64 ht => ?_, fun hall => ?_⟩
  · have := nth_prime_le_of_tableVerdict_none hn ht
    omega
  · have := hall _ (Nat.prime_nth_prime p.nsp).two_le
    have := fun h64 => this h64 (tableVerdict_nth_prime p.nsp)
    omega

/-- No witness of a set in order proves a prime composite. -/
theorem deterministicVerdict_of_prime {cfg : Params} {n : Nat} (hcfg : cfg.witnessesOk = true) (hn : n.Prime)
    (h64 : n < 2 ^ 64) (ht : tableVerdict n (smallPrimes cfg.nsp) = none) : deterministicVerdict cfg n = true := by
  refine deterministicVerdict_eq_true_iff.2 fun ⟨a, ha, hproves⟩ => ?_
  obtain ⟨h2, hlt⟩ := witnessesOk_iff.1 hcfg a ha
  have := hlt n hn.two_le h64 ht
  rw [witnessProves_of_prime hn h2 (by omega)] at hproves
  cases hproves

theorem primetestLine_callsPrime {cfg : Params} {o : Operands} (hcfg : cfg.witnessesOk = true) (hA : o.uA.Prime)
    (p : Pos) (q : Ports) (hp : (Progress.goes p q).CallsPrime) : (primetestLine cfg o p q).CallsPrime := by
  obtain rfl | ⟨rounds, rfl⟩ := hp
  · change (primetestStart cfg o q).CallsPrime
    by_cases hmem : o.uA ∈ smallPrimes cfg.nsp
    · rw [primetestStart_of_table q hA.two_le (by rw [tableVerdict_smallPrimes, if_pos hmem])]
      exact verdict_true_callsPrime q
    · have ht := tableVerdict_none_of_not_dvd (not_dvd_prime_of_not_mem hA hmem)
      rw [primetestStart_of_rounds q hA.two_le ht]
      split
      · exact .inr ⟨_, rfl⟩
      · rw [deterministicVerdict_of_prime hcfg hA o.a.isLt ht]
        exact verdict_true_callsPrime q
  · cases rounds with
    | zero => exact verdict_true_callsPrime q
    | succ rounds =>
      rcases h : randRange2 o.uA q.rnd with ⟨_ | a, rest⟩
      · rw [primetestLine_of_none h]
        trivial
      · obtain ⟨h2, hle⟩ := randRange2_range h
        rw [primetestLine_of_some h, witnessProves_of_prime hA h2 hle]
        exact .inr ⟨rounds, rfl⟩

/-! ### The statements -/

/-- Settles O35: the search of `primesFrom` goes far enough by Bertrand's postulate. -/
theorem smallPrimesAreTheFirstPrimes : Obligations.SmallPrimesAreTheFirstPrimes :=
  ⟨rfl, smallPrimes_eq⟩

/-- Settles O36: `decompose` answers every pair with an odd part, so there is one only. -/
theorem decompositionIsOddTimesPowerOfTwo : Obligations.DecompositionIsOddTimesPowerOfTwo := by
  intro n hn hodd
  obtain ⟨h, hd⟩ := decompose_spec (n := n) (by omega)
  exact ⟨h, hd, by omega, decompose_snd_pos hn hodd, fun d s h hd => (decompose_eq h hd).symm⟩

/-- Settles O37, by induction on the words offered. -/
theorem drawTakesTheFirstWordInRange : Obligations.DrawTakesTheFirstWordInRange := by
  refine fun n words _ => ⟨fun a rest h => ?_, fun h => ⟨randRange2_none h, randRange2_none_rejects h⟩⟩
  obtain ⟨rejected, w, hwords, ha, -, hrej⟩ := randRange2_eq_some h
  obtain ⟨h2, hle⟩ := randRange2_range h
  exact ⟨h2, hle, rejected, w, hwords, ha, hrej⟩

/-- Settles O38, by what the table says of `A`. -/
theorem primetestDecidesByTableAndWitnesses : Obligations.PrimetestDecidesByTableAndWitnesses := by
  refine ⟨fun n a hn hodd _ _ => witnessProves_eq_false_iff hn hodd, fun s c h => ⟨fun hA => ?_, fun hmem => ?_,
    fun hmem hdvd => ?_, fun hA hdvd hb => ?_⟩⟩
  · exact exec_primetest_of_start h (primetestStart_of_lt_two s.ports hA)
  · exact exec_primetest_of_start (prime := true) h (primetestStart_of_table s.ports
      (mem_smallPrimes_iff.1 hmem).1.two_le ((tableVerdict_smallPrimes ..).trans (if_pos hmem)))
  · refine exec_primetest_of_start (prime := false) h ?_
    rcases Nat.lt_or_ge c.ops.uA 2 with hA | hA
    · exact primetestStart_of_lt_two s.ports hA
    · exact primetestStart_of_table s.ports hA
        ((tableVerdict_smallPrimes ..).trans ((if_neg hmem).trans (if_pos hdvd)))
  · rw [exec_primetest_of_start h ((primetestStart_of_rounds s.ports hA (tableVerdict_none_of_not_dvd hdvd)).trans
      (if_neg (not_lt.2 hb)))]
    simp only [deterministicVerdict_eq_true_iff, ite_not]
    rfl

/-- Settles O39: each round is one port operation. -/
theorem primetestRunsItsRandomRounds : Obligations.PrimetestRunsItsRandomRounds := by
  refine fun s c h => ⟨fun hpos hA hdvd hb => ?_, fun hpos => ?_, fun rounds hpos => ⟨fun rest hdraw => ?_,
    fun a rest hdraw hproves => ?_, fun a rest hdraw hproves => ?_⟩⟩
  · refine exec_of_line_goes h ?_
    rw [hpos]
    exact (primetestStart_of_rounds s.ports hA (tableVerdict_none_of_not_dvd hdvd)).trans (if_pos hb)
  · exact exec_primetest_of_verdict (prime := true) h (by rw [hpos]; rfl)
  · refine exec_of_line_waits h ?_
    rw [hpos]
    exact primetestLine_of_none (cfg := s.cfg) hdraw
  · refine exec_primetest_of_verdict (prime := false) h ?_
    rw [hpos]
    exact (primetestLine_of_some hdraw).trans (if_pos hproves)
  · refine exec_of_line_goes h ?_
    rw [hpos]
    exact (primetestLine_of_some (cfg := s.cfg) hdraw).trans (if_neg (Bool.eq_false_iff.1 hproves))

/-- Settles O40: no port operation reaches the verdict 0 on a prime. -/
theorem primesAreNeverCalledComposite : Obligations.PrimesAreNeverCalledComposite := by
  refine ⟨fun p => witnessesOk_iff, fun s t c hwf hctx hpos hA h hdone => ?_⟩
  have hcfg : s.cfg.witnessesOk = true := (Bool.and_eq_true_iff.1 hwf).2
  have hcalls (n : Nat) : (drive (primetestLine s.cfg c.ops) n c.pos s.ports).CallsPrime :=
    drive_induct (primetestLine_callsPrime hcfg hA) (fun _ _ _ => trivial) n hpos
  obtain ⟨c', hc', q, ⟨p, -, rfl⟩ | ⟨x, y, z, hd, rfl⟩ | ⟨e, hd, rfl⟩⟩ := runCommand_next h
  · cases hdone
  · obtain rfl := Option.some.inj (hctx.symm.trans hc')
    cases (hd ▸ hcalls _ : (Progress.ends (.success x y z) q).CallsPrime)
    exact ⟨rfl, rfl, rfl, rfl⟩
  · obtain rfl := Option.some.inj (hctx.symm.trans hc')
    cases (hd ▸ hcalls _ : (Progress.ends (.failure e) q).CallsPrime)

/-- Settles O41: what the table leaves undecided, the exact witness set decides. -/
theorem deterministicPathIsExact : Obligations.DeterministicPathIsExact := by
  intro s c hexact h hb
  obtain ⟨-, hdecides⟩ := primetestDecidesByTableAndWitnesses
  obtain ⟨hsmall, htable, hmultiple, hrounds⟩ := hdecides s c h
  refine ⟨fun hA => ?_, fun hA => ?_⟩
  · by_cases hmem : c.ops.a.toNat ∈ smallPrimes s.cfg.nsp
    · exact htable hmem
    · have hdvd := not_dvd_prime_of_not_mem hA hmem
      have hiff := hexact _ hA.two_le c.ops.a.isLt (tableVerdict_none_of_not_dvd hdvd)
      rw [hrounds hA.two_le hdvd hb, if_neg fun hw => hiff.2 hw hA]
  · rcases Nat.lt_or_ge c.ops.a.toNat 2 with h2 | h2
    · exact hsmall h2
    · by_cases hdvd : ∃ p ∈ smallPrimes s.cfg.nsp, p ∣ c.ops.a.toNat
      · exact hmultiple (fun hmem => hA (mem_smallPrimes_iff.1 hmem).1) hdvd
      · have hnone : ∀ p ∈ smallPrimes s.cfg.nsp, ¬ p ∣ c.ops.a.toNat := fun p hp hd => hdvd ⟨p, hp, hd⟩
        have hiff := hexact _ h2 c.ops.a.isLt (tableVerdict_none_of_not_dvd hnone)
        rw [hrounds h2 hnone hb, if_pos (hiff.1 hA)]

end Sys2Proof.Machine
end

section
/-! PROOFS. Where a run goes from a port operation, followed operation by operation, and why a run that has ended would
have ended the same way with more on its ports. -/

namespace Sys2Proof.Machine

/-! ### The end of a run -/

/-- What a run comes to once its next port operation is known: standing at one, it goes as far as it can. -/
def Progress.finish (line : Pos → Ports → Progress) : Progress → Progress
  | .goes p q => drive line q.turns p q
  | r => r

@[simp] theorem finish_ends (line : Pos → Ports → Progress) (e : Ending) (q : Ports) :
    (Progress.ends e q).finish line = .ends e q := rfl

/-- A run goes on with the port operation it stands at. -/
theorem finish_goes {line : Pos → Ports → Progress} (hl : Descends line) (p : Pos) (q : Ports) :
    (Progress.goes p q).finish line = (line p q).finish line := by
  have hlt := potential_lt_turns q p
  obtain ⟨n, hn⟩ := Nat.exists_eq_add_one_of_ne_zero (Nat.ne_zero_of_lt hlt)
  cases h : line p q with
  | goes p' q' =>
    have := hl _ _ _ _ h
    rw [Progress.finish, hn, drive_goes h]
    exact drive_turns hl (by omega) (potential_lt_turns q' p')
  | _ => rw [Progress.finish, hn, drive_stops h (by simp)]; rfl

theorem exec_eq_settle_finish {i : Instr} {s : State} {c : Ctx} (h : s.ctx = some c) :
    exec i s = s.settle c ((Progress.goes c.pos s.ports).finish (lineOf i s.cfg c.ops)) := by
  rw [exec_eq_runCommand, runCommand_some h, Progress.finish]

/-- A command whose run comes to an end has ended so. -/
theorem exec_of_finish {i : Instr} {s : State} {c : Ctx} {p : Pos} {e : Ending} {q : Ports} (h : s.ctx = some c)
    (hp : c.pos = p) (hf : (Progress.goes p s.ports).finish (lineOf i s.cfg c.ops) = .ends e q) :
    exec i s = s.settle c (.ends e q) := by
  rw [exec_eq_settle_finish h, hp, hf]

theorem exec_of_finish_failure {i : Instr} {s : State} {c : Ctx} {p : Pos} {e : Cause} {q : Ports}
    (h : s.ctx = some c) (hp : c.pos = p)
    (hf : (Progress.goes p s.ports).finish (lineOf i s.cfg c.ops) = .ends (.failure e) q) :
    exec i s = .next ({ s with ports := q }.raise e) :=
  exec_of_finish h hp hf

/-! ### Port operations that need not wait -/

theorem sinThen_of_offered {n : Nat} {wait : List Byte → Pos} {k : List Byte → Ports → Progress} {q : Ports}
    (h : n ≤ q.sin.length) : sinThen n wait k [] q = k (q.sin.take n) { q with sin := q.sin.drop n } := by
  simp [sinThen, sinRead_fresh, h]

theorem soutThen_of_room {wait : List Byte → Pos} {k : Ports → Progress} {pending : List Byte} {q : Ports}
    (h : pending.length ≤ q.room) :
    soutThen wait k pending q = k { q with sout := q.sout ++ pending, room := q.room - pending.length } :=
  soutThen_of_done (soutWrite_done h)

/-! ### A run that has ended needed no more -/

/-- A run that ends leaves alone what is supplied behind what it took. -/
theorem drive_supply_of_ends {line : Pos → Ports → Progress} (hl : Descends line) (hr : Resumes line) {n N : Nat}
    {p : Pos} {e : Ending} {q q' x : Ports} (hn : q.potential p < n) (h : drive line n p q = .ends e q')
    (hN : (q.supply x).potential p < N) : drive line N p (q.supply x) = .ends e (q'.supply x) := by
  induction n generalizing N p q with
  | zero => exact absurd hn (Nat.not_lt_zero _)
  | succ n ih =>
    have hx := hr p q x
    obtain ⟨N, rfl⟩ := Nat.exists_eq_add_one_of_ne_zero (Nat.ne_zero_of_lt hN)
    cases hp : line p q with
    | goes p₁ q₁ =>
      rw [hp, resume_goes] at hx
      rw [drive_goes hp] at h
      have := hl _ _ _ _ hp
      have := hl _ _ _ _ hx.symm
      rw [drive_goes hx.symm]
      exact ih (by omega) h (by omega)
    | ends e₁ q₁ =>
      rw [hp, resume_ends] at hx
      rw [drive_stops hp (by simp)] at h
      cases h
      exact drive_stops hx.symm (by simp)
    | _ => rw [drive_stops hp (by simp)] at h; cases h

/-- A command that has ended would have ended the same way with more supplied (rule R46). -/
theorem exec_supply_of_ended {i : Instr} {s t : State} (h : exec i s = .next t) (hc : t.ctx = none) (x : Ports) :
    exec i (s.supply x) = .next (t.supply x) := by
  rw [exec_eq_runCommand] at h ⊢
  obtain ⟨c, hctx, q, ⟨p, -, rfl⟩ | hend⟩ := runCommand_next h
  · cases hc
  · have hsupply {e : Ending} (hd : drive (lineOf i s.cfg c.ops) s.ports.turns c.pos s.ports = .ends e q) :
        runCommand (lineOf i) (s.supply x) = (s.supply x).settle c (.ends e (q.supply x)) := by
      rw [runCommand_some (s := s.supply x) hctx]
      exact congrArg _ (drive_supply_of_ends (lineOf_descends i s.cfg c.ops) (lineOf_resumes i s.cfg c.ops)
        (potential_lt_turns ..) hd (potential_lt_turns ..))
    obtain ⟨a, b, d, hd, rfl⟩ | ⟨e, hd, rfl⟩ := hend
    · exact hsupply hd
    · exact hsupply hd

end Sys2Proof.Machine
end

section
/-! PROOFS. The sizes of the codec: the widths of 42_codec_framing.md rule R100, and what is read back from a header
(30_encoding.md rules R65, R66). -/

namespace Sys2Proof.Machine

/-- `LEN` as a number and back is `LEN`. -/
@[simp] theorem toWord_uLen (o : Operands) : toWord o.uLen = o.len := by
  rw [toWord, Operands.uLen, BitVec.ofNat_toNat, BitVec.setWidth_eq]

/-! ### The widths (rule R100) -/

theorem bitlength_eq_size (v : Nat) : bitlength v = Nat.size v :=
  eq_of_forall_ge_iff fun _ => bitlength_le_iff.trans Nat.size_le.symm

theorem plainWidth_eq (m : Nat) : plainWidth m = max 1 ((Nat.size m - 1) / 8) := by
  rw [plainWidth, bitlength_eq_size]

theorem cipherWidth_eq (m : Nat) : cipherWidth m = max 1 ((Nat.size (m - 1) + 7) / 8) := by
  rw [cipherWidth, bitlength_eq_size, ceilDiv]
  rfl

theorem plainWidth_le_seven {m : Nat} (h : m < 2 ^ 64) : plainWidth m ≤ 7 := by
  have := Nat.size_le.2 h
  rw [plainWidth_eq]
  omega

theorem cipherWidth_le_eight {m : Nat} (h : m < 2 ^ 64) : cipherWidth m ≤ 8 := by
  have := Nat.size_le.2 (lt_of_le_of_lt (Nat.sub_le m 1) h)
  rw [cipherWidth_eq]
  omega

/-- A positive modulus is at least two to its bit length less one. -/
theorem two_pow_size_sub_one_le {m : Nat} (h : m ≠ 0) : 2 ^ (Nat.size m - 1) ≤ m := by
  rw [← bitlength_eq_size]
  exact two_pow_bitlength_le h

/-- Every value below the modulus fits `cw` bytes. -/
theorem le_pow_cipherWidth (m : Nat) : m ≤ 256 ^ cipherWidth m := by
  have hle : Nat.size (m - 1) ≤ 8 * cipherWidth m := by
    rw [cipherWidth_eq]
    omega
  have hlt : m - 1 < 2 ^ (8 * cipherWidth m) := Nat.size_le.1 hle
  rw [pow_mul] at hlt
  norm_num at hlt
  omega

theorem plainWidth_le_cipherWidth {m : Nat} (h : m ≠ 0) : plainWidth m ≤ cipherWidth m := by
  have hlt : 2 ^ (Nat.size m - 1) ≤ 2 ^ Nat.size (m - 1) := by
    have := two_pow_size_sub_one_le h
    have := Nat.lt_size_self (m - 1)
    omega
  have hsize := (Nat.pow_le_pow_iff_right (by decide)).1 hlt
  rw [plainWidth_eq, cipherWidth_eq]
  omega

/-- Every plaintext block value is below the modulus when, and only when, the modulus is at least 256 (rule R111). -/
theorem pow_plainWidth_le_iff {m : Nat} : 256 ^ plainWidth m ≤ m ↔ 256 ≤ m := by
  refine ⟨(Nat.le_pow (plainWidth_pos m)).trans, fun h => ?_⟩
  have hsize : 9 ≤ Nat.size m := Nat.lt_size.2 h
  have hpw : 8 * plainWidth m ≤ Nat.size m - 1 := by
    rw [plainWidth_eq]
    omega
  calc 256 ^ plainWidth m = 2 ^ (8 * plainWidth m) := (pow_mul 2 8 _).symm
    _ ≤ 2 ^ (Nat.size m - 1) := Nat.pow_le_pow_right (by decide) hpw
    _ ≤ m := two_pow_size_sub_one_le (by omega)

/-- Settles O42: the ranges from the bit length of a 64-bit number. -/
theorem widthsFitTheModulus : Obligations.WidthsFitTheModulus := by
  intro m h1 h64
  have hm : m ≠ 0 := Nat.one_le_iff_ne_zero.1 h1
  exact ⟨plainWidth_eq m, cipherWidth_eq m, plainWidth_pos m, plainWidth_le_seven h64, cipherWidth_pos m,
    cipherWidth_le_eight h64, plainWidth_le_cipherWidth hm, le_pow_cipherWidth m, pow_plainWidth_le_iff⟩

end Sys2Proof.Machine
end

section
/-! PROOFS. `ENCODE` in block mode (42_codec_framing.md rule R105): the blocks as closed powers, the words that its
draws take, and the loop over the chunks. -/

namespace Sys2Proof.Machine

/-! ### The blocks (43_codec_transforms.md rules R116, R117, R119) -/

/-- The container block of the block value `m`; `k` is ElGamal's draw and of no use to the others. -/
def blockOf : BlockTransform → Operands → Nat → Nat → List Byte
  | .rsa, o, m, _ => beEnc (m ^ o.uB % o.uM) (cipherWidth o.uM)
  | .elg, o, m, k => le8 (o.uA ^ k % o.uM) ++ beEnc (m * o.uB ^ k % o.uM) (cipherWidth o.uM)
  | .tp, o, m, _ => beEnc (((m ^ o.uB % o.uM) ^ o.uE1 % o.uM) ^ o.uE2 % o.uM) (cipherWidth o.uM)

@[simp] theorem blockOf_length (t : BlockTransform) (o : Operands) (m k : Nat) :
    (blockOf t o m k).length = blockSize t o.uM := by
  cases t <;> simp [blockOf, blockSize, Nat.add_comm]

/-- `modpow` of an unsigned base is the closed power (40_kernel.md rule R82, property 1). -/
theorem modpow_natCast {m : Nat} (h : m ≠ 0) (b e : Nat) : modpow (b : Int) e m = .ok (b ^ e % m) := by
  rw [modpow_of_pos h, powMod_natCast b e h]

section
variable {o : Operands} (hM : o.uM ≠ 0)
include hM

theorem forwardRsa_eq (m k : Nat) : forwardRsa o m = .ok (blockOf .rsa o m k) := by
  rw [forwardRsa, modpow_natCast hM]
  rfl

theorem forwardElg_eq (m k : Nat) : forwardElg o m k = .ok (blockOf .elg o m k) := by
  rw [forwardElg, modpow_natCast hM, modpow_natCast hM, blockOf, Nat.mul_mod m]
  rfl

theorem forwardTp_eq (m k : Nat) : forwardTp o m = .ok (blockOf .tp o m k) := by
  simp only [forwardTp, modpow_natCast hM, bind, Except.bind]
  rfl

end

/-! ### The draws (rule R117, 41_primality.md rule R92) -/

/-- One block's draw: ElGamal takes words of `RND` until one is in range, the others take none. -/
def BlockDraw : BlockTransform → Nat → List Word → Nat → List Word → Prop
  | .elg, n, ws, k, rest => randRange2 n ws = (some k, rest)
  | .rsa, _, ws, _, rest => rest = ws
  | .tp, _, ws, _, rest => rest = ws

/-- The draws of block after block: the values drawn, and the words left on `RND`. -/
inductive BlockDraws (t : BlockTransform) (n : Nat) : List Word → List Nat → List Word → Prop
  | nil (ws : List Word) : BlockDraws t n ws [] ws
  | cons {ws ws' rest : List Word} {k : Nat} {ks : List Nat} (head : BlockDraw t n ws k ws')
      (tail : BlockDraws t n ws' ks rest) : BlockDraws t n ws (k :: ks) rest

theorem blockDraw_of_ne_elg {t : BlockTransform} (ht : t ≠ .elg) (n : Nat) (ws : List Word) (k : Nat) :
    BlockDraw t n ws k ws := by
  cases t with
  | elg => exact absurd rfl ht
  | _ => rfl

theorem blockDraws_of_ne_elg {t : BlockTransform} (ht : t ≠ .elg) (n : Nat) (ws : List Word) (count : Nat) :
    BlockDraws t n ws (List.replicate count 0) ws := by
  induction count with
  | zero => exact .nil ws
  | succ count ih => exact .cons (blockDraw_of_ne_elg ht n ws 0) ih

theorem blockDraws_of_draws {n count : Nat} {ws rest : List Word} {ks : List Nat}
    (h : draws n count ws = some (ks, rest)) : BlockDraws .elg n ws ks rest ∧ ks.length = count := by
  induction count generalizing ws ks with
  | zero => cases h; exact ⟨.nil _, rfl⟩
  | succ count ih =>
    rw [draws] at h
    split at h
    · cases h
    · rename_i k ws' hk
      obtain ⟨⟨ks', rest'⟩, htail, heq⟩ := Option.map_eq_some_iff.1 h
      cases heq
      obtain ⟨hdraws, hlen⟩ := ih htail
      exact ⟨.cons hk hdraws, congrArg (· + 1) hlen⟩

/-! ### One block -/

theorem encodeCommand_lineOf (t : BlockTransform) : lineOf (encodeCommand t.transform) = encodeLine t := by
  cases t <;> rfl

section
variable {t : BlockTransform} {cfg : Params} {o : Operands}

/-- A block value read becomes its block, once its draw is made. -/
theorem encodeChunk_finish (hM : o.uM ≠ 0) (m : Nat) (v : EncLocals) {q : Ports} {k : Nat} {ws : List Word}
    (hk : BlockDraw t o.uM q.rnd k ws) :
    (encodeChunk t o m v q).finish (encodeLine t cfg o) =
      (Progress.goes (.encOut (blockOf t o m k) ⟨v.remaining - min (plainWidth o.uM) v.remaining, v.blocks + 1⟩)
        { q with rnd := ws }).finish (encodeLine t cfg o) := by
  cases t with
  | rsa => cases hk; rw [encodeChunk, forwardRsa_eq hM m k]; rfl
  | elg =>
    have hdraw : q.randRange2 o.uM = (some k, { q with rnd := ws }) := by rw [Ports.randRange2, hk]
    rw [encodeChunk, finish_goes (encode_descends .elg cfg o), encodeLine_encDraw, drawThen_of_some hdraw,
      forwardElg_eq hM m k]
    rfl
  | tp => cases hk; rw [encodeChunk, forwardTp_eq hM m k]; rfl

theorem encOut_finish {pending : List Byte} (v : EncLocals) {q : Ports} (h : pending.length ≤ q.room) :
    (Progress.goes (.encOut pending v) q).finish (encodeLine t cfg o) =
      (encodeLoop t o v { q with sout := q.sout ++ pending, room := q.room - pending.length }).finish
        (encodeLine t cfg o) := by
  rw [finish_goes (encode_descends t cfg o), encodeLine_encOut, soutThen_of_room h]

/-- One turn of the loop of rule R105: a chunk of at most `pw` bytes in, its block out. -/
theorem encodeLoop_finish_succ (hM : o.uM ≠ 0) {v : EncLocals} {q : Ports} {k : Nat} {ws : List Word}
    (hr : v.remaining ≠ 0) (hk : BlockDraw t o.uM q.rnd k ws) (hsin : v.remaining ≤ q.sin.length)
    (hroom : blockSize t o.uM ≤ q.room) :
    (encodeLoop t o v q).finish (encodeLine t cfg o) =
      (encodeLoop t o ⟨v.remaining - min (plainWidth o.uM) v.remaining, v.blocks + 1⟩
        { q with
          sin := q.sin.drop (min (plainWidth o.uM) v.remaining)
          rnd := ws
          sout := q.sout ++
            blockOf t o (chunkValue (plainWidth o.uM) (q.sin.take (min (plainWidth o.uM) v.remaining))) k
          room := q.room - blockSize t o.uM }).finish (encodeLine t cfg o) := by
  rw [encodeLoop, if_neg hr, finish_goes (encode_descends t cfg o), encodeLine_encIn,
    sinThen_of_offered ((min_le_right ..).trans hsin), encodeChunk_finish hM _ _ (by exact hk),
    encOut_finish _ (by simpa using hroom), blockOf_length]

/-! ### The loop, and the command -/

theorem ceilDiv_eq_zero_iff {a b : Nat} (hb : 0 < b) : ceilDiv a b = 0 ↔ a = 0 := by
  rw [ceilDiv, Nat.div_eq_zero_iff]
  omega

theorem ceilDiv_sub_min {a b : Nat} (hb : 0 < b) : ceilDiv (a - min b a) b = ceilDiv a b - 1 := by
  rw [ceilDiv, ceilDiv, ← Nat.sub_mul_div]
  rcases Nat.le_total b a with h | h
  · congr 1
    omega
  · rw [Nat.div_eq_of_lt (by omega), Nat.div_eq_of_lt (by omega)]

/-- The chunks of the first `n` bytes of a stream, the first chunk taken. -/
theorem chunksOf_succ_take (pw k n : Nat) (s : List Byte) :
    chunksOf pw (k + 1) (s.take n) =
      s.take (min pw n) :: chunksOf pw k ((s.drop (min pw n)).take (n - min pw n)) := by
  have hafter : (s.take n).drop pw = (s.drop (min pw n)).take (n - min pw n) := by
    rw [List.drop_take]
    rcases Nat.le_total pw n with h | h
    · rw [min_eq_left h]
    · rw [min_eq_right h, Nat.sub_self, Nat.sub_eq_zero_of_le h, List.take_zero, List.take_zero]
  rw [chunksOf, List.take_take, hafter]

/-- The loop of rule R105 by its blocks: `ks` are the draws of the blocks still to come. -/
theorem encodeLoop_finish (hM : o.uM ≠ 0) {ws rest : List Word} {ks : List Nat} (hd : BlockDraws t o.uM ws ks rest)
    {v : EncLocals} {q : Ports} (hws : q.rnd = ws) (hcount : ceilDiv v.remaining (plainWidth o.uM) = ks.length)
    (hsin : v.remaining ≤ q.sin.length) (hroom : ks.length * blockSize t o.uM ≤ q.room) :
    (encodeLoop t o v q).finish (encodeLine t cfg o) =
      .ends (.success (toWord (hdrBlock + (v.blocks + ks.length) * blockSize t o.uM)) (toWord (v.blocks + ks.length))
          (toWord o.uLen))
        { q with
          sin := q.sin.drop v.remaining
          rnd := rest
          sout := q.sout ++ (List.zipWith (blockOf t o)
            ((chunksOf (plainWidth o.uM) ks.length (q.sin.take v.remaining)).map (chunkValue (plainWidth o.uM)))
            ks).flatten
          room := q.room - ks.length * blockSize t o.uM } := by
  have hpw := plainWidth_pos o.uM
  induction hd generalizing v q with
  | nil ws =>
    have hr : v.remaining = 0 := (ceilDiv_eq_zero_iff hpw).1 hcount
    simp [encodeLoop, hr, ← hws]
  | @cons ws ws' rest k ks hk htail ih =>
    have hr : v.remaining ≠ 0 := fun h => by
      rw [(ceilDiv_eq_zero_iff hpw).2 h] at hcount
      cases hcount
    have hsize : (ks.length + 1) * blockSize t o.uM = blockSize t o.uM + ks.length * blockSize t o.uM := by
      rw [Nat.succ_mul, Nat.add_comm]
    rw [List.length_cons, hsize] at hroom
    rw [encodeLoop_finish_succ hM hr (hws ▸ hk) hsin (by omega),
      ih rfl (by rw [ceilDiv_sub_min hpw, hcount]; rfl) (by simp only [List.length_drop]; omega)
        (by simp only; omega)]
    have hblocks : v.blocks + 1 + ks.length = v.blocks + (ks.length + 1) := by omega
    simp only [hblocks, hsize, Nat.sub_sub, List.drop_drop, List.length_cons, chunksOf_succ_take,
      List.map_cons, List.zipWith_cons_cons, List.flatten_cons, List.append_assoc,
      Nat.add_sub_cancel' (min_le_right (plainWidth o.uM) v.remaining)]

end

/-- The container of a plaintext (rule R105): the header and a block per chunk, `ks` being the draws. -/
def containerOf (cfg : Params) (t : BlockTransform) (o : Operands) (content : List Byte) (ks : List Nat) : List Byte :=
  blockHeader cfg t o.uM o.uLen ++ (List.zipWith (blockOf t o) (blockValues o content) ks).flatten

/-- What `ENCODE` of a block transform comes to when it never has to wait. -/
theorem exec_encode {t : BlockTransform} {s : State} {c : Ctx} {ks : List Nat} {rest : List Word} (h : s.AtStart c)
    (hm : EncodesUnder t c.ops) (hsin : c.ops.uLen ≤ s.ports.sin.length)
    (hd : BlockDraws t c.ops.uM s.ports.rnd ks rest) (hks : ks.length = blockCount c.ops)
    (hroom : 22 + blockCount c.ops * blockSize t c.ops.uM ≤ s.ports.room) :
    exec (encodeCommand t.transform) s = .next
      ({ s with
          ports :=
            { s.ports with
              sin := s.ports.sin.drop c.ops.uLen
              rnd := rest
              sout := s.ports.sout ++ containerOf s.cfg t c.ops (s.ports.sin.take c.ops.uLen) ks
              room := s.ports.room - (22 + blockCount c.ops * blockSize t c.ops.uM) } }.complete
        (BitVec.ofNat 64 (22 + blockCount c.ops * blockSize t c.ops.uM)) (BitVec.ofNat 64 (blockCount c.ops))
        c.ops.len) := by
  obtain ⟨hctx, hpos⟩ := h
  obtain ⟨hM, helg⟩ := hm
  have hhdr : (blockHeader s.cfg t c.ops.uM c.ops.uLen).length = 22 := blockHeader_length ..
  have hstart : encodeLine t s.cfg c.ops .start s.ports =
      .goes (.encOut (blockHeader s.cfg t c.ops.uM c.ops.uLen) ⟨c.ops.uLen, 0⟩) s.ports := by
    rw [encodeLine, if_neg hM, if_neg fun ⟨ht, hlt⟩ => Nat.not_lt.2 (helg ht) hlt]
  have hfinish := finish_goes (encode_descends t s.cfg c.ops) .start s.ports
  rw [hstart, encOut_finish _ (by omega),
    encodeLoop_finish hM hd (by rfl) (by exact hks.symm) hsin (by simp only [hks]; omega), hks, hhdr] at hfinish
  refine (exec_of_finish hctx hpos (by rw [encodeCommand_lineOf]; exact hfinish)).trans ?_
  simp only [settle_success, toWord_uLen, containerOf, blockValues, Nat.sub_sub, Nat.zero_add, List.append_assoc]
  rfl

/-! ### The statements -/

theorem flatten_zipWith_replicate_zero {f : Nat → Nat → List Byte} {count : Nat} {ms : List Nat}
    (h : ms.length = count) : (List.zipWith f ms (List.replicate count 0)).flatten = ms.flatMap (f · 0) := by
  subst h
  rw [List.flatMap_def]
  congr 1
  induction ms with
  | nil => rfl
  | cons m ms ih => simp [List.replicate_succ, ih]

@[simp] theorem blockValues_length (o : Operands) (content : List Byte) :
    (blockValues o content).length = blockCount o := by
  have hchunks (pw k : Nat) (content : List Byte) : (chunksOf pw k content).length = k := by
    induction k generalizing content with
    | zero => rfl
    | succ k ih => rw [chunksOf, List.length_cons, ih]
  rw [blockValues, List.length_map, hchunks]

/-- `ENCODE` without draws. -/
theorem exec_encode_of_ne_elg {t : BlockTransform} (ht : t ≠ .elg) {s : State} {c : Ctx} (h : s.AtStart c)
    (hM : c.ops.m ≠ 0) (hsin : c.ops.uLen ≤ s.ports.sin.length)
    (hroom : 22 + blockCount c.ops * blockSize t c.ops.uM ≤ s.ports.room) :
    exec (encodeCommand t.transform) s = .next
      ({ s with
          ports :=
            { s.ports with
              sin := s.ports.sin.drop c.ops.uLen
              sout := s.ports.sout ++ blockHeader s.cfg t c.ops.uM c.ops.uLen ++
                (blockValues c.ops (s.ports.sin.take c.ops.uLen)).flatMap (blockOf t c.ops · 0)
              room := s.ports.room - (22 + blockCount c.ops * blockSize t c.ops.uM) } }.complete
        (BitVec.ofNat 64 (22 + blockCount c.ops * blockSize t c.ops.uM)) (BitVec.ofNat 64 (blockCount c.ops))
        c.ops.len) := by
  rw [exec_encode h ⟨mt (uM_eq_zero_iff c.ops).1 hM, (absurd · ht)⟩ hsin
    (blockDraws_of_ne_elg ht c.ops.uM s.ports.rnd (blockCount c.ops)) List.length_replicate hroom,
    containerOf, flatten_zipWith_replicate_zero (blockValues_length ..), List.append_assoc]

/-- Settles O49: RSA makes no draw. -/
theorem encodeRsaEmitsTheContainer : Obligations.EncodeRsaEmitsTheContainer :=
  fun _ _ => exec_encode_of_ne_elg (t := .rsa) nofun

/-- Settles O50: three-pass makes no draw. -/
theorem encodeTpEmitsTheContainer : Obligations.EncodeTpEmitsTheContainer :=
  fun _ _ => exec_encode_of_ne_elg (t := .tp) nofun

/-- Settles O51: `ENCODE` with a draw a block. -/
theorem encodeElgEmitsTheContainer : Obligations.EncodeElgEmitsTheContainer := by
  intro s c ks rest h hM hsin hdraws hroom
  obtain ⟨hd, hks⟩ := blockDraws_of_draws hdraws
  have hexec := exec_encode h ⟨by omega, fun _ => hM⟩ hsin hd hks hroom
  rw [containerOf, ← List.map_uncurry_zip_eq_zipWith, ← List.flatMap_def, ← List.append_assoc] at hexec
  exact hexec

/-- An `ENCODE` that fails at its first line has touched no port. -/
theorem exec_encode_of_start_failure {t : BlockTransform} {s : State} {c : Ctx} {e : Cause} (h : s.AtStart c)
    (hl : encodeLine t s.cfg c.ops .start s.ports = .ends (.failure e) s.ports) :
    exec (encodeCommand t.transform) s = .next (s.raise e) := by
  obtain ⟨hctx, hpos⟩ := h
  exact exec_of_line_stops hctx (by rw [encodeCommand_lineOf, hpos, hl]) (by simp)

/-- Settles O52: both checks stand in the first line. -/
theorem encodeRejectsBadModuliFirst : Obligations.EncodeRejectsBadModuliFirst := by
  refine fun s c h => ⟨fun hM => ?_, fun hM hlt => ?_⟩
  · have hzero (t : BlockTransform) : exec (encodeCommand t.transform) s = .next (s.raise .modulusZero) :=
      exec_encode_of_start_failure h (by rw [encodeLine, if_pos ((uM_eq_zero_iff c.ops).2 hM)])
    exact ⟨hzero .rsa, hzero .elg, hzero .tp⟩
  · exact exec_encode_of_start_failure (t := .elg) h
      (by rw [encodeLine, if_neg (mt (uM_eq_zero_iff c.ops).1 hM), if_pos ⟨rfl, hlt⟩])

end Sys2Proof.Machine
end

section
/-! PROOFS. `DECODE` in block mode (42_codec_framing.md rule R106): its checks in their order, and the loop over the
blocks of a container. -/

namespace Sys2Proof.Machine

/-! ### Reading a header (30_encoding.md rules R65, R66) -/

theorem leDec_le8 {v : Nat} (h : v < 2 ^ 64) : leDec (le8 v) = v :=
  leDec_leEnc (h.trans_eq (by norm_num))

theorem beDec_singleton (b : Byte) : beDec [b] = b.toNat := by simp [beDec]

/-- One byte as a big-endian number is that byte. -/
theorem slice_eq_ofNat {hdr : List Byte} {i w : Nat} (hi : i < hdr.length) (h : beDec (slice hdr i (i + 1)) = w) :
    slice hdr i (i + 1) = [BitVec.ofNat 8 w] := by
  have hlen : (slice hdr i (i + 1)).length = 1 := by
    simp only [slice, List.length_drop, List.length_take]
    omega
  rw [← beEnc_beDec (slice hdr i (i + 1)), hlen, h]
  rfl

theorem slice_append_slice (s : List Byte) {i j k : Nat} (hij : i ≤ j) (hjk : j ≤ k) :
    slice s i j ++ slice s j k = slice s i k := by
  have hk : k - i = j - i + (k - j) := by omega
  simp only [slice, List.drop_take]
  rw [hk, List.take_add, List.drop_drop, Nat.add_sub_cancel' hij]

section
variable (t : BlockTransform) (cfg : Params) (o : Operands)

/-! ### Up to the header -/

theorem decodeCommand_lineOf : lineOf (decodeCommand t.transform) = decodeLine t := by
  cases t <;> rfl

theorem decodeLine_start_of_zero (hM : o.uM = 0) (q : Ports) :
    decodeLine t cfg o .start q = .ends (.failure .modulusZero) q := if_pos hM

/-- With a modulus, `DECODE` reads its header first. -/
theorem decode_start_finish (hM : o.uM ≠ 0) (q : Ports) :
    (Progress.goes .start q).finish (decodeLine t cfg o) =
      (decodeLine t cfg o (.decHead []) q).finish (decodeLine t cfg o) := by
  rw [finish_goes (decode_descends t cfg o), decodeLine, if_neg hM, finish_goes (decode_descends t cfg o)]

theorem decodeLine_decHead_of_short {q : Ports} (hlen : o.uLen < hdrBlock) (hsin : o.uLen ≤ q.sin.length) :
    decodeLine t cfg o (.decHead []) q = .ends (.failure .truncated) { q with sin := q.sin.drop o.uLen } := by
  rw [decodeLine_decHead, min_eq_left hlen.le, sinThen_of_offered hsin, if_pos hlen]

theorem decodeLine_decHead_of_offered {q : Ports} (hlen : hdrBlock ≤ o.uLen) (hsin : hdrBlock ≤ q.sin.length) :
    decodeLine t cfg o (.decHead []) q =
      decodeHeader t cfg o (q.sin.take hdrBlock) { q with sin := q.sin.drop hdrBlock } := by
  rw [decodeLine_decHead, min_eq_right hlen, sinThen_of_offered hsin, if_neg (Nat.not_lt.2 hlen)]

/-! ### The header's checks -/

theorem decodeHeader_badTag {hdr : List Byte} (q : Ports) (h : slice hdr 0 4 ≠ (cfg.tag t.transform).bytes) :
    decodeHeader t cfg o hdr q = .ends (.failure .badTag) q := if_pos h

theorem decodeHeader_modulusMismatch {hdr : List Byte} (q : Ports)
    (htag : slice hdr 0 4 = (cfg.tag t.transform).bytes) (h : leDec (slice hdr 6 14) ≠ o.uM) :
    decodeHeader t cfg o hdr q = .ends (.failure .modulusMismatch) q := by
  rw [decodeHeader, if_neg (not_not.2 htag), if_pos h]

theorem decodeHeader_badWidth {hdr : List Byte} (q : Ports) (hlen : 6 ≤ hdr.length)
    (htag : slice hdr 0 4 = (cfg.tag t.transform).bytes) (hmod : leDec (slice hdr 6 14) = o.uM)
    (h : slice hdr 4 6 ≠ [BitVec.ofNat 8 (plainWidth o.uM), BitVec.ofNat 8 (cipherWidth o.uM)]) :
    decodeHeader t cfg o hdr q = .ends (.failure .badWidth) q := by
  have hwidths : beDec (slice hdr 4 5) ≠ plainWidth o.uM ∨ beDec (slice hdr 5 6) ≠ cipherWidth o.uM := by
    by_contra hboth
    obtain ⟨hpw, hcw⟩ := not_or.1 hboth
    rw [← slice_append_slice hdr (j := 5) (by decide) (by decide),
      slice_eq_ofNat (by omega) (not_not.1 hpw), slice_eq_ofNat (by omega) (not_not.1 hcw)] at h
    exact h rfl
  rw [decodeHeader, if_neg (not_not.2 htag), if_neg (not_not.2 hmod), if_pos hwidths]

/-- The header that `ENCODE` writes passes every check. -/
theorem decodeHeader_blockHeader {orig : Nat} (horig : orig < 2 ^ 64) (q : Ports) :
    decodeHeader t cfg o (blockHeader cfg t o.uM orig) q =
      decodeLoop ⟨o.uLen - hdrBlock, orig, 0, 0, orig⟩ q := by
  have htag : slice (blockHeader cfg t o.uM orig) 0 4 = (cfg.tag t.transform).bytes := rfl
  have hmod : leDec (slice (blockHeader cfg t o.uM orig) 6 14) = o.uM := leDec_le8 o.m.isLt
  have hpw : beDec (slice (blockHeader cfg t o.uM orig) 4 5) = plainWidth o.uM := by
    have := plainWidth_le_seven o.m.isLt
    exact (beDec_singleton _).trans (Nat.mod_eq_of_lt (show plainWidth o.m.toNat < 256 by omega))
  have hcw : beDec (slice (blockHeader cfg t o.uM orig) 5 6) = cipherWidth o.uM := by
    have := cipherWidth_le_eight o.m.isLt
    exact (beDec_singleton _).trans (Nat.mod_eq_of_lt (show cipherWidth o.m.toNat < 256 by omega))
  have hlength : leDec (slice (blockHeader cfg t o.uM orig) 14 22) = orig := leDec_le8 horig
  rw [decodeHeader, if_neg (not_not.2 htag), if_neg (not_not.2 hmod), if_neg (by simp [hpw, hcw]), hlength]

/-! ### One block -/

theorem decodeLine_decIn_of_short {v : DecLocals} {q : Ports} (hleft : v.left < blockSize t o.uM)
    (hsin : v.left ≤ q.sin.length) :
    decodeLine t cfg o (.decIn [] v) q = .ends (.failure .truncated) { q with sin := q.sin.drop v.left } := by
  rw [decodeLine_decIn, min_eq_left hleft.le, sinThen_of_offered hsin, if_pos hleft]

theorem decodeLine_decIn_of_offered {v : DecLocals} {q : Ports} (hleft : blockSize t o.uM ≤ v.left)
    (hsin : blockSize t o.uM ≤ q.sin.length) :
    decodeLine t cfg o (.decIn [] v) q =
      decodeBlock t o (q.sin.take (blockSize t o.uM)) v { q with sin := q.sin.drop (blockSize t o.uM) } := by
  rw [decodeLine_decIn, min_eq_right hleft, sinThen_of_offered hsin, if_neg (Nat.not_lt.2 hleft)]

theorem decodeBlock_of_error {blk : List Byte} {e : Cause} (v : DecLocals) (q : Ports)
    (h : inverse t o blk = .error e) : decodeBlock t o blk v q = .ends (.failure e) q := by
  rw [decodeBlock, h]

theorem decodeBlock_of_ok {blk : List Byte} {m : Nat} (v : DecLocals) (q : Ports) (h : inverse t o blk = .ok m) :
    decodeBlock t o blk v q =
      if 256 ^ plainWidth o.uM ≤ m then .ends (.failure .blockRange) q
      else .goes (.decOut ((beEnc m (plainWidth o.uM)).take (min (plainWidth o.uM) v.remaining))
        { v with
          left := v.left - blockSize t o.uM
          remaining := v.remaining - min (plainWidth o.uM) v.remaining
          blocks := v.blocks + 1
          out := v.out + min (plainWidth o.uM) v.remaining }) q := by
  rw [decodeBlock, h]

end

/-! ### The statements about errors -/

theorem exec_decode_of_failure {t : BlockTransform} {s : State} {c : Ctx} {p : Pos} {e : Cause} {q : Ports}
    (h : s.ctx = some c) (hp : c.pos = p)
    (hf : (Progress.goes p s.ports).finish (decodeLine t s.cfg c.ops) = .ends (.failure e) q) :
    exec (decodeCommand t.transform) s = .next ({ s with ports := q }.raise e) :=
  exec_of_finish_failure h hp (by rw [decodeCommand_lineOf, hf])

/-- Settles O53: the checks are the header's, in the order of the pseudocode. -/
theorem decodeChecksTheHeaderInOrder : Obligations.DecodeChecksTheHeaderInOrder := by
  intro t s c ⟨hctx, hpos⟩
  refine ⟨fun hM => ?_, fun hM hlen hsin => ?_, fun hM hlen hsin => ?_⟩
  · refine exec_decode_of_failure hctx hpos ?_
    rw [finish_goes (decode_descends t s.cfg c.ops),
      decodeLine_start_of_zero _ _ _ ((uM_eq_zero_iff c.ops).2 hM), finish_ends]
  · refine exec_decode_of_failure hctx hpos ?_
    rw [decode_start_finish _ _ _ (mt (uM_eq_zero_iff c.ops).1 hM), decodeLine_decHead_of_short _ _ _ hlen hsin,
      finish_ends]
  · have hcheck {e : Cause} (he : decodeHeader t s.cfg c.ops (s.ports.sin.take 22)
        { s.ports with sin := s.ports.sin.drop 22 } =
          .ends (.failure e) { s.ports with sin := s.ports.sin.drop 22 }) :
        exec (decodeCommand t.transform) s =
          .next ({ s with ports := { s.ports with sin := s.ports.sin.drop 22 } }.raise e) := by
      refine exec_decode_of_failure hctx hpos ?_
      rw [decode_start_finish _ _ _ (mt (uM_eq_zero_iff c.ops).1 hM),
        decodeLine_decHead_of_offered _ _ _ hlen hsin]
      exact congrArg (Progress.finish _) he
    have hhdr : 6 ≤ (s.ports.sin.take 22).length := by
      rw [List.length_take]
      omega
    exact ⟨fun htag => hcheck (decodeHeader_badTag _ _ _ _ htag),
      fun htag hmod => hcheck (decodeHeader_modulusMismatch _ _ _ _ htag hmod),
      fun htag hmod hw => hcheck (decodeHeader_badWidth _ _ _ _ hhdr htag hmod hw)⟩

/-- Settles O54: the errors of one `SinRead` of a block. -/
theorem decodeChecksEachBlockInOrder : Obligations.DecodeChecksEachBlockInOrder := by
  intro t s c v hctx hpos hleft bs s'
  refine ⟨fun hshort hsin => ?_, fun hwhole hsin => ?_⟩
  · refine exec_decode_of_failure hctx hpos ?_
    rw [finish_goes (decode_descends t s.cfg c.ops), decodeLine_decIn_of_short _ _ _ hshort hsin, finish_ends]
  · have hblock {e : Cause} (he : decodeBlock t c.ops (s.ports.sin.take bs) v s'.ports =
        .ends (.failure e) s'.ports) : exec (decodeCommand t.transform) s = .next (s'.raise e) := by
      refine exec_decode_of_failure hctx hpos ?_
      rw [finish_goes (decode_descends t s.cfg c.ops), decodeLine_decIn_of_offered _ _ _ hwhole hsin]
      exact congrArg (Progress.finish _) he
    exact ⟨fun e he => hblock (decodeBlock_of_error _ _ _ _ he),
      fun m hm hrange => hblock ((decodeBlock_of_ok _ _ _ _ hm).trans (if_pos hrange))⟩

/-! ### A container of good blocks -/

/-- Blocks of the right size that recover the values `ms`, each in range (rule R103). -/
def GoodBlocks (t : BlockTransform) (o : Operands) : List (List Byte) → List Nat → Prop :=
  List.Forall₂ fun blk m => blk.length = blockSize t o.uM ∧ inverse t o blk = .ok m ∧ m < 256 ^ plainWidth o.uM

/-- The plaintext bytes of the values `ms`, of which `n` are owed. -/
def plainBytes (pw : Nat) (ms : List Nat) (n : Nat) : List Byte := (ms.flatMap (beEnc · pw)).take n

theorem plainBytes_cons (pw m : Nat) (ms : List Nat) (n : Nat) :
    plainBytes pw (m :: ms) n = (beEnc m pw).take (min pw n) ++ plainBytes pw ms (n - min pw n) := by
  have hhead : (beEnc m pw).take n = (beEnc m pw).take (min pw n) := by
    rw [List.take_eq_take_min, beEnc_length, min_comm]
  have htail : n - pw = n - min pw n := by omega
  rw [plainBytes, List.flatMap_cons, List.take_append, beEnc_length, hhead, htail, plainBytes]

section
variable {t : BlockTransform} {cfg : Params} {o : Operands}

/-- The loop of rule R106 over good blocks. -/
theorem decodeLoop_finish {blocks : List (List Byte)} {ms : List Nat} {rest : List Byte} (hb : GoodBlocks t o blocks ms)
    {v : DecLocals} {q : Ports} (hleft : v.left = blocks.length * blockSize t o.uM)
    (hsin : q.sin = blocks.flatten ++ rest)
    (hroom : (plainBytes (plainWidth o.uM) ms v.remaining).length ≤ q.room) :
    (decodeLoop v q).finish (decodeLine t cfg o) =
      .ends
        (if blocks.length * plainWidth o.uM < v.remaining then .failure .containerShort
          else .success (toWord (v.out + v.remaining)) (toWord (v.blocks + blocks.length)) (toWord v.orig))
        { q with
          sin := rest
          sout := q.sout ++ plainBytes (plainWidth o.uM) ms v.remaining
          room := q.room - (plainBytes (plainWidth o.uM) ms v.remaining).length } := by
  induction hb generalizing v q with
  | nil =>
    have hzero : v.left = 0 := by simpa using hleft
    obtain rfl : q.sin = rest := hsin
    rw [decodeLoop, if_pos hzero]
    by_cases hr : 0 < v.remaining
    · simp [plainBytes, hr]
    · simp [plainBytes, Nat.eq_zero_of_not_pos hr]
  | @cons blk m blocks ms hblk htail ih =>
    obtain ⟨hlen, hinv, hlt⟩ := hblk
    have hbs := blockSize_pos t o.uM
    rw [List.length_cons, Nat.succ_mul] at hleft
    rw [List.flatten_cons, List.append_assoc] at hsin
    have hwhole : blockSize t o.uM ≤ q.sin.length := by
      rw [hsin, List.length_append]
      omega
    have htake : q.sin.take (blockSize t o.uM) = blk := by rw [hsin, ← hlen, List.take_left]
    have hdrop : q.sin.drop (blockSize t o.uM) = blocks.flatten ++ rest := by rw [hsin, ← hlen, List.drop_left]
    rw [plainBytes_cons, List.length_append] at hroom
    rw [decodeLoop, if_neg (by omega), finish_goes (decode_descends t cfg o),
      decodeLine_decIn_of_offered _ _ _ (by omega) hwhole, htake, decodeBlock_of_ok _ _ _ _ hinv,
      if_neg (Nat.not_le.2 hlt), finish_goes (decode_descends t cfg o), decodeLine_decOut,
      soutThen_of_room (by simp only; omega), ih (by simp only; omega) hdrop (by simp only; omega)]
    have hshort : blocks.length * plainWidth o.uM < v.remaining - min (plainWidth o.uM) v.remaining ↔
        (blocks.length + 1) * plainWidth o.uM < v.remaining := by
      rw [Nat.succ_mul]
      omega
    have hout : v.out + min (plainWidth o.uM) v.remaining + (v.remaining - min (plainWidth o.uM) v.remaining) =
        v.out + v.remaining := by omega
    have hblocks : v.blocks + 1 + blocks.length = v.blocks + (blocks.length + 1) := by omega
    simp only [plainBytes_cons, List.length_append, List.append_assoc, Nat.sub_sub, List.length_cons, hshort, hout,
      hblocks]

/-- What `DECODE` comes to on a container of good blocks, when it never has to wait. -/
theorem decode_finish {blocks : List (List Byte)} {ms : List Nat} {rest : List Byte} {orig : Nat} {q : Ports}
    (hM : o.uM ≠ 0) (horig : orig < 2 ^ 64) (hb : GoodBlocks t o blocks ms)
    (hlen : o.uLen = hdrBlock + blocks.length * blockSize t o.uM)
    (hsin : q.sin = blockHeader cfg t o.uM orig ++ blocks.flatten ++ rest)
    (hroom : (plainBytes (plainWidth o.uM) ms orig).length ≤ q.room) :
    (Progress.goes .start q).finish (decodeLine t cfg o) =
      .ends
        (if blocks.length * plainWidth o.uM < orig then .failure .containerShort
          else .success (toWord orig) (toWord blocks.length) (toWord orig))
        { q with
          sin := rest
          sout := q.sout ++ plainBytes (plainWidth o.uM) ms orig
          room := q.room - (plainBytes (plainWidth o.uM) ms orig).length } := by
  have hhdr := blockHeader_length cfg t o.uM orig
  rw [List.append_assoc] at hsin
  have htake : q.sin.take hdrBlock = blockHeader cfg t o.uM orig := by rw [hsin, ← hhdr, List.take_left]
  have hdrop : q.sin.drop hdrBlock = blocks.flatten ++ rest := by rw [hsin, ← hhdr, List.drop_left]
  have hoffered : hdrBlock ≤ q.sin.length := by
    rw [hsin, List.length_append]
    omega
  rw [decode_start_finish _ _ _ hM, decodeLine_decHead_of_offered _ _ _ (by omega) hoffered, htake,
    decodeHeader_blockHeader _ _ _ horig, decodeLoop_finish hb (by simp only; omega) hdrop hroom, Nat.zero_add,
    Nat.zero_add]

end

/-- Settles O55: the loop over the blocks, from the header's original length. -/
theorem decodeRecoversThePlaintext : Obligations.DecodeRecoversThePlaintext := by
  intro t s c orig blocks ms rest ⟨hctx, hpos⟩ hM horig hb hlen hsin emitted hroom s'
  have hfinish := decode_finish (mt (uM_eq_zero_iff c.ops).1 hM) horig hb hlen hsin hroom
  rw [← decodeCommand_lineOf] at hfinish
  have hexec := exec_of_finish hctx hpos hfinish
  refine ⟨fun hle => ?_, fun hlt => ?_⟩
  · rw [if_neg (Nat.not_lt.2 hle)] at hexec
    exact hexec
  · rw [if_pos hlt] at hexec
    exact hexec

end Sys2Proof.Machine
end

section
/-! PROOFS. The one-time pad: `ENCODE.OTP` and `DECODE.OTP`, byte by byte (42_codec_framing.md rules R107 to R109). -/

namespace Sys2Proof.Machine

/-- The first `n` bytes of a stream, each XOR the key byte at the same offset (rule R107). -/
def xorBytes (s key : List Byte) (n : Nat) : List Byte := List.zipWith (· ^^^ ·) (s.take n) (key.take n)

@[simp] theorem xorBytes_zero (s key : List Byte) : xorBytes s key 0 = [] := rfl

@[simp] theorem xorBytes_cons (b k : Byte) (s key : List Byte) (n : Nat) :
    xorBytes (b :: s) (k :: key) (n + 1) = (b ^^^ k) :: xorBytes s key n := rfl

/-- A list that has more than `n` elements has a first one, and its tail has the rest. -/
theorem exists_cons_of_succ_le_length {α : Type} {l : List α} {n : Nat} (h : n + 1 ≤ l.length) :
    ∃ a l', l = a :: l' ∧ n ≤ l'.length := by
  obtain ⟨a, l', rfl⟩ := List.exists_cons_of_length_pos (by omega : 0 < l.length)
  exact ⟨a, l', rfl, by simpa using h⟩

/-! ### `ENCODE.OTP` (rule R108) -/

section
variable {cfg : Params} {o : Operands}

theorem padOut_finish {pending : List Byte} (left : Nat) {q : Ports} (h : pending.length ≤ q.room) :
    (Progress.goes (.padOut pending left) q).finish (padLine cfg o) =
      (padLoop o left { q with sout := q.sout ++ pending, room := q.room - pending.length }).finish
        (padLine cfg o) := by
  rw [finish_goes (pad_descends cfg o), padLine_padOut, soutThen_of_room h]

/-- One turn of the loop of rule R108: a plaintext byte and a key byte in, their XOR out. -/
theorem padLoop_finish_succ {left : Nat} {q : Ports} {b k : Byte} {sin kin : List Byte} (hsin : q.sin = b :: sin)
    (hkin : q.kin = k :: kin) (hroom : 1 ≤ q.room) :
    (padLoop o (left + 1) q).finish (padLine cfg o) =
      (padLoop o left
        { q with sin := sin, kin := kin, sout := q.sout ++ [b ^^^ k], room := q.room - 1 }).finish
        (padLine cfg o) := by
  have hin : padLine cfg o (.padIn (left + 1)) q = .goes (.padKey b (left + 1)) { q with sin := sin } := by
    rw [padLine, hsin]
  have hkey : padLine cfg o (.padKey b (left + 1)) { q with sin := sin } =
      .goes (.padOut [b ^^^ k] left) { q with sin := sin, kin := kin } := by
    rw [padLine, hkin, Nat.add_sub_cancel]
  rw [padLoop, if_neg (Nat.succ_ne_zero left), finish_goes (pad_descends cfg o), hin,
    finish_goes (pad_descends cfg o), hkey, padOut_finish left (by exact hroom)]
  rfl

theorem padLoop_finish {left : Nat} {q : Ports} (hsin : left ≤ q.sin.length) (hkin : left ≤ q.kin.length)
    (hroom : left ≤ q.room) :
    (padLoop o left q).finish (padLine cfg o) =
      .ends (.success (toWord (hdrOtp + o.uLen)) (toWord o.uLen) (toWord o.uLen))
        { q with
          sin := q.sin.drop left
          kin := q.kin.drop left
          sout := q.sout ++ xorBytes q.sin q.kin left
          room := q.room - left } := by
  induction left generalizing q with
  | zero => simp [padLoop]
  | succ left ih =>
    obtain ⟨b, sin, hs, hsin'⟩ := exists_cons_of_succ_le_length hsin
    obtain ⟨k, kin, hk, hkin'⟩ := exists_cons_of_succ_le_length hkin
    rw [padLoop_finish_succ hs hk (by omega), ih hsin' hkin' (by simp only; omega)]
    simp only [hs, hk, xorBytes_cons, List.drop_succ_cons, List.append_assoc, List.singleton_append, Nat.sub_sub,
      Nat.add_comm 1 left]

end

/-- Settles O56: the header, then the loop over the plaintext bytes. -/
theorem encodeOtpXorsTheKeyStream : Obligations.EncodeOtpXorsTheKeyStream := by
  refine ⟨decode_encode .encodeOtp, fun s c ⟨hctx, hpos⟩ => ⟨fun hshort => ?_, fun hkey hsin hkin hroom => ?_⟩⟩
  · exact exec_of_line_stops (i := .encodeOtp) (r := .ends (.failure .keyShort) s.ports) hctx
      (by rw [hpos]; exact if_pos hshort) (by simp)
  · have hhdr : (padHeader s.cfg c.ops.uLen).length = 12 := padHeader_length ..
    have hstart : padLine s.cfg c.ops .start s.ports =
        .goes (.padOut (padHeader s.cfg c.ops.uLen) c.ops.uLen) s.ports := if_neg (Nat.not_lt.2 hkey)
    have hfinish := finish_goes (pad_descends s.cfg c.ops) .start s.ports
    rw [hstart, padOut_finish _ (by omega), padLoop_finish (by exact hsin) (by exact hkin) (by simp only; omega),
      hhdr] at hfinish
    refine (exec_of_finish (i := .encodeOtp) hctx hpos hfinish).trans ?_
    simp only [settle_success, toWord_uLen, xorBytes, Nat.sub_sub]
    rfl

/-! ### `DECODE.OTP` (rule R109): the header -/

section
variable (cfg : Params) (o : Operands)

theorem unpad_start_finish (q : Ports) :
    (Progress.goes .start q).finish (unpadLine cfg o) =
      (unpadLine cfg o (.unpadHead []) q).finish (unpadLine cfg o) := by
  rw [finish_goes (unpad_descends cfg o), unpadLine, finish_goes (unpad_descends cfg o)]

theorem unpadLine_unpadHead_of_short {q : Ports} (hlen : o.uLen < hdrOtp) (hsin : o.uLen ≤ q.sin.length) :
    unpadLine cfg o (.unpadHead []) q = .ends (.failure .truncated) { q with sin := q.sin.drop o.uLen } := by
  rw [unpadLine_unpadHead, min_eq_left hlen.le, sinThen_of_offered hsin, if_pos hlen]

theorem unpadLine_unpadHead_of_offered {q : Ports} (hlen : hdrOtp ≤ o.uLen) (hsin : hdrOtp ≤ q.sin.length) :
    unpadLine cfg o (.unpadHead []) q =
      unpadHeader cfg o (q.sin.take hdrOtp) { q with sin := q.sin.drop hdrOtp } := by
  rw [unpadLine_unpadHead, min_eq_right hlen, sinThen_of_offered hsin, if_neg (Nat.not_lt.2 hlen)]

theorem unpadHeader_badTag {hdr : List Byte} (q : Ports) (h : slice hdr 0 4 ≠ (cfg.tag .otp).bytes) :
    unpadHeader cfg o hdr q = .ends (.failure .badTag) q := if_pos h

theorem unpadHeader_keyShort {hdr : List Byte} (q : Ports) (htag : slice hdr 0 4 = (cfg.tag .otp).bytes)
    (h : o.uKlen < leDec (slice hdr 4 12)) : unpadHeader cfg o hdr q = .ends (.failure .keyShort) q := by
  rw [unpadHeader, if_neg (not_not.2 htag), if_pos h]

/-- The header that `ENCODE.OTP` writes passes both checks when the key is long enough. -/
theorem unpadHeader_padHeader {orig : Nat} (hkey : orig ≤ o.uKlen) (q : Ports) :
    unpadHeader cfg o (padHeader cfg orig) q = unpadLoop o ⟨o.uLen - hdrOtp, orig, 0, 0, orig⟩ q := by
  have htag : slice (padHeader cfg orig) 0 4 = (cfg.tag .otp).bytes := rfl
  have hlength : leDec (slice (padHeader cfg orig) 4 12) = orig := leDec_le8 (hkey.trans_lt o.klen.isLt)
  rw [unpadHeader, if_neg (not_not.2 htag), hlength, if_neg (Nat.not_lt.2 hkey)]

end

/-- Settles O57: the checks are the header's, in the order of the pseudocode. -/
theorem decodeOtpChecksTheHeaderInOrder : Obligations.DecodeOtpChecksTheHeaderInOrder := by
  intro s c ⟨hctx, hpos⟩
  refine ⟨fun hlen hsin => ?_, fun hlen hsin => ?_⟩
  · refine exec_of_finish_failure (i := .decodeOtp) hctx hpos ((unpad_start_finish s.cfg c.ops s.ports).trans ?_)
    rw [unpadLine_unpadHead_of_short _ _ hlen hsin, finish_ends]
  · have hcheck {e : Cause} (he : unpadHeader s.cfg c.ops (s.ports.sin.take 12)
        { s.ports with sin := s.ports.sin.drop 12 } =
          .ends (.failure e) { s.ports with sin := s.ports.sin.drop 12 }) :
        exec .decodeOtp s = .next ({ s with ports := { s.ports with sin := s.ports.sin.drop 12 } }.raise e) := by
      refine exec_of_finish_failure (i := .decodeOtp) hctx hpos ((unpad_start_finish s.cfg c.ops s.ports).trans ?_)
      rw [unpadLine_unpadHead_of_offered _ _ hlen hsin]
      exact congrArg (Progress.finish _) he
    have htag : slice (s.ports.sin.take 12) 0 4 = s.ports.sin.take 4 := List.take_take
    exact ⟨fun hbad => hcheck (unpadHeader_badTag _ _ _ (htag ▸ hbad)),
      fun hgood hkey => hcheck (unpadHeader_keyShort _ _ _ (htag.trans hgood) hkey)⟩

/-! ### `DECODE.OTP`: the payload -/

section
variable {cfg : Params} {o : Operands}

/-- A payload byte that is owed takes a key byte and is emitted. -/
theorem unpadLoop_finish_owed {v : DecLocals} {q : Ports} {b k : Byte} {sin kin : List Byte} (hleft : v.left ≠ 0)
    (howed : 0 < v.remaining) (hsin : q.sin = b :: sin) (hkin : q.kin = k :: kin) (hroom : 1 ≤ q.room) :
    (unpadLoop o v q).finish (unpadLine cfg o) =
      (unpadLoop o { v with left := v.left - 1, remaining := v.remaining - 1, out := v.out + 1 }
        { q with sin := sin, kin := kin, sout := q.sout ++ [b ^^^ k], room := q.room - 1 }).finish
        (unpadLine cfg o) := by
  have hin : unpadLine cfg o (.unpadIn v) q =
      .goes (.unpadKey b { v with left := v.left - 1 }) { q with sin := sin } := by
    rw [unpadLine, hsin]
    exact if_pos howed
  have hkey : unpadLine cfg o (.unpadKey b { v with left := v.left - 1 }) { q with sin := sin } =
      .goes (.unpadOut [b ^^^ k] { v with left := v.left - 1, remaining := v.remaining - 1, out := v.out + 1 })
        { q with sin := sin, kin := kin } := by
    rw [unpadLine, hkin]
  rw [unpadLoop, if_neg hleft, finish_goes (unpad_descends cfg o), hin, finish_goes (unpad_descends cfg o), hkey,
    finish_goes (unpad_descends cfg o), unpadLine_unpadOut, soutThen_of_room (by exact hroom)]
  rfl

/-- A surplus payload byte takes no key byte. -/
theorem unpadLoop_finish_surplus {v : DecLocals} {q : Ports} {b : Byte} {sin : List Byte} (hleft : v.left ≠ 0)
    (hsurplus : v.remaining = 0) (hsin : q.sin = b :: sin) :
    (unpadLoop o v q).finish (unpadLine cfg o) =
      (unpadLoop o { v with left := v.left - 1 } { q with sin := sin }).finish (unpadLine cfg o) := by
  have hin : unpadLine cfg o (.unpadIn v) q = unpadLoop o { v with left := v.left - 1 } { q with sin := sin } := by
    rw [unpadLine, hsin]
    exact if_neg (Nat.not_lt.2 hsurplus.le)
  rw [unpadLoop, if_neg hleft, finish_goes (unpad_descends cfg o), hin]

/-- The loop of rule R109 over a payload. -/
theorem unpadLoop_finish {payload rest : List Byte} {v : DecLocals} {q : Ports} (hleft : v.left = payload.length)
    (hsin : q.sin = payload ++ rest) (hkin : min v.remaining payload.length ≤ q.kin.length)
    (hroom : min v.remaining payload.length ≤ q.room) :
    (unpadLoop o v q).finish (unpadLine cfg o) =
      .ends
        (if payload.length < v.remaining then .failure .containerShort
          else .success (toWord (v.out + v.remaining)) (toWord (o.uLen - hdrOtp)) (toWord v.orig))
        { q with
          sin := rest
          kin := q.kin.drop (min v.remaining payload.length)
          sout := q.sout ++ xorBytes payload q.kin (min v.remaining payload.length)
          room := q.room - min v.remaining payload.length } := by
  induction payload generalizing v q with
  | nil =>
    obtain rfl : q.sin = rest := hsin
    have hzero : v.left = 0 := hleft
    rw [unpadLoop, if_pos hzero]
    by_cases hr : 0 < v.remaining
    · simp [hr]
    · simp [Nat.eq_zero_of_not_pos hr]
  | cons b payload ih =>
    rw [List.length_cons] at hleft hkin hroom
    rcases Nat.eq_zero_or_pos v.remaining with hr | hr
    · rw [unpadLoop_finish_surplus (by omega) hr hsin, ih (by simp only; omega) rfl (by simp [hr]) (by simp [hr])]
      simp [hr]
    · have hmin : min v.remaining (payload.length + 1) = min (v.remaining - 1) payload.length + 1 := by omega
      rw [hmin] at hkin hroom
      obtain ⟨k, kin, hk, hkin'⟩ := exists_cons_of_succ_le_length hkin
      have hshort : payload.length < v.remaining - 1 ↔ payload.length + 1 < v.remaining := by omega
      have hout : v.out + 1 + (v.remaining - 1) = v.out + v.remaining := by omega
      rw [unpadLoop_finish_owed (by omega) hr hsin hk (by omega),
        ih (by simp only; omega) rfl hkin' (by simp only; omega)]
      simp only [hshort, hout, hk, hmin, List.length_cons, xorBytes_cons, List.drop_succ_cons, List.append_assoc,
        List.singleton_append, Nat.sub_sub, Nat.add_comm 1]

/-- What `DECODE.OTP` comes to on a container, when it never has to wait. -/
theorem unpad_finish {payload rest : List Byte} {orig : Nat} {q : Ports} (hkey : orig ≤ o.uKlen)
    (hlen : o.uLen = hdrOtp + payload.length) (hsin : q.sin = padHeader cfg orig ++ payload ++ rest)
    (hkin : min orig payload.length ≤ q.kin.length) (hroom : min orig payload.length ≤ q.room) :
    (Progress.goes .start q).finish (unpadLine cfg o) =
      .ends
        (if payload.length < orig then .failure .containerShort
          else .success (toWord orig) (toWord payload.length) (toWord orig))
        { q with
          sin := rest
          kin := q.kin.drop (min orig payload.length)
          sout := q.sout ++ xorBytes payload q.kin (min orig payload.length)
          room := q.room - min orig payload.length } := by
  have hhdr := padHeader_length cfg orig
  rw [List.append_assoc] at hsin
  have htake : q.sin.take hdrOtp = padHeader cfg orig := by rw [hsin, ← hhdr, List.take_left]
  have hdrop : q.sin.drop hdrOtp = payload ++ rest := by rw [hsin, ← hhdr, List.drop_left]
  have hoffered : hdrOtp ≤ q.sin.length := by
    rw [hsin, List.length_append]
    omega
  have hpayload : o.uLen - hdrOtp = payload.length := by omega
  rw [unpad_start_finish, unpadLine_unpadHead_of_offered _ _ (by omega) hoffered, htake,
    unpadHeader_padHeader _ _ hkey, unpadLoop_finish hpayload hdrop hkin hroom, hpayload, Nat.zero_add]

end

/-- Settles O58: the loop over the payload, from the header's original length. -/
theorem decodeOtpRecoversThePlaintext : Obligations.DecodeOtpRecoversThePlaintext := by
  intro s c orig payload rest ⟨hctx, hpos⟩ hkey hlen hsin hkin hroom n s'
  have hexec := exec_of_finish (i := .decodeOtp) hctx hpos (unpad_finish hkey hlen hsin hkin hroom)
  refine ⟨fun hle => ?_, fun hlt => ?_⟩
  · rw [if_neg (Nat.not_lt.2 hle)] at hexec
    exact hexec
  · rw [if_pos hlt] at hexec
    exact hexec

end Sys2Proof.Machine
end

section
/-! PROOFS. With matching keys the inverse transform undoes the forward one (43_codec_transforms.md rule R121). -/

namespace Sys2Proof.Machine

/-! ### Exponents that cancel -/

/-- Fermat's theorem, zero included: an exponent that is 1 modulo `p - 1` changes nothing modulo `p`. -/
theorem pow_modEq_self {p n : Nat} (hp : p.Prime) (hn : n ≠ 0) (h : n ≡ 1 [MOD p - 1]) (m : Nat) :
    m ^ n ≡ m [MOD p] := by
  have : Fact p.Prime := ⟨hp⟩
  obtain ⟨j, hj⟩ := (Nat.modEq_iff_dvd' (Nat.one_le_iff_ne_zero.2 hn)).1 h.symm
  rw [show n = (p - 1) * j + 1 by omega, ← ZMod.natCast_eq_natCast_iff]
  push_cast
  by_cases hm : (m : ZMod p) = 0
  · rw [hm, zero_pow (Nat.succ_ne_zero _)]
  · rw [pow_succ, pow_mul, ZMod.pow_card_sub_one_eq_one hm, one_pow, one_mul]

/-- A number that is 1 modulo more than 1 is not 0. -/
theorem ne_zero_of_modEq_one {n k : Nat} (hk : 2 ≤ k) (h : n ≡ 1 [MOD k]) : n ≠ 0 := by
  rintro rfl
  rw [Nat.ModEq, Nat.zero_mod, Nat.mod_eq_of_lt hk] at h
  cases h

/-- An exponent that is 1 modulo `(p - 1) * (q - 1)` changes nothing modulo `p * q`. -/
theorem pow_modEq_self_of_two_primes {p q n : Nat} (hp : p.Prime) (hq : q.Prime) (hne : p ≠ q)
    (h : n ≡ 1 [MOD (p - 1) * (q - 1)]) (m : Nat) : m ^ n ≡ m [MOD p * q] := by
  have hphi : 2 ≤ (p - 1) * (q - 1) := by
    have := hp.two_le
    have := hq.two_le
    rcases Nat.lt_or_ge p 3 with h3 | h3
    · exact le_mul_of_one_le_of_le (by omega) (by omega)
    · exact le_mul_of_le_of_one_le (by omega) (by omega)
  have hn := ne_zero_of_modEq_one hphi h
  exact (Nat.modEq_and_modEq_iff_modEq_mul ((Nat.coprime_primes hp hq).2 hne)).1
    ⟨pow_modEq_self hp hn (h.of_mul_right _) m, pow_modEq_self hq hn (h.of_mul_left _) m⟩

/-- Reducing a base before a power makes no difference after it. -/
theorem pow_mod_pow_mod (b x y n : Nat) : (b ^ x % n) ^ y % n = b ^ (x * y) % n := by
  rw [← Nat.pow_mod, ← pow_mul]

/-! ### The inverses of the blocks -/

/-- A residue written in `cw` bytes is read back. -/
theorem beDec_beEnc_mod {n : Nat} (hn : n ≠ 0) (v : Nat) : beDec (beEnc (v % n) (cipherWidth n)) = v % n :=
  beDec_beEnc ((Nat.mod_lt v (Nat.pos_of_ne_zero hn)).trans_le (le_pow_cipherWidth n))

section
variable {e d : Operands} {m : Nat}

theorem inverseRsa_blockOf (h : KeysMatch .rsa e d) (hm : m < e.uM) (k : Nat) :
    inverse .rsa d (blockOf .rsa e m k) = .ok m := by
  obtain ⟨hmod, p, q, hp, hq, hne, hpq, hkeys⟩ := h
  have hM : e.uM ≠ 0 := by omega
  rw [inverse, inverseRsa, blockOf, hmod, beDec_beEnc_mod hM, modpow_natCast hM, pow_mod_pow_mod, mul_comm, hpq,
    pow_modEq_self_of_two_primes hp hq hne hkeys m, ← hpq, Nat.mod_eq_of_lt hm]

theorem inverseTp_blockOf (h : KeysMatch .tp e d) (h2 : 2 < e.uM) (hm : m < e.uM) (k : Nat) :
    inverse .tp d (blockOf .tp e m k) = .ok m := by
  obtain ⟨hmod, hp, hforth, hback⟩ := h
  have hM : e.uM ≠ 0 := by omega
  have hkeys : e.uB * (e.uE1 * (e.uE2 * d.uB)) ≡ 1 [MOD e.uM - 1] :=
    calc e.uB * (e.uE1 * (e.uE2 * d.uB)) = e.uB * e.uE2 * (e.uE1 * d.uB) := by ring
      _ ≡ 1 [MOD e.uM - 1] := hforth.mul hback
  rw [inverse, inverseTp, blockOf, hmod, beDec_beEnc_mod hM, modpow_natCast hM, pow_mod_pow_mod, pow_mod_pow_mod,
    pow_mod_pow_mod, pow_modEq_self hp (ne_zero_of_modEq_one (by omega) hkeys) hkeys m, Nat.mod_eq_of_lt hm]

/-- The pair of rule R117 taken apart. -/
theorem elg_slices (o : Operands) (m k : Nat) :
    slice (blockOf .elg o m k) 0 8 = le8 (o.uA ^ k % o.uM) ∧
      slice (blockOf .elg o m k) 8 (8 + cipherWidth o.uM) = beEnc (m * o.uB ^ k % o.uM) (cipherWidth o.uM) := by
  refine ⟨rfl, ?_⟩
  rw [slice, List.take_of_length_le (by simp [blockSize, Nat.add_comm]), blockOf]
  exact List.drop_left' (le8_length _)

theorem inverseElg_blockOf (h : KeysMatch .elg e d) (hm : m < e.uM) (k : Nat) :
    inverse .elg d (blockOf .elg e m k) = .ok m := by
  obtain ⟨hmod, hp, hdvd, hB⟩ := h
  have hM : e.uM ≠ 0 := hp.ne_zero
  obtain ⟨hr, hc⟩ := elg_slices e m k
  have hr64 : e.uA ^ k % e.uM < 2 ^ 64 := (Nat.mod_lt _ hp.pos).trans e.m.isLt
  have hcop : Nat.gcd (e.uA ^ (k * d.uB) % e.uM) e.uM = 1 :=
    (Nat.gcd_rec ..).symm.trans (((Nat.Prime.coprime_iff_not_dvd hp).2 hdvd).pow_right _)
  have hs : e.uA ^ (k * d.uB) % e.uM ≠ 0 := fun hzero => hp.one_lt.ne' (by rwa [hzero, Nat.gcd_zero_left] at hcop)
  have hmask : e.uB ^ k ≡ e.uA ^ (k * d.uB) % e.uM [MOD e.uM] := by
    rw [hB, mul_comm k, pow_mul]
    exact ((Nat.mod_modEq _ _).pow k).trans (Nat.mod_modEq _ _).symm
  rw [inverse, inverseElg, hmod, hr, hc, leDec_le8 hr64, beDec_beEnc_mod hM, modpow_natCast hM, pow_mod_pow_mod]
  simp only [bind, Except.bind, modinv_of_gcd_eq_one hM hs hcop, pure, Except.pure]
  have hinv := mul_floorMod_egcd hM hcop
  generalize floorMod _ _ = sinv at hinv ⊢
  congr 1
  calc m * e.uB ^ k % e.uM * sinv % e.uM = m * (e.uA ^ (k * d.uB) % e.uM * sinv) % e.uM := by
        rw [← mul_assoc]
        exact ((Nat.mod_modEq _ _).trans (hmask.mul_left m)).mul_right sinv
    _ = m * 1 % e.uM := Nat.ModEq.mul_left m hinv
    _ = m := by rw [mul_one, Nat.mod_eq_of_lt hm]

/-- Rule R121 for every block transform. -/
theorem inverse_blockOf {t : BlockTransform} (h : KeysMatch t e d) (h2 : 2 < e.uM) (hm : m < e.uM) (k : Nat) :
    inverse t d (blockOf t e m k) = .ok m := by
  cases t with
  | rsa => exact inverseRsa_blockOf h hm k
  | elg => exact inverseElg_blockOf h hm k
  | tp => exact inverseTp_blockOf h h2 hm k

theorem KeysMatch.uM_eq {t : BlockTransform} (h : KeysMatch t e d) : d.uM = e.uM := by
  cases t <;> exact h.1

end

end Sys2Proof.Machine
end

section
/-! PROOFS. The round trips of 42_codec_framing.md rule R110: what a run of `ENCODE` that has ended must have taken and
emitted, and what `DECODE` makes of it. A run that has ended is compared with the same run supplied with enough, whose
outcome is known. -/

namespace Sys2Proof.Machine

/-! ### A supply that is enough -/

/-- `n` bytes on each input stream, `count` words, and readiness for `room` bytes. -/
def zeroSupply (n count room : Nat) : Ports := ⟨zeros n, zeros n, List.replicate count 0, [], room⟩

section
variable (s : State) (n count room : Nat)

@[simp] theorem supply_zeroSupply_sin :
    (s.supply (zeroSupply n count room)).ports.sin = s.ports.sin ++ zeros n := rfl

@[simp] theorem supply_zeroSupply_kin :
    (s.supply (zeroSupply n count room)).ports.kin = s.ports.kin ++ zeros n := rfl

@[simp] theorem supply_zeroSupply_room : (s.supply (zeroSupply n count room)).ports.room = s.ports.room + room := rfl

end

/-- Of a stream with `n` bytes supplied behind it, `n` bytes taken leave the supply only when they stood before it. -/
theorem le_length_of_drop_append_zeros {l r : List Byte} {n : Nat} (h : (l ++ zeros n).drop n = r ++ zeros n) :
    n ≤ l.length := by
  have hlen := congrArg List.length h
  simp only [List.length_drop, List.length_append, zeros_length] at hlen
  omega

/-! ### The one-time pad -/

theorem xorBytes_length {s key : List Byte} {n : Nat} (hs : n ≤ s.length) (hk : n ≤ key.length) :
    (xorBytes s key n).length = n := by
  simp [xorBytes, hs, hk]

/-- XOR with the same key bytes twice gives the bytes back. -/
theorem xorBytes_xorBytes {s key key' : List Byte} {n : Nat} (hs : n ≤ s.length) (hk : n ≤ key.length)
    (hkey : key.take n <+: key') : xorBytes (xorBytes s key n) key' n = s.take n := by
  induction n generalizing s key key' with
  | zero => rfl
  | succ n ih =>
    obtain ⟨b, s, rfl, hs'⟩ := exists_cons_of_succ_le_length hs
    obtain ⟨k, key, rfl, hk'⟩ := exists_cons_of_succ_le_length hk
    obtain ⟨z, rfl⟩ := hkey
    rw [List.take_succ_cons, List.cons_append, xorBytes_cons, xorBytes_cons, ih hs' hk' (List.prefix_append ..),
      xor_cancel_right, List.take_succ_cons]

/-- A run of `ENCODE.OTP` that has ended without error found its plaintext and key bytes, and emitted the container. -/
theorem encodeOtp_ended {s t : State} {c : Ctx} (h : s.AtStart c) (hexec : exec .encodeOtp s = .next t)
    (hctx : t.ctx = none) (herr : t.errcode = none) :
    c.ops.uLen ≤ s.ports.sin.length ∧ c.ops.uLen ≤ s.ports.kin.length ∧
      t.ports.sout =
        s.ports.sout ++ (padHeader s.cfg c.ops.uLen ++ xorBytes s.ports.sin s.ports.kin c.ops.uLen) := by
  obtain ⟨-, hencode⟩ := encodeOtpXorsTheKeyStream
  have hkey : c.ops.uLen ≤ c.ops.uKlen := by
    obtain ⟨hshort, -⟩ := hencode s c h
    by_contra hlt
    rw [hshort (Nat.lt_of_not_le hlt)] at hexec
    cases hexec
    cases herr
  obtain ⟨-, hemits⟩ := hencode (s.supply (zeroSupply c.ops.uLen 0 (12 + c.ops.uLen))) c h
  have henough := exec_supply_of_ended hexec hctx (zeroSupply c.ops.uLen 0 (12 + c.ops.uLen))
  rw [hemits hkey (by simp) (by simp) (by simp)] at henough
  injection henough with ht
  have hsin : (s.ports.sin ++ zeros c.ops.uLen).drop c.ops.uLen = t.ports.sin ++ zeros c.ops.uLen :=
    congrArg (·.ports.sin) ht
  have hkin : (s.ports.kin ++ zeros c.ops.uLen).drop c.ops.uLen = t.ports.kin ++ zeros c.ops.uLen :=
    congrArg (·.ports.kin) ht
  have hsout : s.ports.sout ++ padHeader s.cfg c.ops.uLen ++
      xorBytes (s.ports.sin ++ zeros c.ops.uLen) (s.ports.kin ++ zeros c.ops.uLen) c.ops.uLen = t.ports.sout :=
    congrArg (·.ports.sout) ht
  have hsin' := le_length_of_drop_append_zeros hsin
  have hkin' := le_length_of_drop_append_zeros hkin
  rw [xorBytes, List.take_append_of_le_length hsin', List.take_append_of_le_length hkin', List.append_assoc] at hsout
  exact ⟨hsin', hkin', hsout.symm⟩

/-- Settles O59: the container of a run that has ended, XORed with the same key bytes again. -/
theorem oneTimePadRoundTrip : Obligations.OneTimePadRoundTrip := by
  intro s t c u d container rest h hexec hctx herr hsout hu hcfg hlen hklen husin hukin huroom
  obtain ⟨hsin, hkin, hcontainer⟩ := encodeOtp_ended h hexec hctx herr
  obtain rfl := List.append_cancel_left (hsout.symm.trans hcontainer)
  have hpayload := xorBytes_length hsin hkin
  have hxor := xorBytes_xorBytes hsin hkin hukin
  generalize xorBytes s.ports.sin s.ports.kin c.ops.uLen = payload at *
  have hmin : min c.ops.uLen payload.length = c.ops.uLen := by rw [hpayload, min_self]
  have hukin' : c.ops.uLen ≤ u.ports.kin.length := by simpa [hkin] using hukin.length_le
  rw [List.length_append, padHeader_length] at hlen
  obtain ⟨hcompletes, -⟩ := decodeOtpRecoversThePlaintext u d c.ops.uLen payload rest hu hklen hlen (hcfg ▸ husin)
    (hmin.symm ▸ hukin') (hmin.symm ▸ huroom)
  have hplain : xorBytes payload u.ports.kin (min c.ops.uLen payload.length) = s.ports.sin.take c.ops.uLen := by
    rw [hmin, hxor]
  exact ⟨_, hcompletes hpayload.ge, rfl, rfl, congrArg _ hplain, rfl, toWord_uLen c.ops, toWord_uLen c.ops⟩

/-! ### Block mode: what `ENCODE` emitted -/

/-- Words that are 0 are in range, so enough of them behind any words make the draws. -/
theorem exists_blockDraws {t : BlockTransform} {n : Nat} (hn : t = .elg → 4 ≤ n) (ws : List Word) (count : Nat) :
    ∃ ks rest, BlockDraws t n (ws ++ List.replicate count 0) ks rest ∧ ks.length = count := by
  by_cases ht : t = .elg
  · subst ht
    have h4 := hn rfl
    induction count generalizing ws with
    | zero => exact ⟨[], _, .nil _, rfl⟩
    | succ count ih =>
      cases hdraw : (randRange2 n ws).1 with
      | some k =>
        have hk := randRange2_append_of_some hdraw (List.replicate (count + 1) 0)
        rw [List.replicate_succ, List.append_cons (randRange2 n ws).2] at hk
        obtain ⟨ks, rest, hd, hlen⟩ := ih ((randRange2 n ws).2 ++ [0])
        exact ⟨k :: ks, rest, .cons hk hd, congrArg (· + 1) hlen⟩
      | none =>
        have hk : randRange2 n (0 :: List.replicate count 0) = (some 2, List.replicate count 0) := by
          simp [randRange2, show 0 < n - 3 by omega]
        obtain ⟨ks, rest, hd, hlen⟩ := ih []
        exact ⟨2 :: ks, rest, .cons ((randRange2_append_of_none hdraw _).trans hk) hd, congrArg (· + 1) hlen⟩
  · exact ⟨_, _, blockDraws_of_ne_elg ht n _ count, List.length_replicate⟩

/-- A run of `ENCODE` that has ended found its plaintext, and emitted the container of some draws. -/
theorem encode_ended {x : BlockTransform} {s t : State} {c : Ctx} (h : s.AtStart c) (hm : EncodesUnder x c.ops)
    (hexec : exec (encodeCommand x.transform) s = .next t) (hctx : t.ctx = none) :
    c.ops.uLen ≤ s.ports.sin.length ∧ ∃ ks, ks.length = blockCount c.ops ∧
      t.ports.sout = s.ports.sout ++ containerOf s.cfg x c.ops (s.ports.sin.take c.ops.uLen) ks := by
  obtain ⟨hM, helg⟩ := hm
  obtain ⟨ks, rest, hd, hks⟩ := exists_blockDraws helg s.ports.rnd (blockCount c.ops)
  have henough := exec_supply_of_ended hexec hctx
    (zeroSupply c.ops.uLen (blockCount c.ops) (22 + blockCount c.ops * blockSize x c.ops.uM))
  rw [exec_encode (by exact h) ⟨hM, helg⟩ (by simp) hd hks (by simp)] at henough
  injection henough with ht
  have hsin : (s.ports.sin ++ zeros c.ops.uLen).drop c.ops.uLen = t.ports.sin ++ zeros c.ops.uLen :=
    congrArg (·.ports.sin) ht
  have hsout : s.ports.sout ++ containerOf s.cfg x c.ops ((s.ports.sin ++ zeros c.ops.uLen).take c.ops.uLen) ks =
      t.ports.sout := congrArg (·.ports.sout) ht
  have hsin' := le_length_of_drop_append_zeros hsin
  rw [List.take_append_of_le_length hsin'] at hsout
  exact ⟨hsin', ks, hks, hsout.symm⟩

/-! ### Block mode: what `DECODE` makes of it -/

theorem beEnc_chunkValue {pw : Nat} {chunk : List Byte} (h : chunk.length ≤ pw) :
    beEnc (chunkValue pw chunk) pw = chunk ++ zeros (pw - chunk.length) := by
  have hbytes := beEnc_beDec (chunk ++ zeros (pw - chunk.length))
  rwa [List.length_append, zeros_length, Nat.add_sub_cancel' h] at hbytes

/-- The bytes of the chunks' values are the plaintext, without the zeros that pad the last chunk (rules R101, R103). -/
theorem plainBytes_chunkValue {pw k : Nat} {content : List Byte} (h : content.length ≤ k * pw) :
    plainBytes pw ((chunksOf pw k content).map (chunkValue pw)) content.length = content := by
  induction k generalizing content with
  | zero =>
    obtain rfl := List.eq_nil_of_length_eq_zero (by omega : content.length = 0)
    rfl
  | succ k ih =>
    rw [Nat.succ_mul] at h
    have hchunk : (content.take pw).length = min pw content.length := List.length_take
    have hrest : content.length - min pw content.length = (content.drop pw).length := by
      rw [List.length_drop]
      omega
    rw [chunksOf, List.map_cons, plainBytes_cons, beEnc_chunkValue (List.length_take_le ..), List.take_left' hchunk,
      hrest, ih (by rw [List.length_drop]; omega), List.take_append_drop]

theorem mem_blockValues_lt {o : Operands} {content : List Byte} {m : Nat} (h : m ∈ blockValues o content) :
    m < 256 ^ plainWidth o.uM := by
  have hchunks {k : Nat} {content chunk : List Byte} (h : chunk ∈ chunksOf (plainWidth o.uM) k content) :
      chunk.length ≤ plainWidth o.uM := by
    induction k generalizing content with
    | zero => cases h
    | succ k ih =>
      rcases List.mem_cons.1 h with rfl | h
      · exact List.length_take_le ..
      · exact ih h
  obtain ⟨chunk, hmem, rfl⟩ := List.mem_map.1 h
  exact chunkValue_lt (hchunks hmem)

theorem goodBlocks_flatten_length {t : BlockTransform} {o : Operands} {blocks : List (List Byte)} {ms : List Nat}
    (h : GoodBlocks t o blocks ms) : blocks.flatten.length = blocks.length * blockSize t o.uM := by
  induction h with
  | nil => simp
  | cons hblk _ ih =>
    obtain ⟨hlen, -, -⟩ := hblk
    rw [List.flatten_cons, List.length_append, ih, hlen, List.length_cons, Nat.succ_mul, Nat.add_comm]

/-- With matching keys, the blocks of values in range recover them. -/
theorem goodBlocks_blockOf {t : BlockTransform} {e d : Operands} (hkeys : KeysMatch t e d) (hM : 256 ≤ e.uM)
    {ms ks : List Nat} (hms : ∀ m ∈ ms, m < 256 ^ plainWidth e.uM) (hlen : ks.length = ms.length) :
    GoodBlocks t d (List.zipWith (blockOf t e) ms ks) ms := by
  induction ms generalizing ks with
  | nil => exact .nil
  | cons m ms ih =>
    obtain ⟨k, ks, rfl⟩ := List.exists_cons_of_length_eq_add_one hlen
    obtain ⟨hm, hms⟩ := List.forall_mem_cons.1 hms
    have hlt := hm.trans_le (pow_plainWidth_le_iff.2 hM)
    rw [← hkeys.uM_eq] at hm
    refine .cons ⟨?_, inverse_blockOf hkeys (by omega) hlt k, hm⟩ (ih hms (Nat.succ.inj hlen))
    rw [blockOf_length, hkeys.uM_eq]

theorem uLen_le_blockCount_mul (o : Operands) : o.uLen ≤ blockCount o * plainWidth o.uM := by
  have hpw := plainWidth_pos o.uM
  have := Nat.lt_div_mul_add (a := o.uLen + plainWidth o.uM - 1) hpw
  rw [blockCount, ceilDiv]
  omega

/-- Settles O60: the container of a run that has ended holds blocks that recover the values of its chunks. -/
theorem blockCodecRoundTrip : Obligations.BlockCodecRoundTrip := by
  intro x s t c u d container rest h hexec hctx _ hsout hM hkeys hu hcfg hlen husin huroom
  obtain ⟨hsin, ks, hks, hcontainer⟩ := encode_ended h ⟨by omega, fun _ => by omega⟩ hexec hctx
  obtain rfl := List.append_cancel_left (hsout.symm.trans hcontainer)
  have hmod := hkeys.uM_eq
  have hgood := goodBlocks_blockOf hkeys hM (fun m => mem_blockValues_lt (content := s.ports.sin.take c.ops.uLen))
    (hks.trans (blockValues_length ..).symm)
  have hcount : (List.zipWith (blockOf x c.ops) (blockValues c.ops (s.ports.sin.take c.ops.uLen)) ks).length =
      blockCount c.ops := by
    rw [List.length_zipWith, blockValues_length, hks, min_self]
  have hcontent : (s.ports.sin.take c.ops.uLen).length = c.ops.uLen := by
    rw [List.length_take, min_eq_left hsin]
  have hplain : plainBytes (plainWidth d.ops.uM) (blockValues c.ops (s.ports.sin.take c.ops.uLen)) c.ops.uLen =
      s.ports.sin.take c.ops.uLen := by
    have hbytes := plainBytes_chunkValue (hcontent.le.trans (uLen_le_blockCount_mul c.ops))
    rw [hcontent] at hbytes
    rw [hmod]
    exact hbytes
  have hroom : (plainBytes (plainWidth d.ops.uM) (blockValues c.ops (s.ports.sin.take c.ops.uLen))
      c.ops.uLen).length ≤ u.ports.room := by
    rw [hplain, hcontent]
    exact huroom
  rw [containerOf, List.length_append, blockHeader_length, goodBlocks_flatten_length hgood] at hlen
  rw [containerOf, ← hmod, ← hcfg] at husin
  obtain ⟨hcompletes, -⟩ := decodeRecoversThePlaintext x u d c.ops.uLen _ _ rest hu
    (mt (uM_eq_zero_iff d.ops).2 (by omega)) c.ops.len.isLt hgood hlen husin hroom
  have hle := uLen_le_blockCount_mul c.ops
  rw [← hcount, ← hmod] at hle
  exact ⟨_, hcompletes hle, rfl, rfl, congrArg _ hplain, rfl, toWord_uLen c.ops, toWord_uLen c.ops⟩

end Sys2Proof.Machine
end

section
/-! PROOFS. The transforms of one block (43_codec_transforms.md rules R116 to R121): what each answers, and that with
matching keys the inverse undoes the forward one. -/

namespace Sys2Proof.Machine

/-! ### What each transform answers -/

theorem uM_ne_zero {o : Operands} (h : o.m ≠ 0) : o.uM ≠ 0 := mt (uM_eq_zero_iff o).1 h

/-- Settles O43: `modpow` of an unsigned base is the closed power. -/
theorem rsaTransformsArePowers : Obligations.RsaTransformsArePowers := fun _ h =>
  ⟨fun m => forwardRsa_eq (uM_ne_zero h) m 0, fun blk => modpow_natCast (uM_ne_zero h) (beDec blk) _⟩

/-- Settles O45: each of the four exponentiations is the closed power. -/
theorem threePassTransformsArePowers : Obligations.ThreePassTransformsArePowers := fun _ h =>
  ⟨fun m => forwardTp_eq (uM_ne_zero h) m 0, fun blk => modpow_natCast (uM_ne_zero h) (beDec blk) _⟩

/-- The tail of a list that the slice spans to its end. -/
theorem slice_eq_drop {s : List Byte} {j : Nat} (h : s.length ≤ j) (i : Nat) : slice s i j = s.drop i := by
  rw [slice, List.take_of_length_le h]

/-- The inverse of rule R118 on a whole block: `modinv` of the recomputed mask, then the product. -/
theorem inverseElg_eq {o : Operands} (hM : o.uM ≠ 0) {blk : List Byte} (hlen : blk.length = 8 + cipherWidth o.uM) :
    inverseElg o blk =
      (modinv (leDec (blk.take 8) ^ o.uB % o.uM) o.uM).map fun sinv => mulmod (beDec (blk.drop 8)) sinv o.uM := by
  rw [inverseElg, modpow_natCast hM, slice_eq_drop hlen.le]
  rfl

/-- The product with the inverse of `s` solves `m * s = e` modulo `n`. -/
theorem mulmod_floorMod_egcd_mul {s n : Nat} (hn : n ≠ 0) (h : Nat.gcd s n = 1) (e : Nat) :
    mulmod e (floorMod (egcd s n).2.1 n) n * s % n = e % n := by
  have hinv := mul_floorMod_egcd hn h
  generalize floorMod _ _ = sinv at hinv ⊢
  calc e * sinv % n * s % n = e * (s * sinv) % n := by rw [Nat.mod_mul_mod, mul_assoc, mul_comm sinv]
    _ = e * 1 % n := Nat.ModEq.mul_left e hinv
    _ = e % n := by rw [mul_one]

/-- Settles O44: the errors of the inverse are those of `modinv` on the recomputed mask. -/
theorem elgamalTransformsFollowTheRules : Obligations.ElgamalTransformsFollowTheRules := by
  intro o h
  have hM := uM_ne_zero h
  refine ⟨forwardElg_eq hM, fun blk hlen => ?_⟩
  rw [inverseElg_eq hM hlen]
  refine ⟨fun hs => ?_, fun hs hg => ?_, fun hs hg => ?_⟩
  · rw [hs, modinv_value_zero hM]
    rfl
  · rw [modinv_of_gcd_ne_one hM hs hg]
    rfl
  · rw [modinv_of_gcd_eq_one hM hs hg]
    exact ⟨_, Nat.mod_lt _ (Nat.pos_of_ne_zero hM), mulmod_floorMod_egcd_mul hM hg _, rfl⟩

/-! ### With matching keys the inverse undoes the forward transform (rule R121) -/

/-- Settles O46: exponents that are inverse modulo `(p - 1) * (q - 1)` cancel modulo `p * q`. -/
theorem rsaInverseUndoesForward : Obligations.RsaInverseUndoesForward := fun _ _ m hkeys hm =>
  ⟨_, forwardRsa_eq (Nat.ne_zero_of_lt hm) m 0, blockOf_length .., inverseRsa_blockOf hkeys hm 0⟩

/-- Settles O47: the recomputed mask `(g ^ k) ^ c` is the mask `(g ^ c) ^ k` of the forward transform. -/
theorem elgamalInverseUndoesForward : Obligations.ElgamalInverseUndoesForward := fun _ _ m k hkeys hm =>
  ⟨_, forwardElg_eq (Nat.ne_zero_of_lt hm) m k, blockOf_length .., inverseElg_blockOf hkeys hm k⟩

/-- Settles O48: both parties' exponents cancel modulo `p`, and above 2 none of the products is 0. -/
theorem threePassInverseUndoesForward : Obligations.ThreePassInverseUndoesForward := fun _ _ m hkeys h2 hm =>
  ⟨_, forwardTp_eq (Nat.ne_zero_of_lt hm) m 0, blockOf_length .., inverseTp_blockOf hkeys h2 hm 0⟩

end Sys2Proof.Machine
end

section
/-! PROOFS. The statements about errors: the `CMD` write dropped with `OVR`, and the causes that a command may raise. -/

namespace Sys2Proof.Machine

/-- Settles O7: a busy engine drops the write and sets `OVR`, which is no part of `irq`. -/
theorem cmdWriteWhileBusySetsOnlyOvr : Obligations.CmdWriteWhileBusySetsOnlyOvr := by
  intro s w hb
  rw [regWrite_cmd, writeCmd_busy hb]
  exact ⟨rfl, rfl⟩

/-! ### The errors of the arithmetic and of the transforms -/

/-- If the computation fails, it is with one of the causes `es`. -/
def ErrorsIn {α : Type} (es : List Cause) : Except Cause α → Prop
  | .ok _ => True
  | .error e => e ∈ es

section
variable {α β : Type} {es : List Cause}

theorem errorsIn_ok (a : α) : ErrorsIn es (.ok a) := trivial

theorem errorsIn_error {e : Cause} (h : e ∈ es) : ErrorsIn (α := α) es (.error e) := h

theorem errorsIn_bind {r : Except Cause α} {f : α → Except Cause β} (hr : ErrorsIn es r)
    (hf : ∀ a, ErrorsIn es (f a)) : ErrorsIn es (r >>= f) := by
  cases r with
  | ok a => exact hf a
  | error e => exact errorsIn_error hr

theorem modpow_errorsIn (h : .modulusZero ∈ es) (b : Int) (e m : Nat) : ErrorsIn es (modpow b e m) := by
  by_cases hm : m = 0
  · rw [hm, modpow_zero]
    exact errorsIn_error h
  · rw [modpow_of_pos hm]
    exact errorsIn_ok _

theorem modinv_errorsIn (h : [.modulusZero, .egcdRange, .notCoprime] ⊆ es) (v m : Nat) :
    ErrorsIn es (modinv v m) := by
  by_cases hm : m = 0
  · rw [hm, modinv_zero]
    exact errorsIn_error (h (by decide))
  · rw [modinv_of_pos hm]
    split
    · exact errorsIn_error (h (by decide))
    · split
      · exact errorsIn_error (h (by decide))
      · exact errorsIn_ok _

end

theorem modexpResult_errorsIn (signed : Bool) (o : Operands) :
    ErrorsIn (mayRaise (.modexp signed)) (modexpResult signed o) :=
  errorsIn_bind (modpow_errorsIn (List.mem_cons_self ..) ..) fun _ => errorsIn_ok _

/-- `EgcdOrder` is a cause of the legacy preconditions only (rule R76). -/
theorem egcdResult_errorsIn (legacy : Bool) (o : Operands) :
    ErrorsIn (mayRaise (.egcd legacy)) (egcdResult legacy o) := by
  have hrange : .egcdRange ∈ mayRaise (.egcd legacy) := by cases legacy <;> decide
  unfold egcdResult
  split
  · exact errorsIn_error hrange
  · split
    · exact errorsIn_error hrange
    · split
      · rename_i h
        obtain ⟨rfl, -⟩ := h
        exact errorsIn_error (by decide)
      · exact errorsIn_ok _

theorem modinvResult_errorsIn (o : Operands) : ErrorsIn (mayRaise .modinv) (modinvResult o) :=
  errorsIn_bind (modinv_errorsIn (by decide) ..) fun _ => errorsIn_ok _

theorem forwardRsa_errorsIn (o : Operands) (m : Nat) : ErrorsIn (mayRaise .encodeRsa) (forwardRsa o m) :=
  errorsIn_bind (modpow_errorsIn (by decide) ..) fun _ => errorsIn_ok _

theorem forwardElg_errorsIn (o : Operands) (m k : Nat) : ErrorsIn (mayRaise .encodeElg) (forwardElg o m k) :=
  errorsIn_bind (modpow_errorsIn (by decide) ..) fun _ => errorsIn_bind (modpow_errorsIn (by decide) ..) fun _ =>
    errorsIn_ok _

theorem forwardTp_errorsIn (o : Operands) (m : Nat) : ErrorsIn (mayRaise .encodeTp) (forwardTp o m) :=
  errorsIn_bind (modpow_errorsIn (by decide) ..) fun _ => errorsIn_bind (modpow_errorsIn (by decide) ..) fun _ =>
    errorsIn_bind (modpow_errorsIn (by decide) ..) fun _ => errorsIn_ok _

theorem inverse_errorsIn (t : BlockTransform) (o : Operands) (blk : List Byte) :
    ErrorsIn (mayRaise (decodeCommand t.transform)) (inverse t o blk) := by
  cases t with
  | rsa => exact modpow_errorsIn (by decide) ..
  | elg =>
    exact errorsIn_bind (modpow_errorsIn (by decide) ..) fun _ =>
      errorsIn_bind (modinv_errorsIn (by decide) ..) fun _ => errorsIn_ok _
  | tp => exact modpow_errorsIn (by decide) ..

/-! ### The causes a port operation raises -/

/-- If the command ends in an error, it is one of the causes `es`. -/
def Progress.RaisesIn (es : List Cause) : Progress → Prop
  | .goes _ _ => True
  | .waits _ _ => True
  | .ends (.success _ _ _) _ => True
  | .ends (.failure e) _ => e ∈ es
  | .lost => True

section
variable (es : List Cause)

@[simp] theorem raisesIn_goes (p : Pos) (q : Ports) : (Progress.goes p q).RaisesIn es := trivial

@[simp] theorem raisesIn_waits (p : Pos) (q : Ports) : (Progress.waits p q).RaisesIn es := trivial

@[simp] theorem raisesIn_success (x y z : Word) (q : Ports) : (Progress.ends (.success x y z) q).RaisesIn es := trivial

@[simp] theorem raisesIn_failure (e : Cause) (q : Ports) : (Progress.ends (.failure e) q).RaisesIn es ↔ e ∈ es :=
  Iff.rfl

@[simp] theorem raisesIn_lost : Progress.lost.RaisesIn es := trivial

@[simp] theorem verdict_raisesIn (prime : Bool) (q : Ports) : (verdict prime q).RaisesIn es := trivial

end

/-! A primitive raises nothing itself: the causes are those of what it goes on with. -/

section
variable {es : List Cause}

theorem sinThen_raisesIn {n : Nat} {wait : List Byte → Pos} {k : List Byte → Ports → Progress} {got : List Byte}
    {q : Ports} (hk : ∀ bs q, (k bs q).RaisesIn es) : (sinThen n wait k got q).RaisesIn es := by
  unfold sinThen
  split
  · exact raisesIn_waits ..
  · exact hk ..

theorem soutThen_raisesIn {wait : List Byte → Pos} {k : Ports → Progress} {pending : List Byte} {q : Ports}
    (hk : ∀ q, (k q).RaisesIn es) : (soutThen wait k pending q).RaisesIn es := by
  unfold soutThen
  split
  · exact hk _
  · exact raisesIn_waits ..

theorem drawThen_raisesIn {n : Nat} {p : Pos} {k : Nat → Ports → Progress} {q : Ports}
    (hk : ∀ a q, (k a q).RaisesIn es) : (drawThen n p k q).RaisesIn es := by
  unfold drawThen
  split
  · exact raisesIn_waits ..
  · exact hk ..

theorem portless_raisesIn {f : Operands → Except Cause (Word × Word × Word)} (cfg : Params) {o : Operands}
    (hf : ErrorsIn es (f o)) (p : Pos) (q : Ports) : (portless f cfg o p q).RaisesIn es := by
  cases p with
  | start =>
    simp only [portless, endWith]
    split
    · exact raisesIn_success ..
    · rename_i he
      rwa [he] at hf
  | _ => exact raisesIn_lost es

theorem encodeBlock_raisesIn (o : Operands) (v : EncLocals) (q : Ports) {blk : Except Cause (List Byte)}
    (h : ErrorsIn es blk) : (encodeBlock o v q blk).RaisesIn es := by
  cases blk with
  | ok b => exact raisesIn_goes ..
  | error e => exact h

end

section
variable (t : BlockTransform) (cfg : Params) (o : Operands)

/-- `PRIMETEST` always ends in a verdict (rule R94). -/
theorem primetestLine_raisesIn (p : Pos) (q : Ports) :
    (primetestLine cfg o p q).RaisesIn (mayRaise .primetest) := by
  cases p with
  | start =>
    simp only [primetestLine, primetestStart]
    split
    · simp
    · split
      · simp
      · split <;> simp
  | primeDraw r =>
    cases r with
    | zero => exact verdict_raisesIn ..
    | succ r =>
      rw [primetestLine_primeDraw]
      refine drawThen_raisesIn fun a q => ?_
      split <;> simp
  | _ => exact raisesIn_lost _

theorem encodeLoop_raisesIn (es : List Cause) (v : EncLocals) (q : Ports) : (encodeLoop t o v q).RaisesIn es := by
  unfold encodeLoop
  split <;> simp

theorem encodeChunk_raisesIn (m : Nat) (v : EncLocals) (q : Ports) :
    (encodeChunk t o m v q).RaisesIn (mayRaise (encodeCommand t.transform)) := by
  cases t with
  | rsa => exact encodeBlock_raisesIn o v q (forwardRsa_errorsIn o m)
  | elg => exact raisesIn_goes ..
  | tp => exact encodeBlock_raisesIn o v q (forwardTp_errorsIn o m)

theorem encodeLine_raisesIn (p : Pos) (q : Ports) :
    (encodeLine t cfg o p q).RaisesIn (mayRaise (encodeCommand t.transform)) := by
  cases p with
  | start =>
    simp only [encodeLine]
    split
    · exact (raisesIn_failure ..).2 (by cases t <;> decide)
    · split
      · rename_i h
        obtain ⟨rfl, -⟩ := h
        exact (raisesIn_failure ..).2 (by decide)
      · exact raisesIn_goes ..
  | encOut pending v =>
    rw [encodeLine_encOut]
    exact soutThen_raisesIn (encodeLoop_raisesIn t o _ v)
  | encIn got v =>
    rw [encodeLine_encIn]
    exact sinThen_raisesIn fun bs q => encodeChunk_raisesIn t o _ v q
  | encDraw m v =>
    cases t with
    | elg =>
      rw [encodeLine_encDraw]
      exact drawThen_raisesIn fun k q => encodeBlock_raisesIn o v q (forwardElg_errorsIn o m k)
    | _ => exact raisesIn_lost _
  | _ => exact raisesIn_lost _

/-- The causes of the framing are those of every `DECODE` in block mode. -/
theorem framing_subset_mayRaise :
    [.modulusZero, .truncated, .badTag, .modulusMismatch, .badWidth, .blockRange, .containerShort] ⊆
      mayRaise (decodeCommand t.transform) := by
  cases t <;> decide

theorem decodeLoop_raisesIn (v : DecLocals) (q : Ports) :
    (decodeLoop v q).RaisesIn (mayRaise (decodeCommand t.transform)) := by
  unfold decodeLoop
  split
  · split
    · exact framing_subset_mayRaise t (by decide)
    · exact raisesIn_success ..
  · exact raisesIn_goes ..

theorem decodeHeader_raisesIn (hdr : List Byte) (q : Ports) :
    (decodeHeader t cfg o hdr q).RaisesIn (mayRaise (decodeCommand t.transform)) := by
  simp only [decodeHeader]
  split
  · exact framing_subset_mayRaise t (by decide)
  · split
    · exact framing_subset_mayRaise t (by decide)
    · split
      · exact framing_subset_mayRaise t (by decide)
      · exact decodeLoop_raisesIn t _ q

theorem decodeBlock_raisesIn (blk : List Byte) (v : DecLocals) (q : Ports) :
    (decodeBlock t o blk v q).RaisesIn (mayRaise (decodeCommand t.transform)) := by
  have hinv := inverse_errorsIn t o blk
  cases h : inverse t o blk with
  | error e =>
    rw [decodeBlock_of_error t o v q h]
    rwa [h] at hinv
  | ok m =>
    rw [decodeBlock_of_ok t o v q h]
    split
    · exact framing_subset_mayRaise t (by decide)
    · exact raisesIn_goes ..

theorem decodeLine_raisesIn (p : Pos) (q : Ports) :
    (decodeLine t cfg o p q).RaisesIn (mayRaise (decodeCommand t.transform)) := by
  cases p with
  | start =>
    simp only [decodeLine]
    split
    · exact framing_subset_mayRaise t (by decide)
    · exact raisesIn_goes ..
  | decHead got =>
    rw [decodeLine_decHead]
    refine sinThen_raisesIn fun hdr q => ?_
    split
    · exact framing_subset_mayRaise t (by decide)
    · exact decodeHeader_raisesIn t cfg o hdr q
  | decIn got v =>
    rw [decodeLine_decIn]
    refine sinThen_raisesIn fun blk q => ?_
    split
    · exact framing_subset_mayRaise t (by decide)
    · exact decodeBlock_raisesIn t o blk v q
  | decOut pending v =>
    rw [decodeLine_decOut]
    exact soutThen_raisesIn (decodeLoop_raisesIn t v)
  | _ => exact raisesIn_lost _

theorem padLoop_raisesIn (es : List Cause) (left : Nat) (q : Ports) : (padLoop o left q).RaisesIn es := by
  unfold padLoop
  split <;> simp

theorem padLine_raisesIn (p : Pos) (q : Ports) : (padLine cfg o p q).RaisesIn (mayRaise .encodeOtp) := by
  cases p with
  | start =>
    simp only [padLine]
    split
    · exact (raisesIn_failure ..).2 (by decide)
    · exact raisesIn_goes ..
  | padIn left =>
    simp only [padLine]
    split <;> simp
  | padKey b left =>
    simp only [padLine]
    split <;> simp
  | padOut pending left =>
    rw [padLine_padOut]
    exact soutThen_raisesIn (padLoop_raisesIn o _ left)
  | _ => exact raisesIn_lost _

theorem unpadLoop_raisesIn (v : DecLocals) (q : Ports) : (unpadLoop o v q).RaisesIn (mayRaise .decodeOtp) := by
  unfold unpadLoop
  split
  · split
    · exact (raisesIn_failure ..).2 (by decide)
    · exact raisesIn_success ..
  · exact raisesIn_goes ..

theorem unpadHeader_raisesIn (hdr : List Byte) (q : Ports) :
    (unpadHeader cfg o hdr q).RaisesIn (mayRaise .decodeOtp) := by
  simp only [unpadHeader]
  split
  · exact (raisesIn_failure ..).2 (by decide)
  · split
    · exact (raisesIn_failure ..).2 (by decide)
    · exact unpadLoop_raisesIn o _ q

theorem unpadLine_raisesIn (p : Pos) (q : Ports) : (unpadLine cfg o p q).RaisesIn (mayRaise .decodeOtp) := by
  cases p with
  | start => exact raisesIn_goes ..
  | unpadHead got =>
    rw [unpadLine_unpadHead]
    refine sinThen_raisesIn fun hdr q => ?_
    split
    · exact (raisesIn_failure ..).2 (by decide)
    · exact unpadHeader_raisesIn cfg o hdr q
  | unpadIn v =>
    simp only [unpadLine]
    split
    · exact raisesIn_waits ..
    · split
      · exact raisesIn_goes ..
      · exact unpadLoop_raisesIn ..
  | unpadKey c v =>
    simp only [unpadLine]
    split <;> simp
  | unpadOut pending v =>
    rw [unpadLine_unpadOut]
    exact soutThen_raisesIn (unpadLoop_raisesIn o v)
  | _ => exact raisesIn_lost _

end

/-! ### Every command -/

/-- Every port operation of every command raises only causes of the command's own (rule R131). -/
theorem lineOf_raisesIn (i : Instr) (cfg : Params) (o : Operands) (p : Pos) (q : Ports) :
    (lineOf i cfg o p q).RaisesIn (mayRaise i) := by
  cases i with
  | modexp signed => exact portless_raisesIn cfg (modexpResult_errorsIn signed o) p q
  | egcd legacy => exact portless_raisesIn cfg (egcdResult_errorsIn legacy o) p q
  | modinv => exact portless_raisesIn cfg (modinvResult_errorsIn o) p q
  | primetest => exact primetestLine_raisesIn cfg o p q
  | encodeRsa => exact encodeLine_raisesIn .rsa cfg o p q
  | encodeElg => exact encodeLine_raisesIn .elg cfg o p q
  | encodeTp => exact encodeLine_raisesIn .tp cfg o p q
  | encodeOtp => exact padLine_raisesIn cfg o p q
  | decodeRsa => exact decodeLine_raisesIn .rsa cfg o p q
  | decodeElg => exact decodeLine_raisesIn .elg cfg o p q
  | decodeTp => exact decodeLine_raisesIn .tp cfg o p q
  | decodeOtp => exact unpadLine_raisesIn cfg o p q

theorem drive_raisesIn (i : Instr) (cfg : Params) (o : Operands) (n : Nat) (p : Pos) (q : Ports) :
    (drive (lineOf i cfg o) n p q).RaisesIn (mayRaise i) :=
  drive_induct (fun p q _ => lineOf_raisesIn i cfg o p q) (fun _ _ _ => trivial) n (raisesIn_goes ..)

/-- Settles O22: an ended command that recorded an error completed with it, at a port operation that raised it. -/
theorem commandsRaiseOnlyTheirOwnCauses : Obligations.CommandsRaiseOnlyTheirOwnCauses := by
  intro i s t e h hctx herr
  rw [exec_eq_runCommand] at h
  obtain ⟨c, -, q, ⟨p, -, rfl⟩ | ⟨x, y, z, -, rfl⟩ | ⟨e', hd, rfl⟩⟩ := runCommand_next h
  · cases hctx
  · cases herr
  · obtain rfl : e' = e := Option.some.inj herr
    have hraise := drive_raisesIn i s.cfg c.ops s.ports.turns c.pos s.ports
    rwa [hd] at hraise

end Sys2Proof.Machine
end
